-- ==== Sys2Proof/Word.lean ====
section
/-!
DEFINITION. The word types of RV32I (R4, R5, R40): a register, an address and an instruction are 32 bits,
memory is addressed by the 8-bit byte, a register number has 5 bits. All bit vectors; `+` and `-` on them
are modulo a power of two, as 00_scope.md section 5.1 reads them.
-/

namespace Sys2Proof

/-- A 32-bit value: a register, an address, `pc`, an instruction word (R4, R6, R7: XLEN = ILEN = 32). -/
abbrev Word := BitVec 32

/-- The unit of memory (R40). -/
abbrev Byte := BitVec 8

/-- The number of an `x` register, a 5-bit field of the instruction (R20, R83). -/
abbrev RegIdx := BitVec 5

end Sys2Proof
end

