-- ==== Sys2Proof/Machine/Flags.lean ====
section
/-!
DEFINITION. The machine has no flags or condition codes (R27): a branch or a set-less-than compares two values itself.
These are the comparisons of 00_scope.md section 5.1, signed or unsigned as R156 assigns them, and the value a
set-less-than writes.
-/

namespace Sys2Proof.Machine

/-- `a <s b`: `signed(a) < signed(b)`. -/
def lessSigned (a b : Word) : Bool :=
  decide (a.toInt < b.toInt)

/-- `a <u b`: `unsigned(a) < unsigned(b)`. -/
def lessUnsigned (a b : Word) : Bool :=
  decide (a.toNat < b.toNat)

/-- The 32-bit value 1 or 0 of a comparison (R122, R148). -/
def boolWord (b : Bool) : Word :=
  if b then 1#32 else 0#32

end Sys2Proof.Machine
end

