-- ==== Sys2Proof/Syntax.lean ====
section
/-!
DEFINITION. The instructions of RV32I: one constructor per row of the opcode table (R95), in the table's order,
with the operands its format holds (R84). An immediate is kept at the width the encoding gives it; a branch or
JAL offset at its full width of 13 or 21 bits, whose bit 0 is 0 in a well-formed instruction (R89, R91).
-/

namespace Sys2Proof

/-- The 40 instructions (R3, R95). Register operands stand in the order `rd rs1 rs2`, the immediate last;
FENCE also keeps its unused fields `rs1` and `rd`, which the hardware ignores (R204). -/
inductive Instr where
  -- U format
  | lui (rd : RegIdx) (imm : BitVec 20)
  | auipc (rd : RegIdx) (imm : BitVec 20)
  -- J format
  | jal (rd : RegIdx) (offset : BitVec 21)
  -- I format: JALR
  | jalr (rd rs1 : RegIdx) (imm : BitVec 12)
  -- B format
  | beq (rs1 rs2 : RegIdx) (offset : BitVec 13)
  | bne (rs1 rs2 : RegIdx) (offset : BitVec 13)
  | blt (rs1 rs2 : RegIdx) (offset : BitVec 13)
  | bge (rs1 rs2 : RegIdx) (offset : BitVec 13)
  | bltu (rs1 rs2 : RegIdx) (offset : BitVec 13)
  | bgeu (rs1 rs2 : RegIdx) (offset : BitVec 13)
  -- I format: loads
  | lb (rd rs1 : RegIdx) (imm : BitVec 12)
  | lh (rd rs1 : RegIdx) (imm : BitVec 12)
  | lw (rd rs1 : RegIdx) (imm : BitVec 12)
  | lbu (rd rs1 : RegIdx) (imm : BitVec 12)
  | lhu (rd rs1 : RegIdx) (imm : BitVec 12)
  -- S format: `rs1` is the base, `rs2` the data
  | sb (rs1 rs2 : RegIdx) (imm : BitVec 12)
  | sh (rs1 rs2 : RegIdx) (imm : BitVec 12)
  | sw (rs1 rs2 : RegIdx) (imm : BitVec 12)
  -- I format: register-immediate
  | addi (rd rs1 : RegIdx) (imm : BitVec 12)
  | slti (rd rs1 : RegIdx) (imm : BitVec 12)
  | sltiu (rd rs1 : RegIdx) (imm : BitVec 12)
  | xori (rd rs1 : RegIdx) (imm : BitVec 12)
  | ori (rd rs1 : RegIdx) (imm : BitVec 12)
  | andi (rd rs1 : RegIdx) (imm : BitVec 12)
  -- I format, shift
  | slli (rd rs1 : RegIdx) (shamt : BitVec 5)
  | srli (rd rs1 : RegIdx) (shamt : BitVec 5)
  | srai (rd rs1 : RegIdx) (shamt : BitVec 5)
  -- R format
  | add (rd rs1 rs2 : RegIdx)
  | sub (rd rs1 rs2 : RegIdx)
  | sll (rd rs1 rs2 : RegIdx)
  | slt (rd rs1 rs2 : RegIdx)
  | sltu (rd rs1 rs2 : RegIdx)
  | xor (rd rs1 rs2 : RegIdx)
  | srl (rd rs1 rs2 : RegIdx)
  | sra (rd rs1 rs2 : RegIdx)
  | or (rd rs1 rs2 : RegIdx)
  | and (rd rs1 rs2 : RegIdx)
  -- I format, fence
  | fence (fm pred succ : BitVec 4) (rs1 rd : RegIdx)
  -- I format, system
  | ecall
  | ebreak
deriving DecidableEq, Repr

end Sys2Proof
end

