-- ==== Sys2Proof/Decode.lean ====
section
/-!
DEFINITION. From bytes to an instruction and back: the byte order (R49, R50), the fields and immediates of a word
(R83 to R92), the decoder by major opcode and minor-opcode fields (R85, R96, R98), which rejects by name every word
that is none of the 40 (R97, R99, R100), the encoder (R84, R94), and the match/mask table of R95.
-/

namespace Sys2Proof

/-! ### Byte order -/

/-- Byte `k` of a word in the little-endian layout: bits 8k+7..8k (R49). -/
def byteOf (w : Word) (k : Nat) : Byte :=
  w.extractLsb' (8 * k) 8

/-- The word whose bytes, from the lowest address up, are `b0 b1 b2 b3` (R49, R50). -/
def wordOfBytes (b0 b1 b2 b3 : Byte) : Word :=
  b3 ++ b2 ++ b1 ++ b0

/-- The halfword whose bytes, from the lowest address up, are `b0 b1` (R49). -/
def halfOfBytes (b0 b1 : Byte) : BitVec 16 :=
  b1 ++ b0

/-! ### Fields of a word (R83, R85, R92) -/

def opcodeField (w : Word) : BitVec 7 := w.extractLsb' 0 7
def rdField (w : Word) : RegIdx := w.extractLsb' 7 5
def funct3Field (w : Word) : BitVec 3 := w.extractLsb' 12 3
def rs1Field (w : Word) : RegIdx := w.extractLsb' 15 5
def rs2Field (w : Word) : RegIdx := w.extractLsb' 20 5
def funct7Field (w : Word) : BitVec 7 := w.extractLsb' 25 7
def shamtField (w : Word) : BitVec 5 := w.extractLsb' 20 5
def succField (w : Word) : BitVec 4 := w.extractLsb' 20 4
def predField (w : Word) : BitVec 4 := w.extractLsb' 24 4
def fmField (w : Word) : BitVec 4 := w.extractLsb' 28 4

/-! ### Immediates, before sign extension (R87 to R91) -/

/-- I-immediate: `inst[31:20]` (R87). -/
def immIField (w : Word) : BitVec 12 := w.extractLsb' 20 12

/-- S-immediate: `inst[31:25] ++ inst[11:7]` (R88). -/
def immSField (w : Word) : BitVec 12 := w.extractLsb' 25 7 ++ w.extractLsb' 7 5

/-- B-immediate: `inst[31] ++ inst[7] ++ inst[30:25] ++ inst[11:8] ++ 0` (R89). -/
def immBField (w : Word) : BitVec 13 :=
  w.extractLsb' 31 1 ++ w.extractLsb' 7 1 ++ w.extractLsb' 25 6 ++ w.extractLsb' 8 4 ++ 0#1

/-- U-immediate: the 20 bits `inst[31:12]`, which become bits 31..12 (R90). -/
def immUField (w : Word) : BitVec 20 := w.extractLsb' 12 20

/-- J-immediate: `inst[31] ++ inst[19:12] ++ inst[20] ++ inst[30:21] ++ 0` (R91). -/
def immJField (w : Word) : BitVec 21 :=
  w.extractLsb' 31 1 ++ w.extractLsb' 12 8 ++ w.extractLsb' 20 1 ++ w.extractLsb' 21 10 ++ 0#1

/-! ### The decoder -/

/-- Why bytes are no instruction of RV32I. Every reason but `truncated` raises `IllegalInstruction` (R97); a fetch
always reads four bytes, so `truncated` never reaches the machine. -/
inductive Illegal where
  | truncated                          -- fewer than four bytes were given
  | shortLengthCode                    -- inst[1:0] is not 11: a 16-bit length code (R82, D24)
  | longLengthCode                     -- inst[4:2] is 111: a length code of 48 bits or more (R82, D24)
  | otherMajorOpcode (op : BitVec 7)   -- an extension's, a custom or a reserved major opcode (R96, R100)
  | reservedFunct3 (op : BitVec 7) (funct3 : BitVec 3)    -- a hole of R99 told by funct3
  | reservedFunct7 (op : BitVec 7) (funct7 : BitVec 7)    -- a hole of R99 told by inst[31:25]
  | otherSystem                        -- SYSTEM, neither ECALL nor EBREAK: CSR, privileged, reserved (R214)
deriving DecidableEq, Repr

/-- What the decoder answers. -/
inductive Decoded where
  | instr (i : Instr)
  | illegal (why : Illegal)
deriving DecidableEq, Repr

/-- LOAD `0000011` (R181 to R186). -/
def decodeLoad (w : Word) : Decoded :=
  match funct3Field w with
  | 0b000#3 => .instr (.lb (rdField w) (rs1Field w) (immIField w))
  | 0b001#3 => .instr (.lh (rdField w) (rs1Field w) (immIField w))
  | 0b010#3 => .instr (.lw (rdField w) (rs1Field w) (immIField w))
  | 0b100#3 => .instr (.lbu (rdField w) (rs1Field w) (immIField w))
  | 0b101#3 => .instr (.lhu (rdField w) (rs1Field w) (immIField w))
  | f => .illegal (.reservedFunct3 (opcodeField w) f)

/-- STORE `0100011` (R187 to R190). -/
def decodeStore (w : Word) : Decoded :=
  match funct3Field w with
  | 0b000#3 => .instr (.sb (rs1Field w) (rs2Field w) (immSField w))
  | 0b001#3 => .instr (.sh (rs1Field w) (rs2Field w) (immSField w))
  | 0b010#3 => .instr (.sw (rs1Field w) (rs2Field w) (immSField w))
  | f => .illegal (.reservedFunct3 (opcodeField w) f)

/-- BRANCH `1100011` (R170 to R175). -/
def decodeBranch (w : Word) : Decoded :=
  match funct3Field w with
  | 0b000#3 => .instr (.beq (rs1Field w) (rs2Field w) (immBField w))
  | 0b001#3 => .instr (.bne (rs1Field w) (rs2Field w) (immBField w))
  | 0b100#3 => .instr (.blt (rs1Field w) (rs2Field w) (immBField w))
  | 0b101#3 => .instr (.bge (rs1Field w) (rs2Field w) (immBField w))
  | 0b110#3 => .instr (.bltu (rs1Field w) (rs2Field w) (immBField w))
  | 0b111#3 => .instr (.bgeu (rs1Field w) (rs2Field w) (immBField w))
  | f => .illegal (.reservedFunct3 (opcodeField w) f)

/-- OP-IMM `0010011` (R121 to R126, R130 to R132). -/
def decodeOpImm (w : Word) : Decoded :=
  match funct3Field w with
  | 0b000#3 => .instr (.addi (rdField w) (rs1Field w) (immIField w))
  | 0b010#3 => .instr (.slti (rdField w) (rs1Field w) (immIField w))
  | 0b011#3 => .instr (.sltiu (rdField w) (rs1Field w) (immIField w))
  | 0b100#3 => .instr (.xori (rdField w) (rs1Field w) (immIField w))
  | 0b110#3 => .instr (.ori (rdField w) (rs1Field w) (immIField w))
  | 0b111#3 => .instr (.andi (rdField w) (rs1Field w) (immIField w))
  | 0b001#3 =>
    match funct7Field w with
    | 0b0000000#7 => .instr (.slli (rdField w) (rs1Field w) (shamtField w))
    | f => .illegal (.reservedFunct7 (opcodeField w) f)
  | 0b101#3 =>
    match funct7Field w with
    | 0b0000000#7 => .instr (.srli (rdField w) (rs1Field w) (shamtField w))
    | 0b0100000#7 => .instr (.srai (rdField w) (rs1Field w) (shamtField w))
    | f => .illegal (.reservedFunct7 (opcodeField w) f)
  | f => .illegal (.reservedFunct3 (opcodeField w) f)

/-- OP `0110011` (R145 to R154). -/
def decodeOp (w : Word) : Decoded :=
  match funct7Field w with
  | 0b0000000#7 =>
    match funct3Field w with
    | 0b000#3 => .instr (.add (rdField w) (rs1Field w) (rs2Field w))
    | 0b001#3 => .instr (.sll (rdField w) (rs1Field w) (rs2Field w))
    | 0b010#3 => .instr (.slt (rdField w) (rs1Field w) (rs2Field w))
    | 0b011#3 => .instr (.sltu (rdField w) (rs1Field w) (rs2Field w))
    | 0b100#3 => .instr (.xor (rdField w) (rs1Field w) (rs2Field w))
    | 0b101#3 => .instr (.srl (rdField w) (rs1Field w) (rs2Field w))
    | 0b110#3 => .instr (.or (rdField w) (rs1Field w) (rs2Field w))
    | 0b111#3 => .instr (.and (rdField w) (rs1Field w) (rs2Field w))
    | f => .illegal (.reservedFunct3 (opcodeField w) f)
  | 0b0100000#7 =>
    match funct3Field w with
    | 0b000#3 => .instr (.sub (rdField w) (rs1Field w) (rs2Field w))
    | 0b101#3 => .instr (.sra (rdField w) (rs1Field w) (rs2Field w))
    | f => .illegal (.reservedFunct3 (opcodeField w) f)
  | f => .illegal (.reservedFunct7 (opcodeField w) f)

/-- JALR `1100111` (R166). -/
def decodeJalr (w : Word) : Decoded :=
  match funct3Field w with
  | 0b000#3 => .instr (.jalr (rdField w) (rs1Field w) (immIField w))
  | f => .illegal (.reservedFunct3 (opcodeField w) f)

/-- MISC-MEM `0001111`: every word with funct3 = 000 is a FENCE (R200, R204). -/
def decodeMiscMem (w : Word) : Decoded :=
  match funct3Field w with
  | 0b000#3 => .instr (.fence (fmField w) (predField w) (succField w) (rs1Field w) (rdField w))
  | f => .illegal (.reservedFunct3 (opcodeField w) f)

/-- SYSTEM `1110011`: two single words (R210, R211, R214). -/
def decodeSystem (w : Word) : Decoded :=
  match w with
  | 0x00000073#32 => .instr .ecall
  | 0x00100073#32 => .instr .ebreak
  | _ => .illegal .otherSystem

/-- Why a word of a major opcode that RV32I does not use is illegal (R82, R96). -/
def illegalOpcode (w : Word) : Illegal :=
  if w.extractLsb' 0 2 ≠ 0b11#2 then .shortLengthCode
  else if w.extractLsb' 2 3 = 0b111#3 then .longLengthCode
  else .otherMajorOpcode (opcodeField w)

/-- The decoder, total on all 2^32 words (R98), by the major opcode map (R96). -/
def decode (w : Word) : Decoded :=
  match opcodeField w with
  | 0b0110111#7 => .instr (.lui (rdField w) (immUField w))
  | 0b0010111#7 => .instr (.auipc (rdField w) (immUField w))
  | 0b1101111#7 => .instr (.jal (rdField w) (immJField w))
  | 0b1100111#7 => decodeJalr w
  | 0b1100011#7 => decodeBranch w
  | 0b0000011#7 => decodeLoad w
  | 0b0100011#7 => decodeStore w
  | 0b0010011#7 => decodeOpImm w
  | 0b0110011#7 => decodeOp w
  | 0b0001111#7 => decodeMiscMem w
  | 0b1110011#7 => decodeSystem w
  | _ => .illegal (illegalOpcode w)

/-- Decoding bytes as memory holds them, lowest address first: every instruction takes four (R80). The answer is
paired with the bytes that are left. -/
def decodeBytes : List Byte → Decoded × List Byte
  | b0 :: b1 :: b2 :: b3 :: rest => (decode (wordOfBytes b0 b1 b2 b3), rest)
  | short => (.illegal .truncated, short)

/-! ### The encoder (R84, R94) -/

def encodeR (funct7 : BitVec 7) (rs2 rs1 : RegIdx) (funct3 : BitVec 3) (rd : RegIdx) (op : BitVec 7) : Word :=
  funct7 ++ rs2 ++ rs1 ++ funct3 ++ rd ++ op

def encodeI (imm : BitVec 12) (rs1 : RegIdx) (funct3 : BitVec 3) (rd : RegIdx) (op : BitVec 7) : Word :=
  imm ++ rs1 ++ funct3 ++ rd ++ op

def encodeS (imm : BitVec 12) (rs2 rs1 : RegIdx) (funct3 : BitVec 3) (op : BitVec 7) : Word :=
  imm.extractLsb' 5 7 ++ rs2 ++ rs1 ++ funct3 ++ imm.extractLsb' 0 5 ++ op

def encodeB (imm : BitVec 13) (rs2 rs1 : RegIdx) (funct3 : BitVec 3) (op : BitVec 7) : Word :=
  imm.extractLsb' 12 1 ++ imm.extractLsb' 5 6 ++ rs2 ++ rs1 ++ funct3 ++ imm.extractLsb' 1 4 ++
    imm.extractLsb' 11 1 ++ op

def encodeU (imm : BitVec 20) (rd : RegIdx) (op : BitVec 7) : Word :=
  imm ++ rd ++ op

def encodeJ (imm : BitVec 21) (rd : RegIdx) (op : BitVec 7) : Word :=
  imm.extractLsb' 20 1 ++ imm.extractLsb' 1 10 ++ imm.extractLsb' 11 1 ++ imm.extractLsb' 12 8 ++ rd ++ op

/-- The word of a well-formed instruction, from the encoding table of R95. -/
def encode : Instr → Word
  | .lui rd imm => encodeU imm rd 0b0110111#7
  | .auipc rd imm => encodeU imm rd 0b0010111#7
  | .jal rd offset => encodeJ offset rd 0b1101111#7
  | .jalr rd rs1 imm => encodeI imm rs1 0b000#3 rd 0b1100111#7
  | .beq rs1 rs2 offset => encodeB offset rs2 rs1 0b000#3 0b1100011#7
  | .bne rs1 rs2 offset => encodeB offset rs2 rs1 0b001#3 0b1100011#7
  | .blt rs1 rs2 offset => encodeB offset rs2 rs1 0b100#3 0b1100011#7
  | .bge rs1 rs2 offset => encodeB offset rs2 rs1 0b101#3 0b1100011#7
  | .bltu rs1 rs2 offset => encodeB offset rs2 rs1 0b110#3 0b1100011#7
  | .bgeu rs1 rs2 offset => encodeB offset rs2 rs1 0b111#3 0b1100011#7
  | .lb rd rs1 imm => encodeI imm rs1 0b000#3 rd 0b0000011#7
  | .lh rd rs1 imm => encodeI imm rs1 0b001#3 rd 0b0000011#7
  | .lw rd rs1 imm => encodeI imm rs1 0b010#3 rd 0b0000011#7
  | .lbu rd rs1 imm => encodeI imm rs1 0b100#3 rd 0b0000011#7
  | .lhu rd rs1 imm => encodeI imm rs1 0b101#3 rd 0b0000011#7
  | .sb rs1 rs2 imm => encodeS imm rs2 rs1 0b000#3 0b0100011#7
  | .sh rs1 rs2 imm => encodeS imm rs2 rs1 0b001#3 0b0100011#7
  | .sw rs1 rs2 imm => encodeS imm rs2 rs1 0b010#3 0b0100011#7
  | .addi rd rs1 imm => encodeI imm rs1 0b000#3 rd 0b0010011#7
  | .slti rd rs1 imm => encodeI imm rs1 0b010#3 rd 0b0010011#7
  | .sltiu rd rs1 imm => encodeI imm rs1 0b011#3 rd 0b0010011#7
  | .xori rd rs1 imm => encodeI imm rs1 0b100#3 rd 0b0010011#7
  | .ori rd rs1 imm => encodeI imm rs1 0b110#3 rd 0b0010011#7
  | .andi rd rs1 imm => encodeI imm rs1 0b111#3 rd 0b0010011#7
  | .slli rd rs1 shamt => encodeR 0b0000000#7 shamt rs1 0b001#3 rd 0b0010011#7
  | .srli rd rs1 shamt => encodeR 0b0000000#7 shamt rs1 0b101#3 rd 0b0010011#7
  | .srai rd rs1 shamt => encodeR 0b0100000#7 shamt rs1 0b101#3 rd 0b0010011#7
  | .add rd rs1 rs2 => encodeR 0b0000000#7 rs2 rs1 0b000#3 rd 0b0110011#7
  | .sub rd rs1 rs2 => encodeR 0b0100000#7 rs2 rs1 0b000#3 rd 0b0110011#7
  | .sll rd rs1 rs2 => encodeR 0b0000000#7 rs2 rs1 0b001#3 rd 0b0110011#7
  | .slt rd rs1 rs2 => encodeR 0b0000000#7 rs2 rs1 0b010#3 rd 0b0110011#7
  | .sltu rd rs1 rs2 => encodeR 0b0000000#7 rs2 rs1 0b011#3 rd 0b0110011#7
  | .xor rd rs1 rs2 => encodeR 0b0000000#7 rs2 rs1 0b100#3 rd 0b0110011#7
  | .srl rd rs1 rs2 => encodeR 0b0000000#7 rs2 rs1 0b101#3 rd 0b0110011#7
  | .sra rd rs1 rs2 => encodeR 0b0100000#7 rs2 rs1 0b101#3 rd 0b0110011#7
  | .or rd rs1 rs2 => encodeR 0b0000000#7 rs2 rs1 0b110#3 rd 0b0110011#7
  | .and rd rs1 rs2 => encodeR 0b0000000#7 rs2 rs1 0b111#3 rd 0b0110011#7
  | .fence fm pred succ rs1 rd => encodeI (fm ++ pred ++ succ) rs1 0b000#3 rd 0b0001111#7
  | .ecall => 0x00000073#32
  | .ebreak => 0x00100073#32

/-- The four bytes of an instruction as memory holds them, lowest address first (R50). -/
def encodeBytes (i : Instr) : List Byte :=
  (List.range 4).map (byteOf (encode i))

/-! ### The table of R95, written a second time as match and mask -/

/-- One row of R95: a word `w` is the instruction when `w &&& mask = pattern`. -/
structure OpcodeRow where
  mnemonic : String
  pattern  : Word
  mask     : Word
deriving DecidableEq, Repr

/-- Rows 1 to 18 of R95. -/
def opcodeRowsA : List OpcodeRow :=
  [⟨"LUI", 0x00000037, 0x0000007F⟩, ⟨"AUIPC", 0x00000017, 0x0000007F⟩, ⟨"JAL", 0x0000006F, 0x0000007F⟩,
   ⟨"JALR", 0x00000067, 0x0000707F⟩, ⟨"BEQ", 0x00000063, 0x0000707F⟩, ⟨"BNE", 0x00001063, 0x0000707F⟩,
   ⟨"BLT", 0x00004063, 0x0000707F⟩, ⟨"BGE", 0x00005063, 0x0000707F⟩, ⟨"BLTU", 0x00006063, 0x0000707F⟩,
   ⟨"BGEU", 0x00007063, 0x0000707F⟩, ⟨"LB", 0x00000003, 0x0000707F⟩, ⟨"LH", 0x00001003, 0x0000707F⟩,
   ⟨"LW", 0x00002003, 0x0000707F⟩, ⟨"LBU", 0x00004003, 0x0000707F⟩, ⟨"LHU", 0x00005003, 0x0000707F⟩,
   ⟨"SB", 0x00000023, 0x0000707F⟩, ⟨"SH", 0x00001023, 0x0000707F⟩, ⟨"SW", 0x00002023, 0x0000707F⟩]

/-- Rows 19 to 40 of R95. -/
def opcodeRowsB : List OpcodeRow :=
  [⟨"ADDI", 0x00000013, 0x0000707F⟩, ⟨"SLTI", 0x00002013, 0x0000707F⟩, ⟨"SLTIU", 0x00003013, 0x0000707F⟩,
   ⟨"XORI", 0x00004013, 0x0000707F⟩, ⟨"ORI", 0x00006013, 0x0000707F⟩, ⟨"ANDI", 0x00007013, 0x0000707F⟩,
   ⟨"SLLI", 0x00001013, 0xFE00707F⟩, ⟨"SRLI", 0x00005013, 0xFE00707F⟩, ⟨"SRAI", 0x40005013, 0xFE00707F⟩,
   ⟨"ADD", 0x00000033, 0xFE00707F⟩, ⟨"SUB", 0x40000033, 0xFE00707F⟩, ⟨"SLL", 0x00001033, 0xFE00707F⟩,
   ⟨"SLT", 0x00002033, 0xFE00707F⟩, ⟨"SLTU", 0x00003033, 0xFE00707F⟩, ⟨"XOR", 0x00004033, 0xFE00707F⟩,
   ⟨"SRL", 0x00005033, 0xFE00707F⟩, ⟨"SRA", 0x40005033, 0xFE00707F⟩, ⟨"OR", 0x00006033, 0xFE00707F⟩,
   ⟨"AND", 0x00007033, 0xFE00707F⟩, ⟨"FENCE", 0x0000000F, 0x0000707F⟩, ⟨"ECALL", 0x00000073, 0xFFFFFFFF⟩,
   ⟨"EBREAK", 0x00100073, 0xFFFFFFFF⟩]

/-- The 40 rows of R95. The decoder does not read them: that it agrees with them is a statement. -/
def opcodeRows : List OpcodeRow := opcodeRowsA ++ opcodeRowsB

/-- A word matches a row. -/
def OpcodeRow.accepts (r : OpcodeRow) (w : Word) : Prop := w &&& r.mask = r.pattern

/-- The name of an instruction in the table. -/
def Instr.mnemonic : Instr → String
  | .lui _ _ => "LUI"
  | .auipc _ _ => "AUIPC"
  | .jal _ _ => "JAL"
  | .jalr _ _ _ => "JALR"
  | .beq _ _ _ => "BEQ"
  | .bne _ _ _ => "BNE"
  | .blt _ _ _ => "BLT"
  | .bge _ _ _ => "BGE"
  | .bltu _ _ _ => "BLTU"
  | .bgeu _ _ _ => "BGEU"
  | .lb _ _ _ => "LB"
  | .lh _ _ _ => "LH"
  | .lw _ _ _ => "LW"
  | .lbu _ _ _ => "LBU"
  | .lhu _ _ _ => "LHU"
  | .sb _ _ _ => "SB"
  | .sh _ _ _ => "SH"
  | .sw _ _ _ => "SW"
  | .addi _ _ _ => "ADDI"
  | .slti _ _ _ => "SLTI"
  | .sltiu _ _ _ => "SLTIU"
  | .xori _ _ _ => "XORI"
  | .ori _ _ _ => "ORI"
  | .andi _ _ _ => "ANDI"
  | .slli _ _ _ => "SLLI"
  | .srli _ _ _ => "SRLI"
  | .srai _ _ _ => "SRAI"
  | .add _ _ _ => "ADD"
  | .sub _ _ _ => "SUB"
  | .sll _ _ _ => "SLL"
  | .slt _ _ _ => "SLT"
  | .sltu _ _ _ => "SLTU"
  | .xor _ _ _ => "XOR"
  | .srl _ _ _ => "SRL"
  | .sra _ _ _ => "SRA"
  | .or _ _ _ => "OR"
  | .and _ _ _ => "AND"
  | .fence _ _ _ _ _ => "FENCE"
  | .ecall => "ECALL"
  | .ebreak => "EBREAK"

/-! ### The host's question -/

/-- The instruction the decoder reads from the table word `w` of `nbits` bits (bits from `nbits` on are 0), laid out
as memory holds it, lowest byte first. -/
def decodeTableWord (nbits w : Nat) : Option Instr :=
  let word := BitVec.ofNat 32 (w % 2 ^ nbits)
  match (decodeBytes ((List.range 4).map (byteOf word))).1 with
  | .instr i => some i
  | .illegal _ => none

end Sys2Proof
end

