-- ==== Sys2Proof/Config.lean ====
section
/-!
DEFINITION. What the spec hands to the execution environment (R8, 92_eei_decisions.md): the parameters that stay
fixed while the machine runs (`Params`), what the hart shows the outside (`Event`, `TrapRecord`), the function
`ee_resume` by which the environment answers traps (`EnvRule`, `EnvAnswer`), and the one free value, what an I/O read returns (`Config.ioRead`).
All but the free value are plain data, so that a state may hold them.
-/

namespace Sys2Proof

/-- `MISALIGNED_DATA` (R53, D5): what a load or store that is not naturally aligned does. -/
inductive MisalignedData where
  | trap      -- it raises the address-misaligned exception (the spec's default)
  | support   -- it is performed byte by byte
deriving DecidableEq, Repr

/-- The class of an address, `region(a)` (R41). -/
inductive RegionClass where
  | vacant
  | main
  | io
deriving DecidableEq, Repr

/-- The kinds of memory access that the environment may allow or forbid (R46). -/
inductive AccessKind where
  | fetch
  | load
  | store
deriving DecidableEq, Repr

/-- One address range `[base, base + size)` of the map, with its class and the accesses it allows (R41, R46). -/
structure Region where
  base  : Nat
  size  : Nat
  cls   : RegionClass
  fetch : Bool
  load  : Bool
  store : Bool
deriving DecidableEq, Repr

/-- One `main` range that allows all three kinds of access: the shape of the spec's default map (R48, D6). -/
def Region.mainRange (base size : Nat) : Region :=
  { base := base, size := size, cls := .main, fetch := true, load := true, store := true }

/-- The nine exception causes of R236; each constructor's comment says who raises it. -/
inductive Cause where
  | instructionAddressMisaligned  -- JAL, JALR, a taken branch: target not a multiple of 4; the fetch of R246
  | instructionAccessFault        -- the fetch of any instruction from an inaccessible address
  | illegalInstruction            -- the decode of a word that is none of the 40 instructions
  | breakpoint                    -- EBREAK
  | loadAddressMisaligned         -- LH, LHU, LW
  | loadAccessFault               -- LB, LBU, LH, LHU, LW
  | storeAddressMisaligned        -- SH, SW
  | storeAccessFault              -- SB, SH, SW
  | environmentCall               -- ECALL
deriving DecidableEq, Repr

/-- `Trap(cause, epc, info)`, the record handed to the execution environment (R241). -/
structure TrapRecord where
  cause : Cause
  epc   : Word
  info  : Word
deriving DecidableEq, Repr

/-- How a FENCE orders: as a normal fence or as FENCE.TSO (R202, R204). -/
inductive FenceMode where
  | normal
  | tso
deriving DecidableEq, Repr

/-- One entry of the event history, the model's bookkeeping of what the hart showed the outside, oldest first
(R34, R61, R200): an I/O load or store, a FENCE, a trap the environment answered (log entries 9, 11, 12). -/
inductive Event where
  | ioLoad (addr : Word) (bytes : Nat)
  | ioStore (addr : Word) (bytes : Nat) (value : Word)
  | fence (mode : FenceMode) (pred succ : BitVec 4)
  | trap (record : TrapRecord)
deriving DecidableEq, Repr

/-- What the environment answers to one trap, a value of `ee_resume` (R244): it ends the run, or it gives the state to go
on from, `x'[0]`, the other registers `x'[1..31]`, `memory'` and `pc'`. -/
inductive EnvAnswer where
  | stop
  | resume (x0 : Word) (regs : Vector Word 31) (mem : List Host.Cell) (pc : Word)
deriving DecidableEq, Repr

/-- `pc'` of a resumption (R244): an address, or one relative to `epc` (`epc + 4` is the conventional one). -/
inductive ResumePc where
  | absolute (pc : Word)
  | afterEpc (offset : Word)
deriving DecidableEq, Repr

/-- An answer given by its changes to the registers and the memory of the trap, in the order of the lists. -/
inductive EnvReply where
  | stop
  | resume (x0 : Word) (regs : List (RegIdx × Word)) (writes : List (Word × Byte)) (pc : ResumePc)
deriving DecidableEq, Repr

/-- One row of the table that holds `ee_resume` (R244, log entry 8): for each of its arguments `cause`, `epc`, `info`,
`x[1..31]` and memory the one value it is for, or every value (`none`), and the reply. -/
structure EnvRule where
  cause : Option Cause
  epc   : Option Word
  info  : Option Word
  regs  : Option (Vector Word 31)
  mem   : Option (List Host.Cell)
  reply : EnvReply
deriving DecidableEq, Repr

/-- The parameters the spec leaves OPEN and the machine never changes: the address map (`region`, `perm`),
`MISALIGNED_DATA`, `FETCH_COHERENT`, `ee_resume`. An address in no range is vacant; where ranges overlap the first listed
counts (log entry 5). A trap that no row of `eeResume` is for is answered `Stop`, and the first row that is for it counts
(log entry 8); the empty table is the default environment (R243). -/
structure Params where
  regions       : List Region
  misaligned    : MisalignedData
  fetchCoherent : Bool
  eeResume      : List EnvRule
deriving DecidableEq, Repr

/-- FREE VALUE. What an I/O read of `n` bytes at an address returns, given the event history (R61, D19: 'an open
parameter that the model must treat as a draw'). It has no body: nothing can be proved of its value. -/
opaque Config.ioRead (addr : Word) (n : Nat) (history : List Event) : Word

end Sys2Proof
end

