-- ==== Sys2Proof/Machine/State.lean ====
section
/-!
DEFINITION. The state of one hart with its memory (R34), the ways a step can stop, and the state after reset.
-/

namespace Sys2Proof.Machine

/-- The contents of memory: the bytes that differ from `Memory.unwritten`, by rising address (R40). -/
abbrev Memory := List Host.Cell

/-- What an address that the list does not name reads as. The spec leaves the initial contents open (`init_mem`,
R37); the model names 0, a DESIGN CHOICE, unsafe (log entry 3). -/
def Memory.unwritten : Byte := 0#8

/-- The canonical form: addresses strictly rising and below 2^32, no listed byte equal to `unwritten`. -/
abbrev Memory.wf (m : Memory) : Prop :=
  m.Pairwise (fun c d => c.1 < d.1) ∧ ∀ c ∈ m, c.1 < 2 ^ 32 ∧ c.2 ≠ Memory.unwritten

/-- The machine. `regs` holds `x1` to `x31` (`x0` is a constant and not state, R34); the reads and writes of
registers, `State.readReg` and `State.writeReg`, are where `x0` is hard-wired. -/
structure State where
  /-- `x1` to `x31`, register `i` at place `i - 1` (R20, R34). -/
  regs    : Vector Word 31
  /-- The address of the current instruction (R24). -/
  pc      : Word
  /-- Memory (R34, R40). -/
  mem     : Memory
  /-- The addresses of the bytes stored to since launch, strictly rising; bookkeeping that the fetch reads (R33, R66). -/
  dirty   : List Nat
  /-- The event history, oldest first; bookkeeping that an I/O read depends on (R34, R61, R200). -/
  history : List Event
  /-- The environment's parameters, its function `ee_resume` among them, which no step changes (R8, R34, R244). -/
  params  : Params
deriving DecidableEq, Repr

/-- How a run ends with an exception. -/
inductive Fault where
  /-- `Trap(cause, epc, info)` that the environment does not resume: the run ends, and the final state is the state
  before the raising instruction (R241, R243). Raised by `raise` alone. Safe: nothing is claimed of what follows. -/
  | trap (record : TrapRecord)
deriving DecidableEq, Repr

/-- Where the model gives a situation no meaning, `Refused` (R241). -/
inductive Refusal where
  /-- An instruction whose arm in `exec` has no meaning yet; raised by such an arm alone. Safe. No arm is left. -/
  | notModelled (mnemonic : String)
  /-- The fetch of a byte stored to since launch with `FETCH_COHERENT = false`; raised by `fetch` (R58, R66). Safe:
  the hardware may run the old bytes or the new. -/
  | fetchOfStoredBytes
  /-- The environment resumes with `x'[0]` not 0 or `pc'` not a multiple of 4; raised by `resumeFrom` (R244). Safe. -/
  | illegalResume
  /-- A launch with `RESET_PC` not a multiple of 4; raised by `launch` (R35, R271, D25). Safe. -/
  | misalignedResetPc
deriving DecidableEq, Repr

/-- The three outcomes of a step (R241): `Next`, `Trap` as a fault, `Refused`. -/
abbrev Result := Host.Outcome State Fault Refusal

/-- The parameters at reset: `MISALIGNED_DATA = trap`, `FETCH_COHERENT = false` and an `ee_resume` that always stops are
the spec's defaults (D5, D16, D11); the map is the spec's default shape, one `main` range with all three permissions (R48, D6), whose base and size the
spec leaves open: the whole address space, a DESIGN CHOICE, unsafe (log entry 4). -/
def resetParams : Params :=
  { regions := [Region.mainRange 0 (2 ^ 32)], misaligned := .trap, fetchCoherent := false, eeResume := [] }

/-- The machine after reset (R271). `x0` is 0 by R22, `dirty` and the history are empty by R37, the environment stops
at every trap by R243. The spec leaves `RESET_PC`, `init_x` and `init_mem` open: `pc = 0x00001000` (log entry 1), `x1`
to `x31` 0 (log entry 2), no byte listed (log entry 3), DESIGN CHOICES, unsafe. -/
def State.reset : State :=
  { regs := Vector.replicate 31 0#32
    pc := 0x00001000#32
    mem := []
    dirty := []
    history := []
    params := resetParams }

end Sys2Proof.Machine
end

