-- ==== Sys2Proof/Machine/Ops.lean ====
section
/-!
DEFINITION. The named operations every instruction is written with: registers and `pc` (R20, R22, R25), the address map
(R41, R46, R55), memory byte by byte and by access (R49, R54, R56, R57, R61), the set `dirty` and the event history, and
the taking of an exception with the environment's answer (R240 to R245).
-/

namespace Sys2Proof.Machine

/-! ### Registers and pc -/

theorem regIndex_lt (r : RegIdx) : r.toNat - 1 < 31 := by
  have := r.isLt
  omega

/-- `x[r]`: register 0 reads 0 in every state (R22). -/
def State.readReg (s : State) (r : RegIdx) : Word :=
  if r = 0#5 then 0#32 else s.regs[r.toNat - 1]'(regIndex_lt r)

/-- `x[r] <- v`: a write of register 0 is discarded (R22). -/
def State.writeReg (s : State) (r : RegIdx) (v : Word) : State :=
  if r = 0#5 then s else { s with regs := s.regs.set (r.toNat - 1) v (regIndex_lt r) }

/-- `pc <- t`. -/
def State.setPc (s : State) (t : Word) : State :=
  { s with pc := t }

/-- The implicit `pc <- pc + 4` of an instruction that does not transfer control, modulo 2^32 (R25, R29). -/
def State.advance (s : State) : State :=
  s.setPc (s.pc + 4#32)

/-- Whether an address is no address of an instruction, `a[1:0] != 00` (R6, R160). -/
def notFourAligned (a : Word) : Bool :=
  a.extractLsb' 0 2 != 0#2

/-! ### The address map -/

/-- Whether a range covers an address. -/
def Region.covers (r : Region) (a : Nat) : Bool :=
  decide (r.base ≤ a) && decide (a < r.base + r.size)

/-- The range an address lies in: the first listed that covers it. -/
def regionAt (p : Params) (a : Nat) : Option Region :=
  p.regions.find? (fun r => Region.covers r a)

/-- `region(a)` (R41). -/
def classAt (p : Params) (a : Nat) : RegionClass :=
  match regionAt p a with
  | none => .vacant
  | some r => r.cls

/-- Whether a range allows a kind of access by its flags. -/
def Region.allows (r : Region) : AccessKind → Bool
  | .fetch => r.fetch
  | .load => r.load
  | .store => r.store

/-- `perm(a, kind)`: false on vacant addresses (R46), and for a fetch from I/O (R61). -/
def perm (p : Params) (a : Nat) (kind : AccessKind) : Bool :=
  match regionAt p a with
  | none => false
  | some r =>
    match r.cls with
    | .vacant => false
    | .main => Region.allows r kind
    | .io => kind != .fetch && Region.allows r kind

/-- The address of byte `k` of an access at `a`, modulo 2^32 (R54). -/
def byteAddr (a : Word) (k : Nat) : Nat :=
  (a.toNat + k) % 2 ^ 32

/-- `accessible(addr, n, kind)`: every byte of the access is (R55). -/
def accessible (p : Params) (a : Word) (n : Nat) (kind : AccessKind) : Bool :=
  (List.range n).all (fun k => perm p (byteAddr a k) kind)

/-- Some byte of the access is I/O (R56, R57). -/
def touchesIo (p : Params) (a : Word) (n : Nat) : Bool :=
  (List.range n).any (fun k => classAt p (byteAddr a k) == .io)

/-- The first check of `MemRead` and `MemWrite`: the address is not a multiple of `n` and misaligned accesses trap,
or the access touches I/O (R53, R56, R57). -/
def misalignedRaises (p : Params) (a : Word) (n : Nat) : Bool :=
  a.toNat % n != 0 && (p.misaligned == .trap || touchesIo p a n)

/-! ### Memory, one byte at a time -/

/-- The byte at an address. -/
def Memory.readByte : Memory → Nat → Byte
  | [], _ => Memory.unwritten
  | (b, v) :: m, a => if a = b then v else Memory.readByte m a

/-- Drop what is listed for an address. -/
def Memory.erase (m : Memory) (a : Nat) : Memory :=
  m.filter (fun c => c.1 != a)

/-- Put a byte in its place by rising address, into a list that does not name the address. -/
def Memory.insertByte : Memory → Nat → Byte → Memory
  | [], a, v => [(a, v)]
  | (b, w) :: m, a, v => if a < b then (a, v) :: (b, w) :: m else (b, w) :: Memory.insertByte m a v

/-- Write a byte, keeping the canonical form: writing `unwritten` leaves the address unlisted. -/
def Memory.writeByte (m : Memory) (a : Nat) (v : Byte) : Memory :=
  if v = Memory.unwritten then Memory.erase m a else Memory.insertByte (Memory.erase m a) a v

/-- Write bytes in the order given, as the environment does at launch and when it resumes. -/
def Memory.writeBytes (m : Memory) (ws : List (Word × Byte)) : Memory :=
  ws.foldl (fun m w => Memory.writeByte m w.1.toNat w.2) m

/-! ### The set `dirty` and the event history -/

/-- Add an address to a strictly rising list of addresses. -/
def addAddress : List Nat → Nat → List Nat
  | [], a => [a]
  | b :: d, a => if a < b then a :: b :: d else if a = b then b :: d else b :: addAddress d a

/-- Some byte of the access has been stored to since launch (R66). -/
def touchesDirty (s : State) (a : Word) (n : Nat) : Bool :=
  (List.range n).any (fun k => s.dirty.contains (byteAddr a k))

/-- Record an event. -/
def State.note (s : State) (e : Event) : State :=
  { s with history := s.history ++ [e] }

/-! ### Accesses of n bytes -/

/-- Byte `k` of what a load of `n` bytes at `a` returns: of an I/O byte what the device gives, else the byte that
memory holds (R56, R61, R67). -/
def loadedByte (s : State) (a : Word) (n k : Nat) : Byte :=
  if classAt s.params (byteAddr a k) = .io then byteOf (Config.ioRead a n s.history) k
  else Memory.readByte s.mem (byteAddr a k)

/-- A load of main memory changes nothing (R42); one that touches I/O is recorded, so that the next may return another
value (R61, log entry 12). -/
def State.afterLoad (s : State) (a : Word) (n : Nat) : State :=
  if touchesIo s.params a n then s.note (.ioLoad a n) else s

/-- Memory after a store of the low `n` bytes of `v` at `a`: byte `k` holds bits 8k+7..8k; a byte of I/O is not memory
and stays (R49, R57, R61). -/
def storeBytes (p : Params) (m : Memory) (a : Word) (n : Nat) (v : Word) : Memory :=
  (List.range n).foldl
    (fun m k => if classAt p (byteAddr a k) = .io then m else Memory.writeByte m (byteAddr a k) (byteOf v k)) m

/-- `dirty` after a store: every byte of the access joins it (R57). -/
def dirtyAfterStore (d : List Nat) (a : Word) (n : Nat) : List Nat :=
  (List.range n).foldl (fun d k => addAddress d (byteAddr a k)) d

/-- The low `n` bytes of a word, zero-extended. -/
def lowBytes (v : Word) (n : Nat) : Word :=
  (v.setWidth (8 * n)).setWidth 32

/-- The state after a store that passed its checks: memory, `dirty`, and the history where I/O is touched (R57, R61). -/
def State.afterStore (s : State) (a : Word) (n : Nat) (v : Word) : State :=
  let t := { s with mem := storeBytes s.params s.mem a n v, dirty := dirtyAfterStore s.dirty a n }
  if touchesIo s.params a n then t.note (.ioStore a n (lowBytes v n)) else t

/-! ### Taking an exception -/

/-- Registers `x1` to `x31` with values written in the order given; a write of register 0 is discarded (R22). -/
def writeRegs (regs : Vector Word 31) (ws : List (RegIdx × Word)) : Vector Word 31 :=
  ws.foldl (fun x w => if w.1 = 0#5 then x else x.set (w.1.toNat - 1) w.2 (regIndex_lt w.1)) regs

/-- Whether a row of `ee_resume` is for a trap with these arguments. -/
def EnvRule.applies (r : EnvRule) (record : TrapRecord) (regs : Vector Word 31) (mem : Memory) : Bool :=
  r.cause.all (· == record.cause) && r.epc.all (· == record.epc) && r.info.all (· == record.info) &&
    r.regs.all (· == regs) && r.mem.all (· == mem)

/-- `pc'`. -/
def ResumePc.address (pc : ResumePc) (epc : Word) : Word :=
  match pc with
  | .absolute a => a
  | .afterEpc offset => epc + offset

/-- The answer a row's reply makes of the registers and memory of the trap. -/
def EnvReply.answer (reply : EnvReply) (epc : Word) (regs : Vector Word 31) (mem : Memory) : EnvAnswer :=
  match reply with
  | .stop => .stop
  | .resume x0 ws writes pc => .resume x0 (writeRegs regs ws) (Memory.writeBytes mem writes) (ResumePc.address pc epc)

/-- `ee_resume(cause, epc, info, x, memory)` (R244): the answer of the first row that is for the trap, `Stop` where there
is none (R243, log entry 8). -/
def eeResume (p : Params) (record : TrapRecord) (regs : Vector Word 31) (mem : Memory) : EnvAnswer :=
  match p.eeResume.find? (fun r => EnvRule.applies r record regs mem) with
  | none => .stop
  | some r => EnvReply.answer r.reply record.epc regs mem

/-- Go on from the state the environment gives; the trap it answers is recorded (R244, log entry 9). `x'[0]` must be 0 and
`pc'` a multiple of 4, else the model refuses. There is no instruction that returns from a trap (R245): this is the only
way on. -/
def resumeFrom (record : TrapRecord) (x0 : Word) (regs : Vector Word 31) (mem : Memory) (pc : Word) (s : State) : Result :=
  if x0 = 0#32 ∧ notFourAligned pc = false then
    .next { s with
      regs := regs
      pc := pc
      mem := mem
      history := s.history ++ [.trap record] }
  else .refused .illegalResume

/-- `raise cause(info)`: the instruction writes nothing, no register, byte or `pc` (R240, R242); the record
`(cause, epc, info)`, `epc` the address of the raising instruction, goes to the environment (R241), whose function
`ee_resume` is called at each trap with the state before the instruction: it ends the run, the default (R243), or
resumes it (R244). -/
def raise (cause : Cause) (info : Word) (s : State) : Result :=
  match eeResume s.params ⟨cause, s.pc, info⟩ s.regs s.mem with
  | .stop => .fault (.trap ⟨cause, s.pc, info⟩)
  | .resume x0 regs mem pc => resumeFrom ⟨cause, s.pc, info⟩ x0 regs mem pc s

end Sys2Proof.Machine
end

