-- ==== Sys2Proof/Machine/Operands.lean ====
section
/-!
DEFINITION. The operand forms: how an immediate field becomes a 32-bit value (R86 to R92), the effective address of a load
or store (R180), shift amounts (R92, R147), jump and branch targets and the link value (R161, R163, R166).
-/

namespace Sys2Proof.Machine

/-- `imm_I` and `imm_S`: the 12-bit field, sign-extended (R87, R88). -/
def imm12 (imm : BitVec 12) : Word :=
  imm.signExtend 32

/-- `imm_U`: the 20-bit field over twelve zero bits (R90). -/
def immUpper (imm : BitVec 20) : Word :=
  imm ++ 0#12

/-- `imm_B`: the 13-bit offset, sign-extended (R89). -/
def immBranch (offset : BitVec 13) : Word :=
  offset.signExtend 32

/-- `imm_J`: the 21-bit offset, sign-extended (R91). -/
def immJump (offset : BitVec 21) : Word :=
  offset.signExtend 32

/-- The one addressing mode, base register plus displacement, modulo 2^32 (R180). -/
def effectiveAddress (s : State) (rs1 : RegIdx) (imm : BitVec 12) : Word :=
  s.readReg rs1 + imm12 imm

/-- A constant shift amount, 0 to 31 (R92). -/
def shiftImm (shamt : BitVec 5) : Nat :=
  shamt.toNat

/-- A shift amount from a register: its low 5 bits (R147, R151, R152). -/
def shiftReg (v : Word) : Nat :=
  (v.extractLsb' 0 5).toNat

/-- The target of JAL (R161). -/
def jalTarget (s : State) (offset : BitVec 21) : Word :=
  s.pc + immJump offset

/-- The target of JALR: bit 0 of the sum is cleared (R166). -/
def jalrTarget (s : State) (rs1 : RegIdx) (imm : BitVec 12) : Word :=
  (s.readReg rs1 + imm12 imm) &&& 0xFFFFFFFE#32

/-- The target of a taken branch (R163). -/
def branchTarget (s : State) (offset : BitVec 13) : Word :=
  s.pc + immBranch offset

/-- The address of the next instruction in memory, the link value of JAL and JALR (R161, R166). -/
def linkValue (s : State) : Word :=
  s.pc + 4#32

end Sys2Proof.Machine
end

