-- ==== Sys2Proof/Machine/ControlTransfer.lean ====
section
/-!
DEFINITION. JAL, JALR and the six conditional branches (R160, R161, R163, R166, R170 to R175, R178). There are no delay
slots (R164), and no register is treated as a link register (R168).
-/

namespace Sys2Proof.Machine

/-- A jump to `t` that links: a target that is not a multiple of 4 raises on the jump itself, and then neither `rd` nor
`pc` is written (R160, R178). -/
def jumpAndLink (rd : RegIdx) (t : Word) (s : State) : Result :=
  if notFourAligned t then raise .instructionAddressMisaligned t s
  else .next ((s.writeReg rd (linkValue s)).setPc t)

/-- A conditional branch: only a taken one can raise (R160, R163). -/
def branch (taken : Bool) (t : Word) (s : State) : Result :=
  if taken then
    if notFourAligned t then raise .instructionAddressMisaligned t s else .next (s.setPc t)
  else .next s.advance

/-- JAL (R161). -/
def execJal (rd : RegIdx) (offset : BitVec 21) (s : State) : Result :=
  jumpAndLink rd (jalTarget s offset) s

/-- JALR: `x[rs1]` is read before `x[rd]` is written (R28, R166). -/
def execJalr (rd rs1 : RegIdx) (imm : BitVec 12) (s : State) : Result :=
  jumpAndLink rd (jalrTarget s rs1 imm) s

/-- BEQ (R170). -/
def execBeq (rs1 rs2 : RegIdx) (offset : BitVec 13) (s : State) : Result :=
  branch (s.readReg rs1 == s.readReg rs2) (branchTarget s offset) s

/-- BNE (R171). -/
def execBne (rs1 rs2 : RegIdx) (offset : BitVec 13) (s : State) : Result :=
  branch (s.readReg rs1 != s.readReg rs2) (branchTarget s offset) s

/-- BLT: signed (R172). -/
def execBlt (rs1 rs2 : RegIdx) (offset : BitVec 13) (s : State) : Result :=
  branch (lessSigned (s.readReg rs1) (s.readReg rs2)) (branchTarget s offset) s

/-- BGE: signed (R173). -/
def execBge (rs1 rs2 : RegIdx) (offset : BitVec 13) (s : State) : Result :=
  branch (!lessSigned (s.readReg rs1) (s.readReg rs2)) (branchTarget s offset) s

/-- BLTU: unsigned (R174). -/
def execBltu (rs1 rs2 : RegIdx) (offset : BitVec 13) (s : State) : Result :=
  branch (lessUnsigned (s.readReg rs1) (s.readReg rs2)) (branchTarget s offset) s

/-- BGEU: unsigned (R175). -/
def execBgeu (rs1 rs2 : RegIdx) (offset : BitVec 13) (s : State) : Result :=
  branch (!lessUnsigned (s.readReg rs1) (s.readReg rs2)) (branchTarget s offset) s

end Sys2Proof.Machine
end

