-- ==== Sys2Proof/Machine/Load.lean ====
section
/-!
DEFINITION. The five loads (R180 to R186, R191, R192) over one shared operation.
-/

namespace Sys2Proof.Machine

/-- A load of `n` bytes (R56, R181): misalignment is checked first, then access, then the bytes are read and `value` of
them goes to `rd`. With `rd = x0` the access and its exceptions happen all the same (R191). -/
def loadBytes (n : Nat) (value : (Nat → Byte) → Word) (rd rs1 : RegIdx) (imm : BitVec 12) (s : State) : Result :=
  let a := effectiveAddress s rs1 imm
  if misalignedRaises s.params a n then raise .loadAddressMisaligned a s
  else if accessible s.params a n .load = false then raise .loadAccessFault a s
  else .next ((s.afterLoad a n).writeReg rd (value (loadedByte s a n))).advance

/-- LB: one byte, sign-extended (R182). -/
def execLb (rd rs1 : RegIdx) (imm : BitVec 12) (s : State) : Result :=
  loadBytes 1 (fun b => (b 0).signExtend 32) rd rs1 imm s

/-- LH: a halfword, sign-extended (R183). -/
def execLh (rd rs1 : RegIdx) (imm : BitVec 12) (s : State) : Result :=
  loadBytes 2 (fun b => (halfOfBytes (b 0) (b 1)).signExtend 32) rd rs1 imm s

/-- LW: a word (R184). -/
def execLw (rd rs1 : RegIdx) (imm : BitVec 12) (s : State) : Result :=
  loadBytes 4 (fun b => wordOfBytes (b 0) (b 1) (b 2) (b 3)) rd rs1 imm s

/-- LBU: one byte, zero-extended (R185). -/
def execLbu (rd rs1 : RegIdx) (imm : BitVec 12) (s : State) : Result :=
  loadBytes 1 (fun b => (b 0).setWidth 32) rd rs1 imm s

/-- LHU: a halfword, zero-extended (R186). -/
def execLhu (rd rs1 : RegIdx) (imm : BitVec 12) (s : State) : Result :=
  loadBytes 2 (fun b => (halfOfBytes (b 0) (b 1)).setWidth 32) rd rs1 imm s

end Sys2Proof.Machine
end

