-- ==== Sys2Proof/Machine/MemoryOrdering.lean ====
section
/-!
DEFINITION. FENCE (R200 to R206) on one hart with no other agent: no register, no memory, `pc + 4` (R203), and the fence
recorded in program order (R200).
-/

namespace Sys2Proof.Machine

/-- How the hardware takes the `fm` field: FENCE.TSO is `fm = 1000` with `pred = succ = RW`; everything else is a normal
fence (R202, R204). -/
def fenceMode (fm pred succ : BitVec 4) : FenceMode :=
  if fm = 0b1000#4 ∧ pred = 0b0011#4 ∧ succ = 0b0011#4 then .tso else .normal

/-- FENCE. The fields `rs1` and `rd` are ignored (R204); an empty set makes it a HINT with the same effect (R221). -/
def execFence (fm pred succ : BitVec 4) (s : State) : Result :=
  .next (s.note (.fence (fenceMode fm pred succ) pred succ)).advance

end Sys2Proof.Machine
end

