-- ==== Sys2Proof/Machine/UpperImmediate.lean ====
section
/-!
DEFINITION. LUI and AUIPC (R140, R141), and the common shape of the integer computational instructions (R120): a 32-bit
result to `rd`, `pc + 4`, nothing else.
-/

namespace Sys2Proof.Machine

/-- Write the result and go on to the next instruction (R120). No exception, no memory access. -/
def writeResult (rd : RegIdx) (v : Word) (s : State) : Result :=
  .next (s.writeReg rd v).advance

/-- LUI: `x[rd] <- imm_U` (R140). -/
def execLui (rd : RegIdx) (imm : BitVec 20) (s : State) : Result :=
  writeResult rd (immUpper imm) s

/-- AUIPC: `x[rd] <- pc + imm_U`, `pc` the address of the AUIPC itself (R141). -/
def execAuipc (rd : RegIdx) (imm : BitVec 20) (s : State) : Result :=
  writeResult rd (s.pc + immUpper imm) s

end Sys2Proof.Machine
end

