-- ==== Sys2Proof/Machine/RegisterImmediate.lean ====
section
/-!
DEFINITION. The register-immediate instructions and the shifts by a constant (R121 to R126, R130 to R132). NOP is
`ADDI x0, x0, 0` (R127); with `rd = x0` each is a HINT that changes `pc` only (R222).
-/

namespace Sys2Proof.Machine

/-- ADDI: `x[rs1] + imm_I` modulo 2^32 (R121). -/
def execAddi (rd rs1 : RegIdx) (imm : BitVec 12) (s : State) : Result :=
  writeResult rd (s.readReg rs1 + imm12 imm) s

/-- SLTI: signed comparison (R122). -/
def execSlti (rd rs1 : RegIdx) (imm : BitVec 12) (s : State) : Result :=
  writeResult rd (boolWord (lessSigned (s.readReg rs1) (imm12 imm))) s

/-- SLTIU: the immediate is sign-extended first and then compared as unsigned (R123). -/
def execSltiu (rd rs1 : RegIdx) (imm : BitVec 12) (s : State) : Result :=
  writeResult rd (boolWord (lessUnsigned (s.readReg rs1) (imm12 imm))) s

/-- XORI (R124). -/
def execXori (rd rs1 : RegIdx) (imm : BitVec 12) (s : State) : Result :=
  writeResult rd (s.readReg rs1 ^^^ imm12 imm) s

/-- ORI (R125). -/
def execOri (rd rs1 : RegIdx) (imm : BitVec 12) (s : State) : Result :=
  writeResult rd (s.readReg rs1 ||| imm12 imm) s

/-- ANDI (R126). -/
def execAndi (rd rs1 : RegIdx) (imm : BitVec 12) (s : State) : Result :=
  writeResult rd (s.readReg rs1 &&& imm12 imm) s

/-- SLLI: zeros enter at bit 0 (R130). -/
def execSlli (rd rs1 : RegIdx) (shamt : BitVec 5) (s : State) : Result :=
  writeResult rd (s.readReg rs1 <<< shiftImm shamt) s

/-- SRLI: zeros enter at bit 31 (R131). -/
def execSrli (rd rs1 : RegIdx) (shamt : BitVec 5) (s : State) : Result :=
  writeResult rd (s.readReg rs1 >>> shiftImm shamt) s

/-- SRAI: copies of bit 31 enter at bit 31 (R132). -/
def execSrai (rd rs1 : RegIdx) (shamt : BitVec 5) (s : State) : Result :=
  writeResult rd ((s.readReg rs1).sshiftRight (shiftImm shamt)) s

end Sys2Proof.Machine
end

