-- ==== Sys2Proof/Machine/RegisterRegister.lean ====
section
/-!
DEFINITION. The register-register instructions (R145 to R154).
-/

namespace Sys2Proof.Machine

/-- ADD, modulo 2^32 (R145). -/
def execAdd (rd rs1 rs2 : RegIdx) (s : State) : Result :=
  writeResult rd (s.readReg rs1 + s.readReg rs2) s

/-- SUB: `x[rs1] - x[rs2]`, modulo 2^32 (R146). -/
def execSub (rd rs1 rs2 : RegIdx) (s : State) : Result :=
  writeResult rd (s.readReg rs1 - s.readReg rs2) s

/-- SLL: only the low 5 bits of `x[rs2]` count (R147). -/
def execSll (rd rs1 rs2 : RegIdx) (s : State) : Result :=
  writeResult rd (s.readReg rs1 <<< shiftReg (s.readReg rs2)) s

/-- SLT: signed comparison (R148). -/
def execSlt (rd rs1 rs2 : RegIdx) (s : State) : Result :=
  writeResult rd (boolWord (lessSigned (s.readReg rs1) (s.readReg rs2))) s

/-- SLTU: unsigned comparison (R149). -/
def execSltu (rd rs1 rs2 : RegIdx) (s : State) : Result :=
  writeResult rd (boolWord (lessUnsigned (s.readReg rs1) (s.readReg rs2))) s

/-- XOR (R150). -/
def execXor (rd rs1 rs2 : RegIdx) (s : State) : Result :=
  writeResult rd (s.readReg rs1 ^^^ s.readReg rs2) s

/-- SRL (R151). -/
def execSrl (rd rs1 rs2 : RegIdx) (s : State) : Result :=
  writeResult rd (s.readReg rs1 >>> shiftReg (s.readReg rs2)) s

/-- SRA (R152). -/
def execSra (rd rs1 rs2 : RegIdx) (s : State) : Result :=
  writeResult rd ((s.readReg rs1).sshiftRight (shiftReg (s.readReg rs2))) s

/-- OR (R153). -/
def execOr (rd rs1 rs2 : RegIdx) (s : State) : Result :=
  writeResult rd (s.readReg rs1 ||| s.readReg rs2) s

/-- AND (R154). -/
def execAnd (rd rs1 rs2 : RegIdx) (s : State) : Result :=
  writeResult rd (s.readReg rs1 &&& s.readReg rs2) s

end Sys2Proof.Machine
end

