-- ==== Sys2Proof/Machine/Store.lean ====
section
/-!
DEFINITION. The three stores (R180, R187 to R190, R192) over one shared operation.
-/

namespace Sys2Proof.Machine

/-- A store of the low `n` bytes of `x[rs2]` (R57, R187): misalignment is checked first, then access, both before any
byte is written. -/
def storeLow (n : Nat) (rs1 rs2 : RegIdx) (imm : BitVec 12) (s : State) : Result :=
  let a := effectiveAddress s rs1 imm
  if misalignedRaises s.params a n then raise .storeAddressMisaligned a s
  else if accessible s.params a n .store = false then raise .storeAccessFault a s
  else .next (s.afterStore a n (s.readReg rs2)).advance

/-- SB (R188). -/
def execSb (rs1 rs2 : RegIdx) (imm : BitVec 12) (s : State) : Result :=
  storeLow 1 rs1 rs2 imm s

/-- SH (R189). -/
def execSh (rs1 rs2 : RegIdx) (imm : BitVec 12) (s : State) : Result :=
  storeLow 2 rs1 rs2 imm s

/-- SW (R190). -/
def execSw (rs1 rs2 : RegIdx) (imm : BitVec 12) (s : State) : Result :=
  storeLow 4 rs1 rs2 imm s

end Sys2Proof.Machine
end

