-- ==== Sys2Proof/Machine/System.lean ====
section
/-!
DEFINITION. ECALL and EBREAK (R210 to R213): each raises its exception, always, with `info = 0`.
-/

namespace Sys2Proof.Machine

/-- ECALL (R210). -/
def execEcall (s : State) : Result :=
  raise .environmentCall 0#32 s

/-- EBREAK (R211). -/
def execEbreak (s : State) : Result :=
  raise .breakpoint 0#32 s

end Sys2Proof.Machine
end

