-- ==== Sys2Proof/Machine/Fetch.lean ====
section
/-!
DEFINITION. `Fetch` (R58), and the placing of an instruction word where the machine fetches next.
-/

namespace Sys2Proof.Machine

/-- What a fetch answers. -/
inductive Fetched where
  | word (w : Word)
  | raises (cause : Cause) (info : Word)
  | refuses (why : Refusal)
deriving DecidableEq, Repr

/-- The instruction word at `pc`, little-endian (R50). -/
def fetchWord (s : State) : Word :=
  wordOfBytes (Memory.readByte s.mem (byteAddr s.pc 0)) (Memory.readByte s.mem (byteAddr s.pc 1))
    (Memory.readByte s.mem (byteAddr s.pc 2)) (Memory.readByte s.mem (byteAddr s.pc 3))

/-- `Fetch(pc)`, its checks in the order of R252 items 1 to 3. -/
def fetch (s : State) : Fetched :=
  if notFourAligned s.pc then .raises .instructionAddressMisaligned s.pc
  else if accessible s.params s.pc 4 .fetch = false then .raises .instructionAccessFault s.pc
  else if s.params.fetchCoherent = false ∧ touchesDirty s s.pc 4 then .refuses .fetchOfStoredBytes
  else .word (fetchWord s)

/-- A word loaded from outside at `pc`, as part of the program text (R37): its four bytes in memory, no longer counted
as stored to by the hart. -/
def placeWord (s : State) (w : Word) : State :=
  { s with
    mem := (List.range 4).foldl (fun m k => Memory.writeByte m (byteAddr s.pc k) (byteOf w k)) s.mem
    dirty := s.dirty.filter (fun a => !(List.range 4).any (fun k => byteAddr s.pc k == a)) }

end Sys2Proof.Machine
end

