-- ==== Sys2Proof/Machine/Step.lean ====
section
/-!
DEFINITION. One step of the hart: fetch, decode, execute, one instruction at a time in program order (R44, R98, R280).
-/

namespace Sys2Proof.Machine

/-- `step` (R241). The conditions are evaluated in the order of R252: the fetch's own, then the decoder's, then the
instruction's. -/
def step (s : State) : Host.Outcome State Fault Refusal :=
  match fetch s with
  | .raises cause info => raise cause info s
  | .refuses why => .refused why
  | .word w =>
    match decode w with
    | .illegal _ => raise .illegalInstruction w s
    | .instr i => exec i s

/-- The state with the table word `w` of `nbits` bits (the bits from `nbits` on are 0) where the next step fetches: at `pc`.
It stands for a program loaded from outside (log entry 14). -/
def State.withFetchWord (s : State) (nbits w : Nat) : State :=
  placeWord s (BitVec.ofNat 32 (w % 2 ^ nbits))

end Sys2Proof.Machine
end

