-- ==== Sys2Proof/Machine/Launch.lean ====
section
/-!
DEFINITION. The launch procedure (R270, R271): how an environment starts a program.
-/

namespace Sys2Proof.Machine

/-- What the environment supplies: `RESET_PC`, `init_x`, `init_mem` as the bytes it sets, and the parameters, its
answers to traps among them (`Params.eeResume`). -/
structure LaunchArgs where
  resetPc : Word
  initX   : Vector Word 31
  initMem : List (Word × Byte)
  params  : Params
deriving DecidableEq, Repr

/-- `launch` (R271): refused when `RESET_PC` is not a multiple of 4 (R35). -/
def launch (args : LaunchArgs) : Result :=
  if notFourAligned args.resetPc then .refused .misalignedResetPc
  else .next
    { regs := args.initX
      pc := args.resetPc
      mem := Memory.writeBytes [] args.initMem
      dirty := []
      history := []
      params := args.params }

end Sys2Proof.Machine
end

