-- ==== Sys2Proof/Safety.lean ====
section
/-!
DEFINITION. The terms that statements about runs use: the invariant of the machine, when the environment ends the run, when
the next instruction can be fetched, what an instruction may raise, and what it may change.
-/

namespace Sys2Proof.Machine

/-- What holds of every state of a run: `pc` is a multiple of 4 (R26), memory is in canonical form, `dirty` is a strictly
rising list of addresses of the machine (R33). -/
structure State.Inv (s : State) : Prop where
  pcAligned    : notFourAligned s.pc = false
  memWf        : Memory.wf s.mem
  dirtyRising  : s.dirty.Pairwise (· < ·)
  dirtyInRange : ∀ a ∈ s.dirty, a < 2 ^ 32

/-- The environment ends the run at whatever trap this state raises: the default (R243), or its answer (R244). -/
def EnvStops (s : State) : Prop :=
  ∀ record, eeResume s.params record s.regs s.mem = .stop

/-- Whether an event is a trap that the environment resumed. -/
def isResumption : Event → Bool
  | .ioLoad _ _ => false
  | .ioStore _ _ _ => false
  | .fence _ _ _ => false
  | .trap _ => true

/-- How many traps the environment has resumed since launch: the history records each (log entry 9). -/
def State.resumptions (s : State) : Nat :=
  s.history.countP isResumption

/-- The fetch at `pc` gives its word: aligned, accessible, and either coherent or untouched by stores (R58). -/
def Fetchable (s : State) : Prop :=
  notFourAligned s.pc = false ∧ accessible s.params s.pc 4 .fetch = true ∧
    (s.params.fetchCoherent = true ∨ touchesDirty s s.pc 4 = false)

/-- `k` steps, stopping at the first trap that ends the run or refusal (R274). -/
def runSteps (k : Nat) (s : State) : Result :=
  Host.Core.run Sys2Proof.core k s

/-- The next instruction is `i`. -/
def NextIs (s : State) (i : Instr) : Prop :=
  Fetchable s ∧ decode (fetchWord s) = .instr i

/-- Every register reads as before. -/
def SameRegisters (s t : State) : Prop :=
  ∀ r, t.readReg r = s.readReg r

/-- Every byte of memory reads as before. -/
def SameMemory (s t : State) : Prop :=
  ∀ a, Memory.readByte t.mem a = Memory.readByte s.mem a

/-- The parameters are as before, and the environment has resumed no trap in between. -/
abbrev SameEnv (s t : State) : Prop :=
  t.params = s.params ∧ t.resumptions = s.resumptions

/-- `t` is `s` with `v` in `rd`, nothing in `rd` when it is `x0` (R22): every other register, every byte of memory, `dirty`
and the environment as before. `pc` and the history are said apart. -/
def OnlyRegister (s t : State) (rd : RegIdx) (v : Word) : Prop :=
  (∀ r, t.readReg r = if r = 0#5 then 0#32 else if r = rd then v else s.readReg r) ∧
    SameMemory s t ∧ t.dirty = s.dirty ∧ SameEnv s t

/-- `i` runs to its end from `s` with `v` in `rd`, the given history and the given `pc`, and changes nothing else. -/
def WritesRegister (i : Instr) (s : State) (rd : RegIdx) (v : Word) (history : List Event) (pc : Word) : Prop :=
  ∃ t, exec i s = .next t ∧ OnlyRegister s t rd v ∧ t.history = history ∧ t.pc = pc

/-- The effect of an integer computational instruction with result `v` (R120): `v` in `rd`, `pc + 4`, nothing else. -/
def ComputesTo (i : Instr) (s : State) (rd : RegIdx) (v : Word) : Prop :=
  WritesRegister i s rd v s.history (s.pc + 4#32)

/-- `i` jumps to `t` and leaves the link value in `rd`, or raises on itself when `t` is no multiple of 4 (R160, R178). -/
def JumpsTo (i : Instr) (s : State) (rd : RegIdx) (t : Word) : Prop :=
  (t.toNat % 4 = 0 → WritesRegister i s rd (s.pc + 4#32) s.history t) ∧
    (t.toNat % 4 ≠ 0 → exec i s = raise .instructionAddressMisaligned t s)

/-- The common semantics of the branches (R163): taken under `cond` to `t`, raising when `t` is no multiple of 4, else
`pc + 4`; `pc` is all that changes. -/
def BranchesTo (i : Instr) (s : State) (cond : Prop) (t : Word) : Prop :=
  (cond → t.toNat % 4 = 0 → exec i s = .next { s with pc := t }) ∧
    (cond → t.toNat % 4 ≠ 0 → exec i s = raise .instructionAddressMisaligned t s) ∧
    (¬cond → exec i s = .next { s with pc := s.pc + 4#32 })

/-- An access of `n` bytes at `a` passes both checks of `MemRead` or `MemWrite` (R53, R56, R57): it is naturally aligned, or
misaligned accesses are supported and no byte is I/O; and every byte is accessible. -/
def AccessAllowed (s : State) (a : Word) (n : Nat) (kind : AccessKind) : Prop :=
  (a.toNat % n = 0 ∨ (s.params.misaligned = .support ∧ ∀ k < n, classAt s.params (byteAddr a k) ≠ .io)) ∧
    ∀ k < n, perm s.params (byteAddr a k) kind = true

/-- The first check fails: not naturally aligned, and misaligned accesses trap or a byte is I/O (R53). -/
def AccessMisaligned (s : State) (a : Word) (n : Nat) : Prop :=
  a.toNat % n ≠ 0 ∧ (s.params.misaligned = .trap ∨ ∃ k < n, classAt s.params (byteAddr a k) = .io)

/-- The first check passes and the second fails: some byte is not accessible (R55, R252). -/
def AccessForbidden (s : State) (a : Word) (n : Nat) (kind : AccessKind) : Prop :=
  ¬AccessMisaligned s a n ∧ ∃ k < n, perm s.params (byteAddr a k) kind = false

/-- Some byte of the access is I/O. -/
def AccessesIo (s : State) (a : Word) (n : Nat) : Prop :=
  ∃ k < n, classAt s.params (byteAddr a k) = .io

/-- The effect of a load of `n` bytes with result `v` (R181): `v` in `rd`, `pc + 4`, nothing else; only an access that touches
I/O may add to the history. -/
def LoadsTo (i : Instr) (s : State) (rd : RegIdx) (a : Word) (n : Nat) (v : Word) : Prop :=
  ∃ events, (¬AccessesIo s a n → events = []) ∧ WritesRegister i s rd v (s.history ++ events) (s.pc + 4#32)

/-- The effect of a store of the low `n` bytes of `v` at `a` (R57, R61, R187): the bytes of the access that are not I/O hold
the bytes of `v`, lowest first; every byte outside the access, every register and the environment are as before; `dirty` gains
the bytes of the access; the history grows exactly when the access touches I/O; `pc + 4`. -/
def StoresTo (i : Instr) (s : State) (a : Word) (n : Nat) (v : Word) : Prop :=
  ∃ t events, exec i s = .next t ∧
    (∀ k < n, classAt s.params (byteAddr a k) ≠ .io → Memory.readByte t.mem (byteAddr a k) = byteOf v k) ∧
    (∀ b, (∀ k < n, byteAddr a k ≠ b) → Memory.readByte t.mem b = Memory.readByte s.mem b) ∧
    (∀ b, b ∈ t.dirty ↔ b ∈ s.dirty ∨ ∃ k < n, byteAddr a k = b) ∧
    t.history = s.history ++ events ∧ (events ≠ [] ↔ AccessesIo s a n) ∧
    SameRegisters s t ∧ SameEnv s t ∧ t.pc = s.pc + 4#32

/-- A load of `n` bytes at `a` with result `v`, its three ways (R181): misaligned raises first, then a byte not accessible,
and an allowed access loads. -/
def LoadRule (i : Instr) (s : State) (rd : RegIdx) (a : Word) (n : Nat) (v : Word) : Prop :=
  (AccessMisaligned s a n → exec i s = raise .loadAddressMisaligned a s) ∧
    (AccessForbidden s a n .load → exec i s = raise .loadAccessFault a s) ∧
    (AccessAllowed s a n .load → LoadsTo i s rd a n v)

/-- A store of the low `n` bytes of `v` at `a`, its three ways (R187): misaligned raises first, then a byte not accessible, and
an allowed access stores. -/
def StoreRule (i : Instr) (s : State) (a : Word) (n : Nat) (v : Word) : Prop :=
  (AccessMisaligned s a n → exec i s = raise .storeAddressMisaligned a s) ∧
    (AccessForbidden s a n .store → exec i s = raise .storeAccessFault a s) ∧
    (AccessAllowed s a n .store → StoresTo i s a n v)

/-- The word at `pc` is fetched and raises `IllegalInstruction` with itself as `info` (R97). -/
def StepsIllegal (w : Word) : Prop :=
  ∀ s, Fetchable s → fetchWord s = w → step s = raise .illegalInstruction w s

/-- Every word that matches the pattern under the mask is read as the instruction `i` makes of it (R95, R98). -/
def DecodesTo (pattern mask : Word) (i : Word → Instr) : Prop :=
  ∀ w, w &&& mask = pattern → decode w = .instr (i w)

end Sys2Proof.Machine

namespace Sys2Proof

/-- Which exceptions an instruction may raise in its execution (R238, last column). -/
def Instr.causes : Instr → List Cause
  | .lui _ _ => []
  | .auipc _ _ => []
  | .jal _ _ => [.instructionAddressMisaligned]
  | .jalr _ _ _ => [.instructionAddressMisaligned]
  | .beq _ _ _ => [.instructionAddressMisaligned]
  | .bne _ _ _ => [.instructionAddressMisaligned]
  | .blt _ _ _ => [.instructionAddressMisaligned]
  | .bge _ _ _ => [.instructionAddressMisaligned]
  | .bltu _ _ _ => [.instructionAddressMisaligned]
  | .bgeu _ _ _ => [.instructionAddressMisaligned]
  | .lb _ _ _ => [.loadAccessFault]
  | .lh _ _ _ => [.loadAddressMisaligned, .loadAccessFault]
  | .lw _ _ _ => [.loadAddressMisaligned, .loadAccessFault]
  | .lbu _ _ _ => [.loadAccessFault]
  | .lhu _ _ _ => [.loadAddressMisaligned, .loadAccessFault]
  | .sb _ _ _ => [.storeAccessFault]
  | .sh _ _ _ => [.storeAddressMisaligned, .storeAccessFault]
  | .sw _ _ _ => [.storeAddressMisaligned, .storeAccessFault]
  | .addi _ _ _ => []
  | .slti _ _ _ => []
  | .sltiu _ _ _ => []
  | .xori _ _ _ => []
  | .ori _ _ _ => []
  | .andi _ _ _ => []
  | .slli _ _ _ => []
  | .srli _ _ _ => []
  | .srai _ _ _ => []
  | .add _ _ _ => []
  | .sub _ _ _ => []
  | .sll _ _ _ => []
  | .slt _ _ _ => []
  | .sltu _ _ _ => []
  | .xor _ _ _ => []
  | .srl _ _ _ => []
  | .sra _ _ _ => []
  | .or _ _ _ => []
  | .and _ _ _ => []
  | .fence _ _ _ _ _ => []
  | .ecall => [.environmentCall]
  | .ebreak => [.breakpoint]

/-- The register an instruction writes, its `rd` field; branches, stores, FENCE and SYSTEM write none (R34). -/
def Instr.destination : Instr → Option RegIdx
  | .lui rd _ => some rd
  | .auipc rd _ => some rd
  | .jal rd _ => some rd
  | .jalr rd _ _ => some rd
  | .beq _ _ _ => none
  | .bne _ _ _ => none
  | .blt _ _ _ => none
  | .bge _ _ _ => none
  | .bltu _ _ _ => none
  | .bgeu _ _ _ => none
  | .lb rd _ _ => some rd
  | .lh rd _ _ => some rd
  | .lw rd _ _ => some rd
  | .lbu rd _ _ => some rd
  | .lhu rd _ _ => some rd
  | .sb _ _ _ => none
  | .sh _ _ _ => none
  | .sw _ _ _ => none
  | .addi rd _ _ => some rd
  | .slti rd _ _ => some rd
  | .sltiu rd _ _ => some rd
  | .xori rd _ _ => some rd
  | .ori rd _ _ => some rd
  | .andi rd _ _ => some rd
  | .slli rd _ _ => some rd
  | .srli rd _ _ => some rd
  | .srai rd _ _ => some rd
  | .add rd _ _ => some rd
  | .sub rd _ _ => some rd
  | .sll rd _ _ => some rd
  | .slt rd _ _ => some rd
  | .sltu rd _ _ => some rd
  | .xor rd _ _ => some rd
  | .srl rd _ _ => some rd
  | .sra rd _ _ => some rd
  | .or rd _ _ => some rd
  | .and rd _ _ => some rd
  | .fence _ _ _ _ _ => none
  | .ecall => none
  | .ebreak => none

/-- The address and the number of bytes an instruction stores to (R59, R180); none for a form that stores nothing (R44). -/
def Instr.storeAt (s : Machine.State) : Instr → Option (Word × Nat)
  | .lui _ _ => none
  | .auipc _ _ => none
  | .jal _ _ => none
  | .jalr _ _ _ => none
  | .beq _ _ _ => none
  | .bne _ _ _ => none
  | .blt _ _ _ => none
  | .bge _ _ _ => none
  | .bltu _ _ _ => none
  | .bgeu _ _ _ => none
  | .lb _ _ _ => none
  | .lh _ _ _ => none
  | .lw _ _ _ => none
  | .lbu _ _ _ => none
  | .lhu _ _ _ => none
  | .sb rs1 _ imm => some (Machine.effectiveAddress s rs1 imm, 1)
  | .sh rs1 _ imm => some (Machine.effectiveAddress s rs1 imm, 2)
  | .sw rs1 _ imm => some (Machine.effectiveAddress s rs1 imm, 4)
  | .addi _ _ _ => none
  | .slti _ _ _ => none
  | .sltiu _ _ _ => none
  | .xori _ _ _ => none
  | .ori _ _ _ => none
  | .andi _ _ _ => none
  | .slli _ _ _ => none
  | .srli _ _ _ => none
  | .srai _ _ _ => none
  | .add _ _ _ => none
  | .sub _ _ _ => none
  | .sll _ _ _ => none
  | .slt _ _ _ => none
  | .sltu _ _ _ => none
  | .xor _ _ _ => none
  | .srl _ _ _ => none
  | .sra _ _ _ => none
  | .or _ _ _ => none
  | .and _ _ _ => none
  | .fence _ _ _ _ _ => none
  | .ecall => none
  | .ebreak => none

/-- The instructions that may leave the next instruction in memory: JAL, JALR and the branches (R25). -/
def Instr.transfersControl : Instr → Bool
  | .jal _ _ => true
  | .jalr _ _ _ => true
  | .beq _ _ _ => true
  | .bne _ _ _ => true
  | .blt _ _ _ => true
  | .bge _ _ _ => true
  | .bltu _ _ _ => true
  | .bgeu _ _ _ => true
  | .lui _ _ => false
  | .auipc _ _ => false
  | .lb _ _ _ => false
  | .lh _ _ _ => false
  | .lw _ _ _ => false
  | .lbu _ _ _ => false
  | .lhu _ _ _ => false
  | .sb _ _ _ => false
  | .sh _ _ _ => false
  | .sw _ _ _ => false
  | .addi _ _ _ => false
  | .slti _ _ _ => false
  | .sltiu _ _ _ => false
  | .xori _ _ _ => false
  | .ori _ _ _ => false
  | .andi _ _ _ => false
  | .slli _ _ _ => false
  | .srli _ _ _ => false
  | .srai _ _ _ => false
  | .add _ _ _ => false
  | .sub _ _ _ => false
  | .sll _ _ _ => false
  | .slt _ _ _ => false
  | .sltu _ _ _ => false
  | .xor _ _ _ => false
  | .srl _ _ _ => false
  | .sra _ _ _ => false
  | .or _ _ _ => false
  | .and _ _ _ => false
  | .fence _ _ _ _ _ => false
  | .ecall => false
  | .ebreak => false

/-- The instructions whose `rd = x0` forms are the HINTs of R221, FENCE aside. -/
def Instr.computational : Instr → Bool
  | .lui _ _ => true
  | .auipc _ _ => true
  | .addi _ _ _ => true
  | .slti _ _ _ => true
  | .sltiu _ _ _ => true
  | .xori _ _ _ => true
  | .ori _ _ _ => true
  | .andi _ _ _ => true
  | .slli _ _ _ => true
  | .srli _ _ _ => true
  | .srai _ _ _ => true
  | .add _ _ _ => true
  | .sub _ _ _ => true
  | .sll _ _ _ => true
  | .slt _ _ _ => true
  | .sltu _ _ _ => true
  | .xor _ _ _ => true
  | .srl _ _ _ => true
  | .sra _ _ _ => true
  | .or _ _ _ => true
  | .and _ _ _ => true
  | .jal _ _ => false
  | .jalr _ _ _ => false
  | .beq _ _ _ => false
  | .bne _ _ _ => false
  | .blt _ _ _ => false
  | .bge _ _ _ => false
  | .bltu _ _ _ => false
  | .bgeu _ _ _ => false
  | .lb _ _ _ => false
  | .lh _ _ _ => false
  | .lw _ _ _ => false
  | .lbu _ _ _ => false
  | .lhu _ _ _ => false
  | .sb _ _ _ => false
  | .sh _ _ _ => false
  | .sw _ _ _ => false
  | .fence _ _ _ _ _ => false
  | .ecall => false
  | .ebreak => false

end Sys2Proof

namespace Sys2Proof.Machine

/-- Two memories that are the same but for bytes that are neither fetchable nor loadable. -/
def SameVisible (p : Params) (m m' : Memory) : Prop :=
  ∀ a, perm p a .fetch = true ∨ perm p a .load = true → Memory.readByte m a = Memory.readByte m' a

/-- Two states that a hart cannot tell apart: the same but for bytes of memory that are neither fetchable nor loadable. -/
structure Indistinguishable (s t : State) : Prop where
  regs    : s.regs = t.regs
  pc      : s.pc = t.pc
  dirty   : s.dirty = t.dirty
  history : s.history = t.history
  params  : s.params = t.params
  visible : SameVisible s.params s.mem t.mem

/-- Two answers to a trap that a hart cannot tell apart: both stop, or they go on alike but for bytes of memory that are
neither fetchable nor loadable. -/
def SameAnswer (p : Params) : EnvAnswer → EnvAnswer → Prop
  | .stop, .stop => True
  | .resume x0 regs m pc, .resume x0' regs' m' pc' =>
    x0 = x0' ∧ regs = regs' ∧ pc = pc' ∧ SameVisible p m m'
  | .stop, .resume _ _ _ _ => False
  | .resume _ _ _ _, .stop => False

/-- The environment tells a hart nothing of the bytes that the hart can neither fetch nor load: where memory, in its canonical
form, differs in such bytes alone, so do its answers. The default environment is one such, and so is one that reads no other
bytes than those the hart can fetch or load. -/
def EnvHides (p : Params) : Prop :=
  ∀ record regs m m', Memory.wf m → Memory.wf m' → SameVisible p m m' →
    SameAnswer p (eeResume p record regs m) (eeResume p record regs m')

/-- Two outcomes a hart cannot tell apart: indistinguishable next states, or the same fault, or the same refusal. -/
def SameOutcome : Result → Result → Prop
  | .next s, .next t => Indistinguishable s t
  | .fault f, .fault g => f = g
  | .refused r, .refused q => r = q
  | .next _, .fault _ => False
  | .next _, .refused _ => False
  | .fault _, .next _ => False
  | .fault _, .refused _ => False
  | .refused _, .next _ => False
  | .refused _, .fault _ => False

end Sys2Proof.Machine
end

