-- ==== Sys2Proof/Certificates/Slice0/Obligations.lean ====
section
/-!
DEFINITION. The statements for the provers. Addresses, sums and shifts are said in exact integers and narrowed at the end,
memory through the read of one byte.
-/

open Sys2Proof Sys2Proof.Machine

/-! ### Encoding -/

/-- Decoding the encoded form of any well-formed instruction gives it back, every operand at every value (R94, R98). -/
def Obligations.DecodeOfEncodeIsIdentity : Prop :=
  ∀ i : Instr, i.wellFormed = true → decode (encode i) = .instr i

/-- Every word that decodes is the encoding of a well-formed instruction: no bit is dropped (R94, R98). -/
def Obligations.EncodeOfDecodeIsIdentity : Prop :=
  ∀ (w : Word) (i : Instr), decode w = .instr i → i.wellFormed = true ∧ encode i = w

/-- The decoder accepts exactly the words of the 40 rows of R95, each as the instruction its row names, and no word matches
two rows. -/
def Obligations.DecoderAgreesWithOpcodeTable : Prop :=
  opcodeRows.length = 40 ∧
  (∀ (w : Word) (i : Instr), decode w = .instr i → ∃ r ∈ opcodeRows, r.mnemonic = i.mnemonic ∧ r.accepts w) ∧
  (∀ (w : Word), ∀ r ∈ opcodeRows, r.accepts w → ∃ i, decode w = .instr i ∧ i.mnemonic = r.mnemonic) ∧
  (∀ (w : Word), ∀ r ∈ opcodeRows, ∀ q ∈ opcodeRows, r.accepts w → q.accepts w → r = q)

/-- Words written out in the spec, one per format and more, decode to the instructions they stand for: 95_test_vectors.md section
2.1, the examples of R121, R166 and R170. -/
def Obligations.SpecWordsDecode : Prop :=
  decode 0x123452B7#32 = .instr (.lui 5 0x12345) ∧
  decode 0xFFDFF0EF#32 = .instr (.jal 1 (-4)) ∧
  decode 0x003280E7#32 = .instr (.jalr 1 5 3) ∧
  decode 0xFE730CE3#32 = .instr (.beq 6 7 (-8)) ∧
  decode 0x80032283#32 = .instr (.lw 5 6 (-2048)) ∧
  decode 0x7E732FA3#32 = .instr (.sw 6 7 2047) ∧
  decode 0xFFF30293#32 = .instr (.addi 5 6 (-1)) ∧
  decode 0x41F35293#32 = .instr (.srai 5 6 31) ∧
  decode 0x407302B3#32 = .instr (.sub 5 6 7) ∧
  decode 0x8330000F#32 = .instr (.fence 8 3 3 0 0) ∧
  decode 0x00000073#32 = .instr .ecall ∧
  decode 0x00100073#32 = .instr .ebreak

/-- The unrecognised encodings of the eleven major opcodes, hole by hole, all raise IllegalInstruction, and LUI, AUIPC and JAL
have none (R99). -/
def Obligations.HolesOfTheOpcodesAreIllegal : Prop :=
  (∀ w, opcodeField w = 0b0000011#7 → funct3Field w ∈ [0b011#3, 0b110#3, 0b111#3] → StepsIllegal w) ∧
  (∀ w, opcodeField w = 0b0100011#7 → funct3Field w ∈ [0b011#3, 0b100#3, 0b101#3, 0b110#3, 0b111#3] → StepsIllegal w) ∧
  (∀ w, opcodeField w = 0b1100011#7 → funct3Field w ∈ [0b010#3, 0b011#3] → StepsIllegal w) ∧
  (∀ w, opcodeField w = 0b1100111#7 → funct3Field w ≠ 0b000#3 → StepsIllegal w) ∧
  (∀ w, opcodeField w = 0b0010011#7 → funct3Field w = 0b001#3 → funct7Field w ≠ 0b0000000#7 → StepsIllegal w) ∧
  (∀ w, opcodeField w = 0b0010011#7 → funct3Field w = 0b101#3 → funct7Field w ∉ [0b0000000#7, 0b0100000#7] →
    StepsIllegal w) ∧
  (∀ w, opcodeField w = 0b0110011#7 → funct7Field w ∉ [0b0000000#7, 0b0100000#7] → StepsIllegal w) ∧
  (∀ w, opcodeField w = 0b0110011#7 → funct7Field w = 0b0100000#7 → funct3Field w ∉ [0b000#3, 0b101#3] →
    StepsIllegal w) ∧
  (∀ w, opcodeField w = 0b0001111#7 → funct3Field w ≠ 0b000#3 → StepsIllegal w) ∧
  (∀ w, opcodeField w = 0b1110011#7 → w ≠ 0x00000073#32 → w ≠ 0x00100073#32 → StepsIllegal w) ∧
  (∀ w, opcodeField w ∈ [0b0110111#7, 0b0010111#7, 0b1101111#7] → ∃ i, decode w = .instr i)

/-- Any word that matches no row of R95 raises IllegalInstruction with the word as info, the all-zero word, the all-ones word
and every word outside the eleven major opcodes among them (R97, R100). -/
def Obligations.UnmatchedWordsRaiseIllegalInstruction : Prop :=
  (∀ w, (∀ r ∈ opcodeRows, ¬r.accepts w) → StepsIllegal w) ∧
  StepsIllegal 0x00000000#32 ∧ StepsIllegal 0xFFFFFFFF#32 ∧
  (∀ w, opcodeField w ∈ [0b0001011#7, 0b0101011#7, 0b1011011#7, 0b1111011#7] → StepsIllegal w)

/-! ### Fetch and step -/

/-- The instruction word is the four bytes at pc, the lowest address the lowest bits (R50). -/
def Obligations.FetchIsLittleEndian : Prop :=
  ∀ s : State, (fetchWord s).toNat =
    (Memory.readByte s.mem (byteAddr s.pc 0)).toNat + 256 * (Memory.readByte s.mem (byteAddr s.pc 1)).toNat +
      65536 * (Memory.readByte s.mem (byteAddr s.pc 2)).toNat +
      16777216 * (Memory.readByte s.mem (byteAddr s.pc 3)).toNat

/-- When the next instruction is i, the step is exec of i, with nothing around it. -/
def Obligations.StepRunsDecodedInstruction : Prop :=
  ∀ (s : State) (i : Instr), i.wellFormed = true → NextIs s i → step s = exec i s

/-- The checks of the fetch, in their order: misaligned pc, inaccessible byte, stored byte without coherence; else the word
(R58). A step executes the word as the instruction of the row of R95 it matches, with the fields it encodes, and raises
IllegalInstruction when it matches none (R98). -/
def Obligations.FetchChecksInOrder : Prop :=
  ∀ s : State,
    let w := fetchWord s
    (s.pc.toNat % 4 ≠ 0 → step s = raise .instructionAddressMisaligned s.pc s) ∧
    (s.pc.toNat % 4 = 0 → (∃ k < 4, perm s.params (byteAddr s.pc k) .fetch = false) →
      step s = raise .instructionAccessFault s.pc s) ∧
    (s.pc.toNat % 4 = 0 → (∀ k < 4, perm s.params (byteAddr s.pc k) .fetch = true) → s.params.fetchCoherent = false →
      (∃ k < 4, byteAddr s.pc k ∈ s.dirty) → step s = .refused .fetchOfStoredBytes) ∧
    (s.pc.toNat % 4 = 0 → (∀ k < 4, perm s.params (byteAddr s.pc k) .fetch = true) →
      (s.params.fetchCoherent = true ∨ ∀ k < 4, byteAddr s.pc k ∉ s.dirty) →
      fetch s = .word w ∧
      (∀ r ∈ opcodeRows, r.accepts w →
        ∃ i : Instr, i.mnemonic = r.mnemonic ∧ i.wellFormed = true ∧ encode i = w ∧ step s = exec i s) ∧
      ((∀ r ∈ opcodeRows, ¬r.accepts w) → step s = raise .illegalInstruction w s))

/-- A word placed where the machine fetches is the word the next step runs, and placing it changes memory and dirty alone
(the model's way to load a program, log entry 14). -/
def Obligations.PlacedWordIsRunNext : Prop :=
  ∀ (s : State) (w : Word) (i : Instr), s.pc.toNat % 4 = 0 → (∀ k < 4, perm s.params (byteAddr s.pc k) .fetch = true) →
    decode w = .instr i →
    let t := s.withFetchWord 32 w.toNat
    step t = exec i t ∧ SameRegisters s t ∧ t.pc = s.pc ∧ t.history = s.history ∧ SameEnv s t ∧
      ∀ b, (∀ k < 4, byteAddr s.pc k ≠ b) → Memory.readByte t.mem b = Memory.readByte s.mem b

/-- The model refuses in two situations only: a fetch of stored bytes without coherence, and a trap raised by the step to which
the environment answers with x0 not 0 or a misaligned pc (R241, R244). -/
def Obligations.StepRefusesOnlyAsSpecified : Prop :=
  ∀ (s : State) (r : Refusal), step s = .refused r →
    (r = .fetchOfStoredBytes ∧ s.params.fetchCoherent = false ∧ ∃ k < 4, byteAddr s.pc k ∈ s.dirty) ∨
    (r = .illegalResume ∧ ∃ c info x0 regs mem pc, step s = raise c info s ∧
      eeResume s.params ⟨c, s.pc, info⟩ s.regs s.mem = .resume x0 regs mem pc ∧ (x0 ≠ 0#32 ∨ pc.toNat % 4 ≠ 0))

/-! ### Traps -/

/-- Every fault of a step is a trap whose epc is the address of the raising instruction, and it was the answer of the
environment to that trap that stopped the run; so an environment that resumes never sees the run end (R241, R243). -/
def Obligations.FaultsAreTrapsOfTheCurrentInstruction : Prop :=
  ∀ (s : State) (f : Fault), step s = .fault f → ∃ c info, f = .trap ⟨c, s.pc, info⟩ ∧
    eeResume s.params ⟨c, s.pc, info⟩ s.regs s.mem = .stop

/-- By default, with an environment that answers no trap, a raised exception ends the run with its record, and so it does
whenever the answer is to stop (R243). -/
def Obligations.RaiseEndsTheRunByDefault : Prop :=
  ∀ (c : Cause) (info : Word) (s : State),
    (s.params.eeResume = [] → raise c info s = .fault (.trap ⟨c, s.pc, info⟩)) ∧
    (eeResume s.params ⟨c, s.pc, info⟩ s.regs s.mem = .stop → raise c info s = .fault (.trap ⟨c, s.pc, info⟩))

/-- A trap whose answer is to resume goes on from the registers, memory and pc that ee_resume gives for this cause, epc and info
and the registers and memory at the trap; a state with x0 not 0 or pc not a multiple of 4 is refused (R244). The model's choice
is that the trap is recorded, and that dirty and the parameters stay (log entry 9). -/
def Obligations.ResumeContinuesFromTheGivenState : Prop :=
  ∀ (c : Cause) (info x0 pc : Word) (regs : Vector Word 31) (mem : Memory) (s : State),
    eeResume s.params ⟨c, s.pc, info⟩ s.regs s.mem = .resume x0 regs mem pc →
    (x0 = 0#32 → pc.toNat % 4 = 0 → ∃ t, raise c info s = .next t ∧
      (∀ r : RegIdx, r ≠ 0#5 → t.readReg r = regs[r.toNat - 1]'(regIndex_lt r)) ∧ t.readReg 0#5 = 0#32 ∧ t.pc = pc ∧
      t.mem = mem ∧ t.history = s.history ++ [.trap ⟨c, s.pc, info⟩] ∧ t.dirty = s.dirty ∧ t.params = s.params) ∧
    (x0 ≠ 0#32 ∨ pc.toNat % 4 ≠ 0 → raise c info s = .refused .illegalResume)

/-- How a row of the model's table answers (its choice, log entry 8): a row for a trap's arguments that stands first decides; its
reply gives x0 and pc, the registers and memory of the trap with the changes it lists, the last change of a place counting, and a
change of x0 in the list counting for nothing. -/
def Obligations.FirstRowForTheTrapDecides : Prop :=
  ∀ (p : Params) (before after : List EnvRule) (r : EnvRule) (record : TrapRecord) (regs : Vector Word 31) (m : Memory),
    p.eeResume = before ++ r :: after →
    (∀ q ∈ before, EnvRule.applies q record regs m = false) →
    (r.cause = none ∨ r.cause = some record.cause) → (r.epc = none ∨ r.epc = some record.epc) →
    (r.info = none ∨ r.info = some record.info) → (r.regs = none ∨ r.regs = some regs) → (r.mem = none ∨ r.mem = some m) →
    (r.reply = .stop → eeResume p record regs m = .stop) ∧
    ∀ x0 ws bs pc, r.reply = .resume x0 ws bs pc → ∃ regs' m' a,
      eeResume p record regs m = .resume x0 regs' m' a ∧
      (∀ d, pc = .absolute d → a = d) ∧ (∀ d, pc = .afterEpc d → a = record.epc + d) ∧
      (∀ i (h : i < 31), (∀ w ∈ ws, w.1.toNat ≠ i + 1) → regs'[i] = regs[i]) ∧
      (∀ i (h : i < 31) l n v q, ws = l ++ (n, v) :: q → n.toNat = i + 1 → (∀ w ∈ q, w.1 ≠ n) → regs'[i] = v) ∧
      (∀ b, (∀ w ∈ bs, w.1.toNat ≠ b) → Memory.readByte m' b = Memory.readByte m b) ∧
      ∀ l n v q, bs = l ++ (n, v) :: q → (∀ w ∈ q, w.1 ≠ n) → Memory.readByte m' n.toNat = v

/-- Every function of cause, epc, info, registers and memory to Stop or Resume may be supplied to the model (R244): some table
makes every trap of every run stop, go on or be refused as the function says. The table is the model's form for it, and the record
and what stays are its choice (log entries 8 and 9). -/
def Obligations.EveryEnvironmentFunctionCanBeSupplied : Prop :=
  ∀ f : TrapRecord → Vector Word 31 → Memory → EnvAnswer,
    (∀ record regs m x0 regs' m' pc, Memory.wf m → f record regs m = .resume x0 regs' m' pc → Memory.wf m') →
    ∃ table : List EnvRule, ∀ (c : Cause) (info : Word) (s : State), s.params.eeResume = table → Memory.wf s.mem →
      (f ⟨c, s.pc, info⟩ s.regs s.mem = .stop → raise c info s = .fault (.trap ⟨c, s.pc, info⟩)) ∧
      ∀ x0 regs m pc, f ⟨c, s.pc, info⟩ s.regs s.mem = .resume x0 regs m pc →
        (x0 = 0#32 → pc.toNat % 4 = 0 → raise c info s = .next { s with
          regs := regs, pc := pc, mem := m, history := s.history ++ [.trap ⟨c, s.pc, info⟩] }) ∧
        (x0 ≠ 0#32 ∨ pc.toNat % 4 ≠ 0 → raise c info s = .refused .illegalResume)

/-- The environment is called at each trap, however many there are (R244): with one that never answers to stop no run, of any
length, ends in a fault; and with coherent fetches and answers that give x0 = 0 and a pc that is a multiple of 4 whenever epc is
one, a run goes on for ever. Memory is in its canonical form, at the start and where the environment is asked. -/
def Obligations.ResumingEnvironmentNeverEndsTheRun : Prop :=
  ∀ (s : State) (k : Nat), Memory.wf s.mem →
    ((∀ record regs m, Memory.wf m → eeResume s.params record regs m ≠ .stop) → ∀ f, runSteps k s ≠ .fault f) ∧
    (s.pc.toNat % 4 = 0 → s.params.fetchCoherent = true →
      (∀ record regs m, Memory.wf m → record.epc.toNat % 4 = 0 →
        ∃ regs' m' pc, eeResume s.params record regs m = .resume 0#32 regs' m' pc ∧ pc.toNat % 4 = 0) →
      ∃ t, runSteps k s = .next t)

/-- An instruction completes without consulting the environment, or raises one of the exceptions the spec lists for it, and
nothing else (R238). -/
def Obligations.InstructionCompletesOrRaisesItsCauses : Prop :=
  ∀ (i : Instr) (s : State),
    (∃ t, exec i s = .next t ∧ SameEnv s t) ∨ ∃ c ∈ i.causes, ∃ info, exec i s = raise c info s

/-! ### Integer computational instructions -/

/-- Every integer computational instruction completes in every state: a result to rd, pc + 4, nothing else, no exception
(R120). -/
def Obligations.ComputationalInstructionsAlwaysComplete : Prop :=
  ∀ (i : Instr) (s : State), i.computational = true → ∃ rd v, i.destination = some rd ∧ ComputesTo i s rd v

/-- ADDI, SLTI, SLTIU: sum modulo 2^32, signed and unsigned comparison with the sign-extended immediate (R121 to R123). -/
def Obligations.AddAndCompareImmediate : Prop :=
  DecodesTo 0x00000013#32 0x0000707F#32 (fun w => .addi (rdField w) (rs1Field w) (immIField w)) ∧
  DecodesTo 0x00002013#32 0x0000707F#32 (fun w => .slti (rdField w) (rs1Field w) (immIField w)) ∧
  DecodesTo 0x00003013#32 0x0000707F#32 (fun w => .sltiu (rdField w) (rs1Field w) (immIField w)) ∧
  ∀ (s : State) (rd rs1 : RegIdx) (imm : BitVec 12),
    ComputesTo (.addi rd rs1 imm) s rd (BitVec.ofInt 32 ((s.readReg rs1).toNat + imm.toInt)) ∧
    ComputesTo (.slti rd rs1 imm) s rd (if (s.readReg rs1).toInt < imm.toInt then 1#32 else 0#32) ∧
    ComputesTo (.sltiu rd rs1 imm) s rd
      (if (s.readReg rs1).toNat < (BitVec.ofInt 32 imm.toInt).toNat then 1#32 else 0#32)

/-- XORI, ORI, ANDI: bit by bit with the immediate, whose sign bit fills bits 31 to 12 (R124 to R126). -/
def Obligations.LogicImmediate : Prop :=
  DecodesTo 0x00004013#32 0x0000707F#32 (fun w => .xori (rdField w) (rs1Field w) (immIField w)) ∧
  DecodesTo 0x00006013#32 0x0000707F#32 (fun w => .ori (rdField w) (rs1Field w) (immIField w)) ∧
  DecodesTo 0x00007013#32 0x0000707F#32 (fun w => .andi (rdField w) (rs1Field w) (immIField w)) ∧
  ∀ (s : State) (rd rs1 : RegIdx) (imm : BitVec 12),
    ComputesTo (.xori rd rs1 imm) s rd (s.readReg rs1 ^^^ BitVec.ofInt 32 imm.toInt) ∧
    ComputesTo (.ori rd rs1 imm) s rd (s.readReg rs1 ||| BitVec.ofInt 32 imm.toInt) ∧
    ComputesTo (.andi rd rs1 imm) s rd (s.readReg rs1 &&& BitVec.ofInt 32 imm.toInt)

/-- SLLI, SRLI, SRAI: multiplication and floor division by a power of two, unsigned and signed (R130 to R132). -/
def Obligations.ConstantShifts : Prop :=
  DecodesTo 0x00001013#32 0xFE00707F#32 (fun w => .slli (rdField w) (rs1Field w) (shamtField w)) ∧
  DecodesTo 0x00005013#32 0xFE00707F#32 (fun w => .srli (rdField w) (rs1Field w) (shamtField w)) ∧
  DecodesTo 0x40005013#32 0xFE00707F#32 (fun w => .srai (rdField w) (rs1Field w) (shamtField w)) ∧
  ∀ (s : State) (rd rs1 : RegIdx) (shamt : BitVec 5),
    ComputesTo (.slli rd rs1 shamt) s rd (BitVec.ofNat 32 ((s.readReg rs1).toNat * 2 ^ shamt.toNat)) ∧
    ComputesTo (.srli rd rs1 shamt) s rd (BitVec.ofNat 32 ((s.readReg rs1).toNat / 2 ^ shamt.toNat)) ∧
    ComputesTo (.srai rd rs1 shamt) s rd (BitVec.ofInt 32 ((s.readReg rs1).toInt / 2 ^ shamt.toNat))

/-- LUI and AUIPC: the 20-bit field times 4096, alone or added to the address of the instruction (R140, R141). -/
def Obligations.UpperImmediates : Prop :=
  DecodesTo 0x00000037#32 0x0000007F#32 (fun w => .lui (rdField w) (immUField w)) ∧
  DecodesTo 0x00000017#32 0x0000007F#32 (fun w => .auipc (rdField w) (immUField w)) ∧
  ∀ (s : State) (rd : RegIdx) (imm : BitVec 20),
    ComputesTo (.lui rd imm) s rd (BitVec.ofNat 32 (imm.toNat * 4096)) ∧
    ComputesTo (.auipc rd imm) s rd (BitVec.ofNat 32 (s.pc.toNat + imm.toNat * 4096))

/-- ADD and SUB modulo 2^32, the same bits for the signed and the unsigned reading (R145, R146). -/
def Obligations.AddAndSubtract : Prop :=
  DecodesTo 0x00000033#32 0xFE00707F#32 (fun w => .add (rdField w) (rs1Field w) (rs2Field w)) ∧
  DecodesTo 0x40000033#32 0xFE00707F#32 (fun w => .sub (rdField w) (rs1Field w) (rs2Field w)) ∧
  ∀ (s : State) (rd rs1 rs2 : RegIdx),
    ComputesTo (.add rd rs1 rs2) s rd (BitVec.ofNat 32 ((s.readReg rs1).toNat + (s.readReg rs2).toNat)) ∧
    ComputesTo (.add rd rs1 rs2) s rd (BitVec.ofInt 32 ((s.readReg rs1).toInt + (s.readReg rs2).toInt)) ∧
    ComputesTo (.sub rd rs1 rs2) s rd (BitVec.ofInt 32 ((s.readReg rs1).toNat - (s.readReg rs2).toNat)) ∧
    ComputesTo (.sub rd rs1 rs2) s rd (BitVec.ofInt 32 ((s.readReg rs1).toInt - (s.readReg rs2).toInt))

/-- XOR, OR, AND, bit by bit (R150, R153, R154). -/
def Obligations.LogicOfRegisters : Prop :=
  DecodesTo 0x00004033#32 0xFE00707F#32 (fun w => .xor (rdField w) (rs1Field w) (rs2Field w)) ∧
  DecodesTo 0x00006033#32 0xFE00707F#32 (fun w => .or (rdField w) (rs1Field w) (rs2Field w)) ∧
  DecodesTo 0x00007033#32 0xFE00707F#32 (fun w => .and (rdField w) (rs1Field w) (rs2Field w)) ∧
  ∀ (s : State) (rd rs1 rs2 : RegIdx),
    ComputesTo (.xor rd rs1 rs2) s rd (s.readReg rs1 ^^^ s.readReg rs2) ∧
    ComputesTo (.or rd rs1 rs2) s rd (s.readReg rs1 ||| s.readReg rs2) ∧
    ComputesTo (.and rd rs1 rs2) s rd (s.readReg rs1 &&& s.readReg rs2)

/-- SLT and SLTU compare as signed and as unsigned integers (R148, R149). -/
def Obligations.CompareRegisters : Prop :=
  DecodesTo 0x00002033#32 0xFE00707F#32 (fun w => .slt (rdField w) (rs1Field w) (rs2Field w)) ∧
  DecodesTo 0x00003033#32 0xFE00707F#32 (fun w => .sltu (rdField w) (rs1Field w) (rs2Field w)) ∧
  ∀ (s : State) (rd rs1 rs2 : RegIdx),
    ComputesTo (.slt rd rs1 rs2) s rd (if (s.readReg rs1).toInt < (s.readReg rs2).toInt then 1#32 else 0#32) ∧
    ComputesTo (.sltu rd rs1 rs2) s rd (if (s.readReg rs1).toNat < (s.readReg rs2).toNat then 1#32 else 0#32)

/-- SLL, SRL, SRA: the amount is the register's value modulo 32 (R147, R151, R152). -/
def Obligations.RegisterShifts : Prop :=
  DecodesTo 0x00001033#32 0xFE00707F#32 (fun w => .sll (rdField w) (rs1Field w) (rs2Field w)) ∧
  DecodesTo 0x00005033#32 0xFE00707F#32 (fun w => .srl (rdField w) (rs1Field w) (rs2Field w)) ∧
  DecodesTo 0x40005033#32 0xFE00707F#32 (fun w => .sra (rdField w) (rs1Field w) (rs2Field w)) ∧
  ∀ (s : State) (rd rs1 rs2 : RegIdx),
    ComputesTo (.sll rd rs1 rs2) s rd
      (BitVec.ofNat 32 ((s.readReg rs1).toNat * 2 ^ ((s.readReg rs2).toNat % 32))) ∧
    ComputesTo (.srl rd rs1 rs2) s rd
      (BitVec.ofNat 32 ((s.readReg rs1).toNat / 2 ^ ((s.readReg rs2).toNat % 32))) ∧
    ComputesTo (.sra rd rs1 rs2) s rd
      (BitVec.ofInt 32 ((s.readReg rs1).toInt / 2 ^ ((s.readReg rs2).toNat % 32)))

/-- A computational instruction with rd = x0, a HINT, changes pc alone (R220, R222); so does a FENCE with an empty set but for one
event, the record of the fence (R200, R203; that one event is recorded is the model's reading, log entry 11). -/
def Obligations.HintsChangeOnlyThePc : Prop :=
  (∀ (i : Instr) (s : State), i.computational = true → i.destination = some 0#5 →
    exec i s = .next { s with pc := s.pc + 4#32 }) ∧
  (∀ (fm pred succ : BitVec 4) (rs1 rd : RegIdx) (s : State), pred = 0#4 ∨ succ = 0#4 →
    ∃ e, exec (.fence fm pred succ rs1 rd) s = .next { s with pc := s.pc + 4#32, history := s.history ++ [e] })

/-! ### Control transfer -/

/-- JAL: target pc + offset modulo 2^32, link value pc + 4, or the exception on the JAL (R161). -/
def Obligations.JalLinksAndJumps : Prop :=
  DecodesTo 0x0000006F#32 0x0000007F#32 (fun w => .jal (rdField w) (immJField w)) ∧
  ∀ (s : State) (rd : RegIdx) (offset : BitVec 21),
    JumpsTo (.jal rd offset) s rd (BitVec.ofInt 32 (s.pc.toNat + offset.toInt))

/-- JALR: target x[rs1] + imm modulo 2^32 with bit 0 cleared, the register read before rd is written (R166). -/
def Obligations.JalrLinksAndJumps : Prop :=
  DecodesTo 0x00000067#32 0x0000707F#32 (fun w => .jalr (rdField w) (rs1Field w) (immIField w)) ∧
  ∀ (s : State) (rd rs1 : RegIdx) (imm : BitVec 12),
    JumpsTo (.jalr rd rs1 imm) s rd (BitVec.ofInt 32 (((s.readReg rs1).toNat + imm.toInt) / 2 * 2))

/-- BEQ and BNE (R170, R171, with the common semantics of R163). -/
def Obligations.EqualityBranches : Prop :=
  DecodesTo 0x00000063#32 0x0000707F#32 (fun w => .beq (rs1Field w) (rs2Field w) (immBField w)) ∧
  DecodesTo 0x00001063#32 0x0000707F#32 (fun w => .bne (rs1Field w) (rs2Field w) (immBField w)) ∧
  ∀ (s : State) (rs1 rs2 : RegIdx) (offset : BitVec 13),
    BranchesTo (.beq rs1 rs2 offset) s (s.readReg rs1 = s.readReg rs2) (BitVec.ofInt 32 (s.pc.toNat + offset.toInt)) ∧
    BranchesTo (.bne rs1 rs2 offset) s (s.readReg rs1 ≠ s.readReg rs2) (BitVec.ofInt 32 (s.pc.toNat + offset.toInt))

/-- BLT, BGE compare as signed, BLTU, BGEU as unsigned integers (R172 to R175, with the common semantics of R163). -/
def Obligations.OrderBranches : Prop :=
  DecodesTo 0x00004063#32 0x0000707F#32 (fun w => .blt (rs1Field w) (rs2Field w) (immBField w)) ∧
  DecodesTo 0x00005063#32 0x0000707F#32 (fun w => .bge (rs1Field w) (rs2Field w) (immBField w)) ∧
  DecodesTo 0x00006063#32 0x0000707F#32 (fun w => .bltu (rs1Field w) (rs2Field w) (immBField w)) ∧
  DecodesTo 0x00007063#32 0x0000707F#32 (fun w => .bgeu (rs1Field w) (rs2Field w) (immBField w)) ∧
  ∀ (s : State) (rs1 rs2 : RegIdx) (offset : BitVec 13),
    let t := BitVec.ofInt 32 (s.pc.toNat + offset.toInt)
    BranchesTo (.blt rs1 rs2 offset) s ((s.readReg rs1).toInt < (s.readReg rs2).toInt) t ∧
    BranchesTo (.bge rs1 rs2 offset) s ((s.readReg rs2).toInt ≤ (s.readReg rs1).toInt) t ∧
    BranchesTo (.bltu rs1 rs2 offset) s ((s.readReg rs1).toNat < (s.readReg rs2).toNat) t ∧
    BranchesTo (.bgeu rs1 rs2 offset) s ((s.readReg rs2).toNat ≤ (s.readReg rs1).toNat) t

/-- A misaligned target is reported on the jump or taken branch, with its own address as epc and the target as info, and never
on a branch that is not taken, whatever its offset (R160). -/
def Obligations.MisalignedTargetIsReportedOnTheJump : Prop :=
  ∀ s : State, EnvStops s →
    (∀ rd offset, (jalTarget s offset).toNat % 4 ≠ 0 →
      exec (.jal rd offset) s = .fault (.trap ⟨.instructionAddressMisaligned, s.pc, jalTarget s offset⟩)) ∧
    (∀ rd rs1 imm, (jalrTarget s rs1 imm).toNat % 4 ≠ 0 →
      exec (.jalr rd rs1 imm) s = .fault (.trap ⟨.instructionAddressMisaligned, s.pc, jalrTarget s rs1 imm⟩)) ∧
    (∀ rs1 rs2 offset, (branchTarget s offset).toNat % 4 ≠ 0 →
      let f := Fault.trap ⟨.instructionAddressMisaligned, s.pc, branchTarget s offset⟩
      let u : State := { s with pc := s.pc + 4#32 }
      exec (.beq rs1 rs2 offset) s = (if s.readReg rs1 = s.readReg rs2 then .fault f else .next u) ∧
      exec (.bne rs1 rs2 offset) s = (if s.readReg rs1 = s.readReg rs2 then .next u else .fault f) ∧
      exec (.blt rs1 rs2 offset) s = (if (s.readReg rs1).toInt < (s.readReg rs2).toInt then .fault f else .next u) ∧
      exec (.bge rs1 rs2 offset) s = (if (s.readReg rs1).toInt < (s.readReg rs2).toInt then .next u else .fault f) ∧
      exec (.bltu rs1 rs2 offset) s = (if (s.readReg rs1).toNat < (s.readReg rs2).toNat then .fault f else .next u) ∧
      exec (.bgeu rs1 rs2 offset) s = (if (s.readReg rs1).toNat < (s.readReg rs2).toNat then .next u else .fault f))

/-- JAL x0, 0, an endless loop: the state repeats for ever (R274). -/
def Obligations.JumpToItselfRepeatsForEver : Prop :=
  ∀ (s : State) (k : Nat), NextIs s (.jal 0#5 0#21) → runSteps k s = .next s

/-! ### Loads -/

/-- The effective address is base plus sign-extended displacement modulo 2^32 (R180). -/
def Obligations.EffectiveAddressIsBasePlusDisplacement : Prop :=
  ∀ (s : State) (rs1 : RegIdx) (imm : BitVec 12),
    ((effectiveAddress s rs1 imm).toNat : Int) = ((s.readReg rs1).toNat + imm.toInt) % 2 ^ 32

/-- LB, LH, LW, LBU, LHU: when the access is allowed they complete and put the little-endian value of its bytes, sign- or
zero-extended, in rd; else they raise for misalignment, which a byte load never is, or for access (R182 to R186). -/
def Obligations.LoadsReadAndExtendOrTrap : Prop :=
  DecodesTo 0x00000003#32 0x0000707F#32 (fun w => .lb (rdField w) (rs1Field w) (immIField w)) ∧
  DecodesTo 0x00001003#32 0x0000707F#32 (fun w => .lh (rdField w) (rs1Field w) (immIField w)) ∧
  DecodesTo 0x00002003#32 0x0000707F#32 (fun w => .lw (rdField w) (rs1Field w) (immIField w)) ∧
  DecodesTo 0x00004003#32 0x0000707F#32 (fun w => .lbu (rdField w) (rs1Field w) (immIField w)) ∧
  DecodesTo 0x00005003#32 0x0000707F#32 (fun w => .lhu (rdField w) (rs1Field w) (immIField w)) ∧
  ∀ (s : State) (rd rs1 : RegIdx) (imm : BitVec 12),
    let a := effectiveAddress s rs1 imm
    LoadRule (.lb rd rs1 imm) s rd a 1 (BitVec.ofInt 32 (loadedByte s a 1 0).toInt) ∧
    LoadRule (.lbu rd rs1 imm) s rd a 1 (BitVec.ofNat 32 (loadedByte s a 1 0).toNat) ∧
    LoadRule (.lh rd rs1 imm) s rd a 2
      (BitVec.ofInt 32 ((loadedByte s a 2 1).toInt * 256 + (loadedByte s a 2 0).toNat)) ∧
    LoadRule (.lhu rd rs1 imm) s rd a 2
      (BitVec.ofNat 32 ((loadedByte s a 2 1).toNat * 256 + (loadedByte s a 2 0).toNat)) ∧
    LoadRule (.lw rd rs1 imm) s rd a 4
      (BitVec.ofNat 32 ((loadedByte s a 4 3).toNat * 16777216 + (loadedByte s a 4 2).toNat * 65536 +
        (loadedByte s a 4 1).toNat * 256 + (loadedByte s a 4 0).toNat))

/-- What a load returns byte by byte: the byte memory holds, and for I/O a byte of the device's answer, whatever it is (R56,
R61). -/
def Obligations.LoadedBytesComeFromMemoryOrTheDevice : Prop :=
  ∀ (s : State) (a : Word) (n k : Nat),
    (classAt s.params ((a.toNat + k) % 2 ^ 32) ≠ .io →
      loadedByte s a n k = Memory.readByte s.mem ((a.toNat + k) % 2 ^ 32)) ∧
    (classAt s.params ((a.toNat + k) % 2 ^ 32) = .io →
      (loadedByte s a n k).toNat = (Config.ioRead a n s.history).toNat / 2 ^ (8 * k) % 256)

/-! ### Stores -/

/-- SB, SH, SW: when the access is allowed they complete, the low bytes of x[rs2] to the bytes of the access, lowest first, and
nothing else but dirty, pc and the history of an I/O store; else they raise for misalignment, which a byte store never is, or
for access (R188 to R190). -/
def Obligations.StoresWriteLowBytesOrTrap : Prop :=
  DecodesTo 0x00000023#32 0x0000707F#32 (fun w => .sb (rs1Field w) (rs2Field w) (immSField w)) ∧
  DecodesTo 0x00001023#32 0x0000707F#32 (fun w => .sh (rs1Field w) (rs2Field w) (immSField w)) ∧
  DecodesTo 0x00002023#32 0x0000707F#32 (fun w => .sw (rs1Field w) (rs2Field w) (immSField w)) ∧
  ∀ (s : State) (rs1 rs2 : RegIdx) (imm : BitVec 12),
    let a := effectiveAddress s rs1 imm
    StoreRule (.sb rs1 rs2 imm) s a 1 (s.readReg rs2) ∧
    StoreRule (.sh rs1 rs2 imm) s a 2 (s.readReg rs2) ∧
    StoreRule (.sw rs1 rs2 imm) s a 4 (s.readReg rs2)

/-- How the model records an access that touches I/O (its choice, log entries 12, 13 and 15): a load by its address and size, a
store with its low bytes besides, and the bytes of memory at the I/O addresses stay. -/
def Obligations.IoAccessesAreRecorded : Prop :=
  ∀ (s t : State) (rd rs1 rs2 : RegIdx) (imm : BitVec 12) (n : Nat) (i : Instr),
    let a := effectiveAddress s rs1 imm
    exec i s = .next t → SameEnv s t → AccessesIo s a n →
    ((n, i) ∈ [(1, .lb rd rs1 imm), (1, .lbu rd rs1 imm), (2, .lh rd rs1 imm), (2, .lhu rd rs1 imm), (4, .lw rd rs1 imm)] →
      t.history = s.history ++ [.ioLoad a n]) ∧
    ((n, i) ∈ [(1, .sb rs1 rs2 imm), (2, .sh rs1 rs2 imm), (4, .sw rs1 rs2 imm)] →
      t.history = s.history ++ [.ioStore a n (lowBytes (s.readReg rs2) n)] ∧
        ∀ b, classAt s.params b = .io → Memory.readByte t.mem b = Memory.readByte s.mem b)

/-- Misaligned data accesses, by the environment's parameter: with trap, or when a byte is I/O, LH, LHU, SH at an odd address and
LW, SW at an address that is no multiple of 4 raise; with support and no I/O byte each of the five completes when every byte is
accessible and raises the access fault when one is not; LB, LBU, SB complete or raise the access fault, whatever the parameter
(R53, R61, R192). -/
def Obligations.MisalignedAccessesFollowTheParameter : Prop :=
  ∀ (s : State) (rd rs1 rs2 : RegIdx) (imm : BitVec 12),
    let a := effectiveAddress s rs1 imm
    let runs (i : Instr) : Prop := ∃ t, exec i s = .next t ∧ SameEnv s t
    (a.toNat % 2 = 1 → s.params.misaligned = .trap ∨ AccessesIo s a 2 →
      exec (.lh rd rs1 imm) s = raise .loadAddressMisaligned a s ∧
      exec (.lhu rd rs1 imm) s = raise .loadAddressMisaligned a s ∧
      exec (.sh rs1 rs2 imm) s = raise .storeAddressMisaligned a s) ∧
    (a.toNat % 4 ≠ 0 → s.params.misaligned = .trap ∨ AccessesIo s a 4 →
      exec (.lw rd rs1 imm) s = raise .loadAddressMisaligned a s ∧
      exec (.sw rs1 rs2 imm) s = raise .storeAddressMisaligned a s) ∧
    (s.params.misaligned = .support → ¬AccessesIo s a 2 →
      ((∀ k < 2, perm s.params (byteAddr a k) .load = true) → runs (.lh rd rs1 imm) ∧ runs (.lhu rd rs1 imm)) ∧
      ((∃ k < 2, perm s.params (byteAddr a k) .load = false) →
        exec (.lh rd rs1 imm) s = raise .loadAccessFault a s ∧ exec (.lhu rd rs1 imm) s = raise .loadAccessFault a s) ∧
      ((∀ k < 2, perm s.params (byteAddr a k) .store = true) → runs (.sh rs1 rs2 imm)) ∧
      ((∃ k < 2, perm s.params (byteAddr a k) .store = false) →
        exec (.sh rs1 rs2 imm) s = raise .storeAccessFault a s)) ∧
    (s.params.misaligned = .support → ¬AccessesIo s a 4 →
      ((∀ k < 4, perm s.params (byteAddr a k) .load = true) → runs (.lw rd rs1 imm)) ∧
      ((∃ k < 4, perm s.params (byteAddr a k) .load = false) → exec (.lw rd rs1 imm) s = raise .loadAccessFault a s) ∧
      ((∀ k < 4, perm s.params (byteAddr a k) .store = true) → runs (.sw rs1 rs2 imm)) ∧
      ((∃ k < 4, perm s.params (byteAddr a k) .store = false) →
        exec (.sw rs1 rs2 imm) s = raise .storeAccessFault a s)) ∧
    (runs (.lb rd rs1 imm) ∨ exec (.lb rd rs1 imm) s = raise .loadAccessFault a s) ∧
    (runs (.lbu rd rs1 imm) ∨ exec (.lbu rd rs1 imm) s = raise .loadAccessFault a s) ∧
    (runs (.sb rs1 rs2 imm) ∨ exec (.sb rs1 rs2 imm) s = raise .storeAccessFault a s)

/-- After a word store to main memory, loads of every width at its bytes see the bytes as the little-endian layout puts them
(R51). -/
def Obligations.StoredWordIsSeenByEveryWidth : Prop :=
  ∀ (s t : State) (rs1 rs2 : RegIdx) (imm : BitVec 12),
    let a := effectiveAddress s rs1 imm
    let v := (s.readReg rs2).toNat
    exec (.sw rs1 rs2 imm) s = .next t → SameEnv s t → (∀ k < 4, classAt s.params (byteAddr a k) = .main) →
    (∀ k < 4, perm s.params (byteAddr a k) .load = true) →
    ∀ (rd r : RegIdx) (d : BitVec 12) (k : Nat), effectiveAddress t r d = a + BitVec.ofNat 32 k →
      (k < 4 → ComputesTo (.lbu rd r d) t rd (BitVec.ofNat 32 (v / 2 ^ (8 * k) % 256))) ∧
      (k = 0 ∨ k = 2 → AccessAllowed t (effectiveAddress t r d) 2 .load →
        ComputesTo (.lhu rd r d) t rd (BitVec.ofNat 32 (v / 2 ^ (8 * k) % 65536))) ∧
      (k = 0 → ComputesTo (.lw rd r d) t rd (BitVec.ofNat 32 v))

/-- A fetch that meets bytes the hart has stored is refused without coherence, and with it sees the stored word (R66). -/
def Obligations.StoreThenFetchOfTheWord : Prop :=
  ∀ (s t : State) (rs1 rs2 : RegIdx) (imm : BitVec 12),
    let a := effectiveAddress s rs1 imm
    exec (.sw rs1 rs2 imm) s = .next t → SameEnv s t → a.toNat % 4 = 0 →
    (∀ k < 4, perm s.params (byteAddr a k) .fetch = true) →
    (s.params.fetchCoherent = false → step (t.setPc a) = .refused .fetchOfStoredBytes) ∧
    (s.params.fetchCoherent = true → fetch (t.setPc a) = .word (s.readReg rs2))

/-! ### FENCE, ECALL, EBREAK -/

/-- Every word of the opcode with funct3 = 000 is a FENCE; rs1 and rd are ignored, and every mode but FENCE.TSO, which is
fm = 1000 with pred = succ = RW, acts as the normal fence (R204). -/
def Obligations.FenceIgnoresReservedFields : Prop :=
  DecodesTo 0x0000000F#32 0x0000707F#32
    (fun w => .fence (fmField w) (predField w) (succField w) (rs1Field w) (rdField w)) ∧
  ∀ (fm pred succ : BitVec 4) (rs1 rd : RegIdx) (s : State),
    exec (.fence fm pred succ rs1 rd) s = exec (.fence fm pred succ 0#5 0#5) s ∧
    (¬(fm = 8#4 ∧ pred = 3#4 ∧ succ = 3#4) →
      exec (.fence fm pred succ rs1 rd) s = exec (.fence 0#4 pred succ rs1 rd) s)

/-- FENCE completes in every state with pc + 4; it records itself, and no register, no byte of memory and nothing else changes
(R200, R203; the form of the record is the model's, log entry 11). -/
def Obligations.FenceOnlyRecordsItself : Prop :=
  ∀ (fm pred succ : BitVec 4) (rs1 rd : RegIdx) (s : State),
    (fm = 8#4 ∧ pred = 3#4 ∧ succ = 3#4 → exec (.fence fm pred succ rs1 rd) s =
      .next { s with pc := s.pc + 4#32, history := s.history ++ [.fence .tso pred succ] }) ∧
    (¬(fm = 8#4 ∧ pred = 3#4 ∧ succ = 3#4) → exec (.fence fm pred succ rs1 rd) s =
      .next { s with pc := s.pc + 4#32, history := s.history ++ [.fence .normal pred succ] })

/-- ECALL and EBREAK are one word each and always trap; with the default environment the run ends with the address of the
instruction itself and info 0 (R210 to R212). -/
def Obligations.EcallAndEbreakTrap : Prop :=
  (∀ w, decode w = .instr .ecall ↔ w = 0x00000073#32) ∧ (∀ w, decode w = .instr .ebreak ↔ w = 0x00100073#32) ∧
  ∀ s : State,
    exec .ecall s = raise .environmentCall 0#32 s ∧ exec .ebreak s = raise .breakpoint 0#32 s ∧
    (EnvStops s →
      exec .ecall s = .fault (.trap ⟨.environmentCall, s.pc, 0#32⟩) ∧
      exec .ebreak s = .fault (.trap ⟨.breakpoint, s.pc, 0#32⟩))

/-- ECALL and EBREAK complete when the environment serves them: the run goes on from the registers, memory and pc that ee_resume
gives (R244). The model's choice is that the trap is recorded, and that dirty and the parameters stay (log entry 9). -/
def Obligations.EcallAndEbreakCompleteWhenServed : Prop :=
  ∀ (s : State) (regs : Vector Word 31) (mem : Memory) (pc : Word), pc.toNat % 4 = 0 →
    (eeResume s.params ⟨.environmentCall, s.pc, 0#32⟩ s.regs s.mem = .resume 0#32 regs mem pc →
      exec .ecall s = .next { s with
        regs := regs, pc := pc, mem := mem, history := s.history ++ [.trap ⟨.environmentCall, s.pc, 0#32⟩] }) ∧
    (eeResume s.params ⟨.breakpoint, s.pc, 0#32⟩ s.regs s.mem = .resume 0#32 regs mem pc →
      exec .ebreak s = .next { s with
        regs := regs, pc := pc, mem := mem, history := s.history ++ [.trap ⟨.breakpoint, s.pc, 0#32⟩] })

/-! ### Whole-machine rules -/

/-- A read of x0 gives 0 in every state, and an instruction whose destination is x0 leaves every register as it was (R22). -/
def Obligations.XZeroStaysZero : Prop :=
  (∀ s : State, s.readReg 0#5 = 0#32) ∧
  ∀ (i : Instr) (s t : State), i.destination = some 0#5 → exec i s = .next t → SameEnv s t → SameRegisters s t

/-- The frame of every instruction that takes no trap: registers but its destination, bytes of memory but those it stores to,
pc + 4 but for a transfer of control (R25, R34, R44). -/
def Obligations.InstructionFrame : Prop :=
  ∀ (i : Instr) (s t : State), exec i s = .next t → SameEnv s t →
    (∀ r, i.destination ≠ some r → t.readReg r = s.readReg r) ∧
    (i.storeAt s = none → SameMemory s t ∧ t.dirty = s.dirty) ∧
    (∀ a n, i.storeAt s = some (a, n) → ∀ b, (∀ k < n, byteAddr a k ≠ b) →
      Memory.readByte t.mem b = Memory.readByte s.mem b) ∧
    (i.transfersControl = false → t.pc = s.pc + 4#32)

/-- The reset state meets the invariant (with the model's values of log entries 1 to 4). -/
def Obligations.ResetMeetsInvariant : Prop :=
  State.Inv State.reset

/-- A launch refuses a misaligned RESET_PC, and else gives every register, pc, memory, dirty, the history and the parameters the
value of the procedure (R271). -/
def Obligations.LaunchGivesEveryField : Prop :=
  ∀ args : LaunchArgs,
    (args.resetPc.toNat % 4 ≠ 0 → launch args = .refused .misalignedResetPc) ∧
    (args.resetPc.toNat % 4 = 0 → ∃ s, launch args = .next s ∧ s.readReg 0#5 = 0#32 ∧
      (∀ r : RegIdx, r ≠ 0#5 → s.readReg r = args.initX[r.toNat - 1]'(regIndex_lt r)) ∧ s.pc = args.resetPc ∧
      (∀ l a v r, args.initMem = l ++ (a, v) :: r → (∀ w ∈ r, w.1 ≠ a) → Memory.readByte s.mem a.toNat = v) ∧
      s.dirty = [] ∧ s.history = [] ∧ s.params = args.params)

/-- Every launched state meets the invariant, and holds the parameters that the launch gave it, the environment's function
ee_resume among them. -/
def Obligations.LaunchMeetsInvariant : Prop :=
  ∀ (args : LaunchArgs) (s : State), launch args = .next s → State.Inv s ∧ s.params = args.params

/-- State.reset is the launch with the values the model names (log entries 1 to 4) and the spec's defaults. -/
def Obligations.ResetIsALaunch : Prop :=
  launch { resetPc := 0x00001000#32, initX := Vector.replicate 31 0#32, initMem := [],
           params := { regions := [Region.mainRange 0 (2 ^ 32)], misaligned := .trap, fetchCoherent := false,
                       eeResume := [] } } = .next State.reset

/-- Every step, a resumed trap's included, keeps the invariant: pc a multiple of 4, memory canonical, dirty a rising list of
addresses (R26, R33). -/
def Obligations.StepKeepsInvariant : Prop :=
  ∀ s t : State, State.Inv s → step s = .next t → State.Inv t

/-- In every state that a launch reaches pc is a multiple of 4, and the fetch-time alignment check does not fire (R26). -/
def Obligations.PcIsAlignedInEveryReachableState : Prop :=
  ∀ (args : LaunchArgs) (s t : State) (k : Nat), launch args = .next s → runSteps k s = .next t →
    t.pc.toNat % 4 = 0 ∧ ∀ info, fetch t ≠ .raises .instructionAddressMisaligned info

/-- No step changes the parameters of the environment, and the bookkeeping only grows: the history by new events at its end,
dirty by new addresses (for a resumed trap the model's choice, log entries 6 and 9). -/
def Obligations.ParametersStayAndBookkeepingGrows : Prop :=
  ∀ s t : State, step s = .next t →
    t.params = s.params ∧ (∃ new, t.history = s.history ++ new) ∧ ∀ b ∈ s.dirty, b ∈ t.dirty

/-- However long a run in which the environment resumes no trap, a byte the map does not let be stored to never changes; vacant
bytes are among them (R46). -/
def Obligations.UnstorableBytesNeverChange : Prop :=
  (∀ (p : Params) (b : Nat) (kind : AccessKind), classAt p b = .vacant → perm p b kind = false) ∧
  ∀ (s t : State) (k b : Nat), runSteps k s = .next t → t.resumptions = s.resumptions → perm s.params b .store = false →
    Memory.readByte t.mem b = Memory.readByte s.mem b

/-- However long a run in which the environment resumes no trap, every byte of memory that has changed is in dirty (R33). -/
def Obligations.ChangedBytesAreDirty : Prop :=
  ∀ (s t : State) (k b : Nat), runSteps k s = .next t → t.resumptions = s.resumptions →
    Memory.readByte t.mem b ≠ Memory.readByte s.mem b → b ∈ t.dirty

/-- What a hart can neither fetch nor load it cannot learn: two states that differ in such bytes alone run, for any number of
steps, to outcomes that differ in such bytes alone, if the environment, which is given all of memory at each trap (R244), does not
tell the hart of them by its answers: it may read every other byte (R46). Memory is in its canonical form. -/
def Obligations.InaccessibleMemoryIsNotLearned : Prop :=
  ∀ (s t : State) (k : Nat), Memory.wf s.mem → Memory.wf t.mem → EnvHides s.params → Indistinguishable s t → SameOutcome (runSteps k s) (runSteps k t)
end

