-- ==== Sys2Proof/Laws/State.lean ====
section
/-!
SUPPORT. What each update of the state changes and what it leaves: one lemma per field per update, so that no later proof
unfolds a record update.
-/

namespace Sys2Proof.Machine

variable (s : State) (r q : RegIdx) (v t : Word) (e : Event) (a : Word) (n : Nat)

/-! ### setPc and advance -/

@[simp] theorem State.setPc_pc : (s.setPc t).pc = t := rfl
@[simp] theorem State.setPc_regs : (s.setPc t).regs = s.regs := rfl
@[simp] theorem State.setPc_mem : (s.setPc t).mem = s.mem := rfl
@[simp] theorem State.setPc_dirty : (s.setPc t).dirty = s.dirty := rfl
@[simp] theorem State.setPc_history : (s.setPc t).history = s.history := rfl
@[simp] theorem State.setPc_params : (s.setPc t).params = s.params := rfl
@[simp] theorem State.setPc_readReg : (s.setPc t).readReg r = s.readReg r := rfl

@[simp] theorem State.advance_pc : s.advance.pc = s.pc + 4#32 := rfl
@[simp] theorem State.advance_regs : s.advance.regs = s.regs := rfl
@[simp] theorem State.advance_mem : s.advance.mem = s.mem := rfl
@[simp] theorem State.advance_dirty : s.advance.dirty = s.dirty := rfl
@[simp] theorem State.advance_history : s.advance.history = s.history := rfl
@[simp] theorem State.advance_params : s.advance.params = s.params := rfl
@[simp] theorem State.advance_readReg : s.advance.readReg r = s.readReg r := rfl

/-! ### writeReg -/

@[simp] theorem State.writeReg_zero : s.writeReg 0#5 v = s := rfl

@[simp] theorem State.writeReg_pc : (s.writeReg r v).pc = s.pc := by
  unfold State.writeReg; split <;> rfl

@[simp] theorem State.writeReg_mem : (s.writeReg r v).mem = s.mem := by
  unfold State.writeReg; split <;> rfl

@[simp] theorem State.writeReg_dirty : (s.writeReg r v).dirty = s.dirty := by
  unfold State.writeReg; split <;> rfl

@[simp] theorem State.writeReg_history : (s.writeReg r v).history = s.history := by
  unfold State.writeReg; split <;> rfl

@[simp] theorem State.writeReg_params : (s.writeReg r v).params = s.params := by
  unfold State.writeReg; split <;> rfl

/-! ### readReg -/

@[simp] theorem State.readReg_zero : s.readReg 0#5 = 0#32 := rfl

/-- Two register numbers other than 0 that share a place are one number. -/
theorem regIndex_inj {r q : RegIdx} (hr : r ≠ 0#5) (hq : q ≠ 0#5) (h : r.toNat - 1 = q.toNat - 1) : r = q := by
  have hr' : r.toNat ≠ 0 := fun h0 => hr (BitVec.eq_of_toNat_eq h0)
  have hq' : q.toNat ≠ 0 := fun h0 => hq (BitVec.eq_of_toNat_eq h0)
  exact BitVec.eq_of_toNat_eq (by omega)

/-- A register read after a register write: `x0` reads 0, the written register its new value, any other its old. -/
theorem State.readReg_writeReg :
    (s.writeReg r v).readReg q = if q = 0#5 then 0#32 else if q = r then v else s.readReg q := by
  by_cases hq : q = 0#5
  · simp [hq]
  · by_cases hr : r = 0#5
    · have hne : q ≠ r := fun h => hq (h.trans hr)
      simp [hr, hq]
    · by_cases hqr : q = r
      · subst hqr
        simp [State.readReg, State.writeReg, hq]
      · have hne : r.toNat - 1 ≠ q.toNat - 1 := fun h => hqr (regIndex_inj hr hq h).symm
        simp [State.readReg, State.writeReg, hq, hr, hqr, hne]

/-- Two states with the same registers read the same. -/
theorem State.readReg_congr {s t : State} (h : s.regs = t.regs) (r : RegIdx) : s.readReg r = t.readReg r := by
  unfold State.readReg; rw [h]

/-! ### note -/

@[simp] theorem State.note_pc : (s.note e).pc = s.pc := rfl
@[simp] theorem State.note_regs : (s.note e).regs = s.regs := rfl
@[simp] theorem State.note_mem : (s.note e).mem = s.mem := rfl
@[simp] theorem State.note_dirty : (s.note e).dirty = s.dirty := rfl
@[simp] theorem State.note_history : (s.note e).history = s.history ++ [e] := rfl
@[simp] theorem State.note_params : (s.note e).params = s.params := rfl
@[simp] theorem State.note_readReg : (s.note e).readReg r = s.readReg r := rfl

/-! ### afterLoad -/

@[simp] theorem State.afterLoad_pc : (s.afterLoad a n).pc = s.pc := by
  unfold State.afterLoad; split <;> rfl

@[simp] theorem State.afterLoad_regs : (s.afterLoad a n).regs = s.regs := by
  unfold State.afterLoad; split <;> rfl

@[simp] theorem State.afterLoad_mem : (s.afterLoad a n).mem = s.mem := by
  unfold State.afterLoad; split <;> rfl

@[simp] theorem State.afterLoad_dirty : (s.afterLoad a n).dirty = s.dirty := by
  unfold State.afterLoad; split <;> rfl

@[simp] theorem State.afterLoad_params : (s.afterLoad a n).params = s.params := by
  unfold State.afterLoad; split <;> rfl

@[simp] theorem State.afterLoad_readReg : (s.afterLoad a n).readReg r = s.readReg r :=
  State.readReg_congr (State.afterLoad_regs s a n) r

/-- The history after a load grows by one event exactly when the load touches I/O. -/
theorem State.afterLoad_history :
    (s.afterLoad a n).history = s.history ++ (if touchesIo s.params a n then [.ioLoad a n] else []) := by
  unfold State.afterLoad; split <;> simp_all

/-- A load of main memory changes nothing (R42). -/
theorem State.afterLoad_main (h : touchesIo s.params a n = false) : s.afterLoad a n = s := by
  simp [State.afterLoad, h]

/-! ### afterStore -/

@[simp] theorem State.afterStore_pc : (s.afterStore a n v).pc = s.pc := by
  simp only [State.afterStore]; split <;> rfl

@[simp] theorem State.afterStore_regs : (s.afterStore a n v).regs = s.regs := by
  simp only [State.afterStore]; split <;> rfl

@[simp] theorem State.afterStore_mem : (s.afterStore a n v).mem = storeBytes s.params s.mem a n v := by
  simp only [State.afterStore]; split <;> rfl

@[simp] theorem State.afterStore_dirty : (s.afterStore a n v).dirty = dirtyAfterStore s.dirty a n := by
  simp only [State.afterStore]; split <;> rfl

@[simp] theorem State.afterStore_params : (s.afterStore a n v).params = s.params := by
  simp only [State.afterStore]; split <;> rfl

@[simp] theorem State.afterStore_readReg : (s.afterStore a n v).readReg r = s.readReg r :=
  State.readReg_congr (State.afterStore_regs s v a n) r

/-- The history after a store grows by one event exactly when the store touches I/O. -/
theorem State.afterStore_history :
    (s.afterStore a n v).history =
      s.history ++ (if touchesIo s.params a n then [.ioStore a n (lowBytes v n)] else []) := by
  simp only [State.afterStore]; split <;> simp_all

end Sys2Proof.Machine
end

