-- ==== Sys2Proof/Laws/Memory.lean ====
section
/-!
SUPPORT. Memory: a read after a write gives the value written and leaves every other address alone, in every list; each
operation keeps the canonical form; what a store of n bytes does to each address.
-/

namespace Sys2Proof.Machine

/-! ### Read after write -/

theorem Memory.readByte_erase (m : Memory) (a b : Nat) :
    Memory.readByte (Memory.erase m a) b = if b = a then Memory.unwritten else Memory.readByte m b := by
  unfold Memory.erase
  induction m with
  | nil => simp [Memory.readByte]
  | cons c m ih =>
    obtain ⟨c, w⟩ := c
    by_cases hc : c = a
    · subst hc
      by_cases hb : b = c <;> simp_all [Memory.readByte]
    · by_cases hb : b = c
      · subst hb
        simp [Memory.readByte, hc]
      · simp_all [Memory.readByte]

theorem Memory.readByte_insertByte (m : Memory) (a b : Nat) (v : Byte) (h : ∀ c ∈ m, c.1 ≠ a) :
    Memory.readByte (Memory.insertByte m a v) b = if b = a then v else Memory.readByte m b := by
  induction m with
  | nil => simp [Memory.insertByte, Memory.readByte]
  | cons c m ih =>
    obtain ⟨c, w⟩ := c
    have hc : c ≠ a := h (c, w) List.mem_cons_self
    have ih := ih (fun d hd => h d (by simp [hd]))
    simp only [Memory.insertByte]
    split
    · rfl
    · by_cases hb : b = c
      · subst hb
        simp [Memory.readByte, hc]
      · simp only [Memory.readByte, hb, if_false, ih]

theorem Memory.not_mem_erase (m : Memory) (a : Nat) : ∀ c ∈ Memory.erase m a, c.1 ≠ a := by
  intro c hc
  simpa using (List.mem_filter.1 hc).2

/-- A byte read after a byte write, in any list of cells. -/
theorem Memory.readByte_writeByte (m : Memory) (a b : Nat) (v : Byte) :
    Memory.readByte (Memory.writeByte m a v) b = if b = a then v else Memory.readByte m b := by
  unfold Memory.writeByte
  split
  · rename_i hv
    simp [Memory.readByte_erase, hv]
  · rw [Memory.readByte_insertByte _ _ _ _ (Memory.not_mem_erase m a), Memory.readByte_erase]
    split <;> simp_all

@[simp] theorem Memory.readByte_writeByte_same (m : Memory) (a : Nat) (v : Byte) :
    Memory.readByte (Memory.writeByte m a v) a = v := by
  simp [Memory.readByte_writeByte]

theorem Memory.readByte_writeByte_ne (m : Memory) {a b : Nat} (v : Byte) (h : b ≠ a) :
    Memory.readByte (Memory.writeByte m a v) b = Memory.readByte m b := by
  simp [Memory.readByte_writeByte, h]

/-! ### The canonical form -/

theorem Memory.wf_nil : Memory.wf [] := by simp [Memory.wf]

theorem Memory.mem_insertByte (m : Memory) (a : Nat) (v : Byte) (c : Host.Cell) :
    c ∈ Memory.insertByte m a v ↔ c = (a, v) ∨ c ∈ m := by
  induction m with
  | nil => simp [Memory.insertByte]
  | cons d m ih =>
    obtain ⟨d, w⟩ := d
    simp only [Memory.insertByte]
    split
    · simp
    · simp only [List.mem_cons, ih]
      tauto

theorem Memory.wf_erase {m : Memory} (h : Memory.wf m) (a : Nat) : Memory.wf (Memory.erase m a) :=
  ⟨h.1.filter _, fun c hc => h.2 c (List.mem_of_mem_filter hc)⟩

theorem Memory.pairwise_insertByte {m : Memory} (h : m.Pairwise (fun c d => c.1 < d.1)) {a : Nat} (v : Byte)
    (ha : ∀ c ∈ m, c.1 ≠ a) : (Memory.insertByte m a v).Pairwise (fun c d => c.1 < d.1) := by
  induction m with
  | nil => simp [Memory.insertByte]
  | cons d m ih =>
    obtain ⟨d, w⟩ := d
    have hd : d ≠ a := ha (d, w) List.mem_cons_self
    rw [List.pairwise_cons] at h
    simp only [Memory.insertByte]
    split
    · rename_i hlt
      refine List.pairwise_cons.2 ⟨fun c hc => ?_, List.pairwise_cons.2 h⟩
      rcases List.mem_cons.1 hc with rfl | hc
      · exact hlt
      · exact lt_trans hlt (h.1 c hc)
    · rename_i hlt
      refine List.pairwise_cons.2 ⟨fun c hc => ?_, ih h.2 (fun c hc => ha c (by simp [hc]))⟩
      rcases (Memory.mem_insertByte m a v c).1 hc with rfl | hc
      · exact lt_of_le_of_ne (not_lt.1 hlt) hd
      · exact h.1 c hc

/-- A write to an address of the machine keeps the canonical form. -/
theorem Memory.wf_writeByte {m : Memory} (h : Memory.wf m) {a : Nat} (ha : a < 2 ^ 32) (v : Byte) :
    Memory.wf (Memory.writeByte m a v) := by
  unfold Memory.writeByte
  split
  · exact Memory.wf_erase h a
  · rename_i hv
    refine ⟨Memory.pairwise_insertByte (Memory.wf_erase h a).1 v (Memory.not_mem_erase m a), fun c hc => ?_⟩
    rcases (Memory.mem_insertByte _ a v c).1 hc with rfl | hc
    · exact ⟨ha, hv⟩
    · exact (Memory.wf_erase h a).2 c hc

theorem Memory.wf_writeBytes {m : Memory} (h : Memory.wf m) (ws : List (Word × Byte)) :
    Memory.wf (Memory.writeBytes m ws) := by
  unfold Memory.writeBytes
  induction ws generalizing m with
  | nil => exact h
  | cons w ws ih => exact ih (Memory.wf_writeByte h w.1.isLt w.2)

theorem Memory.readByte_eq_unwritten_of_lt {m : Memory} {a : Nat} (h : ∀ c ∈ m, a < c.1) :
    Memory.readByte m a = Memory.unwritten := by
  induction m with
  | nil => rfl
  | cons c m ih =>
    obtain ⟨c, w⟩ := c
    have hc : a < c := h (c, w) List.mem_cons_self
    simp only [Memory.readByte, Nat.ne_of_lt hc, if_false]
    exact ih (fun d hd => h d (by simp [hd]))

/-- Equal contents are equal lists, in canonical form: memory is compared by what it holds. -/
theorem Memory.ext_of_wf {m m' : Memory} (h : Memory.wf m) (h' : Memory.wf m')
    (heq : ∀ a, Memory.readByte m a = Memory.readByte m' a) : m = m' := by
  induction m generalizing m' with
  | nil =>
    cases m' with
    | nil => rfl
    | cons c m' =>
      obtain ⟨c, w⟩ := c
      exact absurd (heq c).symm (by simpa [Memory.readByte] using (h'.2 (c, w) (by simp)).2)
  | cons c m ih =>
    obtain ⟨c, w⟩ := c
    cases m' with
    | nil => exact absurd (heq c) (by simpa [Memory.readByte] using (h.2 (c, w) (by simp)).2)
    | cons d m' =>
      obtain ⟨d, w'⟩ := d
      obtain ⟨⟨hm, hmp⟩, hme⟩ : ((∀ e ∈ m, c < e.1) ∧ m.Pairwise _) ∧ _ := ⟨List.pairwise_cons.1 h.1, h.2⟩
      obtain ⟨⟨hm', hmp'⟩, hme'⟩ : ((∀ e ∈ m', d < e.1) ∧ m'.Pairwise _) ∧ _ := ⟨List.pairwise_cons.1 h'.1, h'.2⟩
      have hw : w ≠ Memory.unwritten := (hme (c, w) (by simp)).2
      have hw' : w' ≠ Memory.unwritten := (hme' (d, w') (by simp)).2
      have hcd : c = d := by
        rcases lt_trichotomy c d with hlt | heq' | hlt
        · have := heq c
          rw [Memory.readByte_eq_unwritten_of_lt (m := (d, w') :: m')] at this
          · exact absurd (by simpa [Memory.readByte] using this) hw
          · intro e he
            rcases List.mem_cons.1 he with rfl | he
            · exact hlt
            · exact lt_trans hlt (hm' e he)
        · exact heq'
        · have := (heq d).symm
          rw [Memory.readByte_eq_unwritten_of_lt (m := (c, w) :: m)] at this
          · exact absurd (by simpa [Memory.readByte] using this) hw'
          · intro e he
            rcases List.mem_cons.1 he with rfl | he
            · exact hlt
            · exact lt_trans hlt (hm e he)
      subst hcd
      have hww : w = w' := by simpa [Memory.readByte] using heq c
      subst hww
      congr 1
      refine ih ⟨hmp, fun e he => hme e (by simp [he])⟩ ⟨hmp', fun e he => hme' e (by simp [he])⟩ (fun a => ?_)
      by_cases ha : a = c
      · subst ha
        rw [Memory.readByte_eq_unwritten_of_lt hm, Memory.readByte_eq_unwritten_of_lt hm']
      · simpa [Memory.readByte, ha] using heq a

/-! ### Addresses of an access -/

theorem byteAddr_lt (a : Word) (k : Nat) : byteAddr a k < 2 ^ 32 := Nat.mod_lt _ (by decide)

theorem byteAddr_inj {a : Word} {j k : Nat} (hj : j < 2 ^ 32) (hk : k < 2 ^ 32) (h : byteAddr a j = byteAddr a k) :
    j = k := by
  have := a.isLt
  simp only [byteAddr] at h
  omega

/-- An aligned access does not wrap: its bytes follow its address (R54). -/
theorem byteAddr_of_lt {a : Word} {k : Nat} (h : a.toNat + k < 2 ^ 32) : byteAddr a k = a.toNat + k :=
  Nat.mod_eq_of_lt h

/-! ### A store of n bytes -/

/-- One more byte of a store. -/
theorem storeBytes_succ (p : Params) (m : Memory) (a : Word) (n : Nat) (v : Word) :
    storeBytes p m a (n + 1) v =
      if classAt p (byteAddr a n) = .io then storeBytes p m a n v
      else Memory.writeByte (storeBytes p m a n v) (byteAddr a n) (byteOf v n) := by
  simp [storeBytes, List.range_succ, List.foldl_append]

theorem Memory.wf_storeBytes {m : Memory} (h : Memory.wf m) (p : Params) (a : Word) (n : Nat) (v : Word) :
    Memory.wf (storeBytes p m a n v) := by
  induction n with
  | zero => exact h
  | succ n ih =>
    rw [storeBytes_succ]
    split
    · exact ih
    · exact Memory.wf_writeByte ih (byteAddr_lt a n) _

/-- A store leaves every address outside its bytes alone. -/
theorem readByte_storeBytes_outside (p : Params) (m : Memory) (a : Word) (n : Nat) (v : Word) (b : Nat)
    (h : ∀ k < n, byteAddr a k ≠ b) :
    Memory.readByte (storeBytes p m a n v) b = Memory.readByte m b := by
  induction n with
  | zero => rfl
  | succ n ih =>
    have ih := ih (fun k hk => h k (by omega))
    rw [storeBytes_succ]
    split
    · exact ih
    · rw [Memory.readByte_writeByte_ne _ _ (h n (by omega)).symm, ih]

/-- A store writes no byte of I/O. -/
theorem readByte_storeBytes_io (p : Params) (m : Memory) (a : Word) (n : Nat) (v : Word) (b : Nat)
    (h : classAt p b = .io) : Memory.readByte (storeBytes p m a n v) b = Memory.readByte m b := by
  induction n with
  | zero => rfl
  | succ n ih =>
    rw [storeBytes_succ]
    split
    · exact ih
    · rename_i hne
      have hb : b ≠ byteAddr a n := fun hb => hne (by rw [← hb]; exact h)
      rw [Memory.readByte_writeByte_ne _ _ hb, ih]

/-- Byte k of a store is byte k of the value, where the address is not I/O. -/
theorem readByte_storeBytes (p : Params) (m : Memory) (a : Word) {n : Nat} (v : Word) (hn : n ≤ 2 ^ 32) {k : Nat}
    (hk : k < n) (hio : classAt p (byteAddr a k) ≠ .io) :
    Memory.readByte (storeBytes p m a n v) (byteAddr a k) = byteOf v k := by
  induction n with
  | zero => omega
  | succ n ih =>
    rw [storeBytes_succ]
    by_cases hkn : k = n
    · subst hkn
      simp [hio]
    · have ih := ih (by omega) (by omega)
      split
      · exact ih
      · rw [Memory.readByte_writeByte_ne, ih]
        exact fun h => hkn (byteAddr_inj (by omega) (by omega) h)

/-! ### The set dirty -/

theorem mem_addAddress (d : List Nat) (a b : Nat) : b ∈ addAddress d a ↔ b = a ∨ b ∈ d := by
  induction d with
  | nil => simp [addAddress]
  | cons c d ih =>
    simp only [addAddress]
    split
    · simp
    · split
      · rename_i h; subst h; simp
      · simp only [List.mem_cons, ih]; tauto

theorem pairwise_addAddress {d : List Nat} (h : d.Pairwise (· < ·)) (a : Nat) : (addAddress d a).Pairwise (· < ·) := by
  induction d with
  | nil => simp [addAddress]
  | cons c d ih =>
    have hcd := List.pairwise_cons.1 h
    simp only [addAddress]
    split
    · rename_i hlt
      refine List.pairwise_cons.2 ⟨fun b hb => ?_, h⟩
      rcases List.mem_cons.1 hb with rfl | hb
      · exact hlt
      · exact lt_trans hlt (hcd.1 b hb)
    · split
      · exact h
      · refine List.pairwise_cons.2 ⟨fun b hb => ?_, ih hcd.2⟩
        rcases (mem_addAddress d a b).1 hb with rfl | hb
        · omega
        · exact hcd.1 b hb

theorem dirtyAfterStore_succ (d : List Nat) (a : Word) (n : Nat) :
    dirtyAfterStore d a (n + 1) = addAddress (dirtyAfterStore d a n) (byteAddr a n) := by
  simp [dirtyAfterStore, List.range_succ, List.foldl_append]

/-- After a store, `dirty` holds what it held and the bytes of the access (R57). -/
theorem mem_dirtyAfterStore (d : List Nat) (a : Word) (n b : Nat) :
    b ∈ dirtyAfterStore d a n ↔ b ∈ d ∨ ∃ k < n, byteAddr a k = b := by
  induction n with
  | zero => simp [dirtyAfterStore]
  | succ n ih =>
    rw [dirtyAfterStore_succ, mem_addAddress, ih]
    constructor
    · rintro (rfl | h | ⟨k, hk, rfl⟩)
      · exact .inr ⟨n, by omega, rfl⟩
      · exact .inl h
      · exact .inr ⟨k, by omega, rfl⟩
    · rintro (h | ⟨k, hk, rfl⟩)
      · exact .inr (.inl h)
      · by_cases hkn : k = n
        · exact .inl (by rw [hkn])
        · exact .inr (.inr ⟨k, by omega, rfl⟩)

theorem pairwise_dirtyAfterStore {d : List Nat} (h : d.Pairwise (· < ·)) (a : Word) (n : Nat) :
    (dirtyAfterStore d a n).Pairwise (· < ·) := by
  induction n with
  | zero => exact h
  | succ n ih => rw [dirtyAfterStore_succ]; exact pairwise_addAddress ih _

/-- An access touches `dirty` when one of its bytes is in it. -/
theorem touchesDirty_iff (s : State) (a : Word) (n : Nat) :
    touchesDirty s a n = true ↔ ∃ k < n, byteAddr a k ∈ s.dirty := by
  simp [touchesDirty]

/-! ### The map -/

/-- Vacant addresses are accessible for nothing (R46). -/
theorem perm_vacant {p : Params} {a : Nat} (h : classAt p a = .vacant) (kind : AccessKind) : perm p a kind = false := by
  unfold classAt at h; unfold perm
  split
  · rfl
  · simp_all

theorem accessible_iff (p : Params) (a : Word) (n : Nat) (kind : AccessKind) :
    accessible p a n kind = true ↔ ∀ k < n, perm p (byteAddr a k) kind = true := by
  simp [accessible]

theorem touchesIo_iff (p : Params) (a : Word) (n : Nat) :
    touchesIo p a n = true ↔ ∃ k < n, classAt p (byteAddr a k) = .io := by
  simp [touchesIo]

theorem touchesIo_eq_false_iff (p : Params) (a : Word) (n : Nat) :
    touchesIo p a n = false ↔ ∀ k < n, classAt p (byteAddr a k) ≠ .io := by
  simp [touchesIo]

/-! ### A word placed for the fetch -/

theorem Memory.wf_placeWord {s : State} (h : Memory.wf s.mem) (w : Word) : Memory.wf (placeWord s w).mem := by
  have h0 := byteAddr_lt s.pc
  simp only [placeWord, List.range, List.range.loop, List.foldl]
  exact Memory.wf_writeByte (Memory.wf_writeByte (Memory.wf_writeByte (Memory.wf_writeByte h (h0 0) _) (h0 1) _) (h0 2) _)
    (h0 3) _

/-- The four bytes of a word, put together again, are the word (R49). -/
theorem wordOfBytes_byteOf (w : Word) : wordOfBytes (byteOf w 0) (byteOf w 1) (byteOf w 2) (byteOf w 3) = w := by
  unfold wordOfBytes byteOf
  ext i hi
  simp only [BitVec.getElem_append, BitVec.getElem_extractLsb']
  split
  · simp [BitVec.getLsbD_eq_getElem, hi]
  · split
    · rw [← BitVec.getLsbD_eq_getElem]; congr 1; omega
    · split
      · rw [← BitVec.getLsbD_eq_getElem]; congr 1; omega
      · rw [← BitVec.getLsbD_eq_getElem]; congr 1; omega

/-- The word placed is the word fetched. -/
theorem fetchWord_placeWord (s : State) (w : Word) : fetchWord (placeWord s w) = w := by
  have hne : ∀ j < 4, ∀ k < 4, j ≠ k → byteAddr s.pc j ≠ byteAddr s.pc k :=
    fun j hj k hk hjk h => hjk (byteAddr_inj (by omega) (by omega) h)
  simp only [fetchWord, placeWord, List.range, List.range.loop, List.foldl, Memory.readByte_writeByte,
    hne 0 (by decide) 1 (by decide) (by decide), hne 0 (by decide) 2 (by decide) (by decide),
    hne 0 (by decide) 3 (by decide) (by decide), hne 1 (by decide) 2 (by decide) (by decide),
    hne 1 (by decide) 3 (by decide) (by decide), hne 2 (by decide) 3 (by decide) (by decide), if_true, if_false]
  exact wordOfBytes_byteOf w

end Sys2Proof.Machine
end

