-- ==== Sys2Proof/Laws/Environment.lean ====
section
/-!
SUPPORT. The environment's function `ee_resume` (R244): what its table answers, and that every function is given by a table.
-/

namespace Sys2Proof.Machine

/-! ### Registers and memory of an answer -/

/-- Writes that agree on the value of register `j + 1` give it that value, and leave it when there is none. -/
theorem getElem_writeRegs (regs : Vector Word 31) (ws : List (RegIdx × Word)) {j : Nat} (hj : j < 31) {v : Word}
    (hv : ∀ w ∈ ws, w.1.toNat = j + 1 → w.2 = v) :
    (writeRegs regs ws)[j] = if ∃ w ∈ ws, w.1.toNat = j + 1 then v else regs[j] := by
  induction ws generalizing regs with
  | nil => simp [writeRegs]
  | cons w ws ih =>
    have hcons : writeRegs regs (w :: ws) =
        writeRegs (if w.1 = 0#5 then regs else regs.set (w.1.toNat - 1) w.2 (regIndex_lt w.1)) ws := rfl
    have hw0 : w.1 = 0#5 ↔ w.1.toNat = 0 := BitVec.toNat_inj.symm
    have hhead : (if w.1 = 0#5 then regs else regs.set (w.1.toNat - 1) w.2 (regIndex_lt w.1))[j] =
        if w.1.toNat = j + 1 then w.2 else regs[j] := by
      split
      · rename_i h0
        have := hw0.1 h0
        exact (if_neg (by omega)).symm
      · rename_i h0
        have := mt hw0.2 h0
        rw [Vector.getElem_set]
        exact if_congr (by omega) rfl rfl
    rw [hcons, ih _ (fun w hw => hv w (by simp [hw])), hhead]
    by_cases hex : ∃ w ∈ ws, w.1.toNat = j + 1
    · obtain ⟨u, hu, hj'⟩ := hex
      rw [if_pos ⟨u, hu, hj'⟩, if_pos ⟨u, by simp [hu], hj'⟩]
    · rw [if_neg hex]
      by_cases hwj : w.1.toNat = j + 1
      · rw [if_pos hwj, if_pos ⟨w, by simp, hwj⟩, hv w (by simp) hwj]
      · rw [if_neg hwj, if_neg (by rw [List.exists_mem_cons_iff]; exact not_or.2 ⟨hwj, hex⟩)]

/-- The writes that turn any registers into `regs`. -/
def writesOfRegs (regs : Vector Word 31) : List (RegIdx × Word) :=
  (List.finRange 31).map (fun i : Fin 31 => (BitVec.ofNat 5 (i + 1), regs[i]))

theorem writeRegs_writesOfRegs (regs regs' : Vector Word 31) : writeRegs regs (writesOfRegs regs') = regs' := by
  refine Vector.ext fun j hj => ?_
  have hnum : ∀ i : Fin 31, (BitVec.ofNat 5 ((i : Nat) + 1)).toNat = i + 1 := fun i => by
    rw [BitVec.toNat_ofNat, Nat.mod_eq_of_lt (by omega)]
  rw [getElem_writeRegs _ _ hj (v := regs'[j]), if_pos]
  · exact ⟨_, List.mem_map.2 ⟨⟨j, hj⟩, List.mem_finRange _, rfl⟩, hnum ⟨j, hj⟩⟩
  · rintro w hw hwj
    obtain ⟨i, -, rfl⟩ := List.mem_map.1 hw
    have : (i : Nat) = j := Nat.succ.inj ((hnum i).symm.trans hwj)
    simp [this]

/-- Writes that agree on the value of an address give it that value, and leave it when there is none. -/
theorem Memory.readByte_writeBytes (m : Memory) (ws : List (Word × Byte)) {a : Nat} {v : Byte}
    (hv : ∀ w ∈ ws, w.1.toNat = a → w.2 = v) :
    Memory.readByte (Memory.writeBytes m ws) a = if ∃ w ∈ ws, w.1.toNat = a then v else Memory.readByte m a := by
  induction ws generalizing m with
  | nil => simp [Memory.writeBytes]
  | cons w ws ih =>
    have hcons : Memory.writeBytes m (w :: ws) = Memory.writeBytes (Memory.writeByte m w.1.toNat w.2) ws := rfl
    rw [hcons, ih _ (fun w hw => hv w (by simp [hw]))]
    by_cases hex : ∃ w ∈ ws, w.1.toNat = a
    · obtain ⟨u, hu, ha⟩ := hex
      rw [if_pos ⟨u, hu, ha⟩, if_pos ⟨u, by simp [hu], ha⟩]
    · rw [if_neg hex, Memory.readByte_writeByte]
      by_cases hwa : w.1.toNat = a
      · rw [if_pos hwa.symm, if_pos ⟨w, by simp, hwa⟩, hv w (by simp) hwa]
      · rw [if_neg (Ne.symm hwa), if_neg (by rw [List.exists_mem_cons_iff]; exact not_or.2 ⟨hwa, hex⟩)]

/-- An address that no entry names reads as unwritten. -/
theorem Memory.readByte_of_unlisted {m : Memory} {a : Nat} (h : ∀ c ∈ m, c.1 ≠ a) :
    Memory.readByte m a = Memory.unwritten := by
  induction m with
  | nil => rfl
  | cons c m ih =>
    obtain ⟨b, v⟩ := c
    rw [Memory.readByte, if_neg (h (b, v) (by simp)).symm]
    exact ih (fun c hc => h c (by simp [hc]))

/-- The writes that turn `m` into `m'`. -/
def writesOfMemory (m m' : Memory) : List (Word × Byte) :=
  (m ++ m').map (fun c => (BitVec.ofNat 32 c.1, Memory.readByte m' c.1))

/-- Byte writes reach every memory (R244: `memory'` may be any). -/
theorem Memory.writeBytes_writesOfMemory {m m' : Memory} (h : Memory.wf m) (h' : Memory.wf m') :
    Memory.writeBytes m (writesOfMemory m m') = m' := by
  have hnum : ∀ c ∈ m ++ m', (BitVec.ofNat 32 c.1).toNat = c.1 := fun c hc => by
    rw [BitVec.toNat_ofNat, Nat.mod_eq_of_lt]
    rcases List.mem_append.1 hc with hc | hc
    · exact (h.2 c hc).1
    · exact (h'.2 c hc).1
  refine Memory.ext_of_wf (Memory.wf_writeBytes h _) h' (fun a => ?_)
  rw [Memory.readByte_writeBytes m _ (v := Memory.readByte m' a)]
  · split
    · rfl
    · rename_i hno
      have hun : ∀ c ∈ m ++ m', c.1 ≠ a := fun c hc hca =>
        hno ⟨_, List.mem_map.2 ⟨c, hc, rfl⟩, (hnum c hc).trans hca⟩
      rw [Memory.readByte_of_unlisted (fun c hc => hun c (by simp [hc])),
        Memory.readByte_of_unlisted (fun c hc => hun c (by simp [hc]))]
  · rintro w hw hwa
    obtain ⟨c, hc, rfl⟩ := List.mem_map.1 hw
    rw [← hwa, hnum c hc]

/-! ### What the table answers -/

/-- The answer is that of the first row for the trap, or to stop. -/
theorem eeResume_cases (p : Params) (record : TrapRecord) (regs : Vector Word 31) (m : Memory) :
    ((∀ r ∈ p.eeResume, EnvRule.applies r record regs m = false) ∧ eeResume p record regs m = .stop) ∨
    ∃ r ∈ p.eeResume, EnvRule.applies r record regs m = true ∧
      eeResume p record regs m = EnvReply.answer r.reply record.epc regs m := by
  unfold eeResume
  cases h : p.eeResume.find? (fun r => EnvRule.applies r record regs m) with
  | none => exact .inl ⟨fun r hr => by simpa using List.find?_eq_none.1 h r hr, rfl⟩
  | some r => exact .inr ⟨r, List.mem_of_find?_eq_some h, by simpa using List.find?_some h, rfl⟩

/-- A memory that the environment gives is in canonical form when the trap's is. -/
theorem wf_of_eeResume {p : Params} {record : TrapRecord} {regs regs' : Vector Word 31} {m m' : Memory} {x0 pc : Word}
    (hm : Memory.wf m) (h : eeResume p record regs m = .resume x0 regs' m' pc) : Memory.wf m' := by
  rcases eeResume_cases p record regs m with ⟨-, h'⟩ | ⟨r, -, -, h'⟩
  · rw [h'] at h; cases h
  · rw [h'] at h
    cases hr : r.reply with
    | stop => rw [hr] at h; cases h
    | resume y ws writes q =>
      rw [hr] at h
      cases h
      exact Memory.wf_writeBytes hm _

/-! ### Every function is given by a table -/

/-- The reply that makes a given answer of a trap with memory `m`. -/
def replyOf (m : Memory) : EnvAnswer → EnvReply
  | .stop => .stop
  | .resume x0 regs m' pc => .resume x0 (writesOfRegs regs) (writesOfMemory m m') (.absolute pc)

theorem answer_replyOf (epc : Word) (regs : Vector Word 31) {m : Memory} (hm : Memory.wf m) {answer : EnvAnswer}
    (ha : ∀ x0 regs' m' pc, answer = .resume x0 regs' m' pc → Memory.wf m') :
    EnvReply.answer (replyOf m answer) epc regs m = answer := by
  cases answer with
  | stop => rfl
  | resume x0 regs' m' pc =>
    simp only [replyOf, EnvReply.answer, ResumePc.address, writeRegs_writesOfRegs,
      Memory.writeBytes_writesOfMemory hm (ha x0 regs' m' pc rfl)]

/-- The row for one trap alone. -/
def exactRule (record : TrapRecord) (regs : Vector Word 31) (m : Memory) (reply : EnvReply) : EnvRule :=
  { cause := some record.cause, epc := some record.epc, info := some record.info, regs := some regs, mem := some m,
    reply := reply }

theorem applies_exactRule (record record' : TrapRecord) (regs regs' : Vector Word 31) (m m' : Memory) (reply : EnvReply) :
    EnvRule.applies (exactRule record' regs' m' reply) record regs m = true ↔ record' = record ∧ regs' = regs ∧ m' = m := by
  obtain ⟨c, e, i⟩ := record
  obtain ⟨c', e', i'⟩ := record'
  simp [EnvRule.applies, exactRule, and_assoc]

/-- The arguments of `ee_resume`: a trap record, registers, and a memory in canonical form. -/
abbrev TrapState := TrapRecord × Vector Word 31 × { m : Memory // Memory.wf m }

/-- There are finitely many: memory has finitely many addresses. -/
theorem finite_trapState : Finite TrapState := by
  have hrecord : Finite TrapRecord :=
    Finite.of_injective (β := Fin 9 × Fin (2 ^ 32) × Fin (2 ^ 32))
      (fun t => (match t.cause with
        | .instructionAddressMisaligned => 0 | .instructionAccessFault => 1 | .illegalInstruction => 2
        | .breakpoint => 3 | .loadAddressMisaligned => 4 | .loadAccessFault => 5 | .storeAddressMisaligned => 6
        | .storeAccessFault => 7 | .environmentCall => 8, t.epc.toFin, t.info.toFin)) (by
        rintro ⟨c, e, i⟩ ⟨c', e', i'⟩ h
        simp only [Prod.mk.injEq, BitVec.toFin_inj] at h
        obtain ⟨hc, rfl, rfl⟩ := h
        cases c <;> cases c' <;> first | rfl | exact absurd hc (by decide))
  have hregs : Finite (Vector Word 31) :=
    Finite.of_injective (β := Fin 31 → Fin (2 ^ 32)) (fun x i => x[i].toFin) (by
      intro x y h
      exact Vector.ext fun i hi => BitVec.toFin_inj.1 (congrFun h ⟨i, hi⟩))
  have hmem : Finite { m : Memory // Memory.wf m } :=
    Finite.of_injective (β := Fin (2 ^ 32) → Fin (2 ^ 8)) (fun m a => (Memory.readByte m.1 a).toFin) (by
      rintro ⟨m, hm⟩ ⟨m', hm'⟩ h
      refine Subtype.ext (Memory.ext_of_wf hm hm' (fun a => ?_))
      by_cases ha : a < 2 ^ 32
      · exact BitVec.toFin_inj.1 (congrFun h ⟨a, ha⟩)
      · rw [Memory.readByte_of_unlisted (fun c hc hca => ha (by rw [← hca]; exact (hm.2 c hc).1)),
          Memory.readByte_of_unlisted (fun c hc hca => ha (by rw [← hca]; exact (hm'.2 c hc).1))])
  infer_instance

/-- Whatever function of `(cause, epc, info, x, memory)` an environment is, some table answers every trap as it does (R244). -/
theorem exists_table (f : TrapRecord → Vector Word 31 → Memory → EnvAnswer)
    (hf : ∀ record regs m x0 regs' m' pc, Memory.wf m → f record regs m = .resume x0 regs' m' pc → Memory.wf m') :
    ∃ table : List EnvRule, ∀ p : Params, p.eeResume = table → ∀ record regs m, Memory.wf m →
      eeResume p record regs m = f record regs m := by
  have := finite_trapState
  obtain ⟨l, hl⟩ : ∃ l : List TrapState, ∀ d, d ∈ l :=
    ⟨(Set.finite_univ (α := TrapState)).toFinset.toList, fun d => by simp⟩
  refine ⟨l.map (fun d => exactRule d.1 d.2.1 d.2.2.1 (replyOf d.2.2.1 (f d.1 d.2.1 d.2.2.1))),
    fun p hp record regs m hm => ?_⟩
  rcases eeResume_cases p record regs m with ⟨hno, -⟩ | ⟨r, hr, happ, h⟩
  · have := hno (exactRule record regs m (replyOf m (f record regs m)))
      (by rw [hp]; exact List.mem_map.2 ⟨(record, regs, ⟨m, hm⟩), hl _, rfl⟩)
    rw [(applies_exactRule record record regs regs m m _).2 ⟨rfl, rfl, rfl⟩] at this
    cases this
  · rw [hp] at hr
    obtain ⟨⟨record', regs', m', hm'⟩, -, rfl⟩ := List.mem_map.1 hr
    obtain ⟨rfl, rfl, rfl⟩ := (applies_exactRule record record' regs regs' m m' _).1 happ
    rw [h]
    exact answer_replyOf _ _ hm (fun x0 y q pc => hf _ _ _ x0 y q pc hm)

end Sys2Proof.Machine
end

