-- ==== Sys2Proof/Laws/Ops.lean ====
section
/-!
SUPPORT. One lemma for each shared operation, which says once everything it can do.
-/

namespace Sys2Proof.Machine

/-! ### Alignment -/

/-- The two low bits of an address are its remainder by 4. -/
theorem notFourAligned_eq_false_iff (a : Word) : notFourAligned a = false ↔ a.toNat % 4 = 0 := by
  have h : (a.extractLsb' 0 2).toNat = a.toNat % 4 := by simp [BitVec.extractLsb'_toNat]
  rw [← h]
  unfold notFourAligned
  rw [bne_eq_false_iff_eq]
  exact ⟨fun h => by rw [h]; rfl, fun h => BitVec.eq_of_toNat_eq h⟩

theorem notFourAligned_iff (a : Word) : notFourAligned a = true ↔ a.toNat % 4 ≠ 0 := by
  rw [ne_eq, ← notFourAligned_eq_false_iff, Bool.not_eq_false]

theorem misalignedRaises_iff (s : State) (a : Word) (n : Nat) :
    misalignedRaises s.params a n = true ↔ AccessMisaligned s a n := by
  simp [misalignedRaises, AccessMisaligned, touchesIo_iff]

/-- A byte access is never misaligned (R53). -/
@[simp] theorem misalignedRaises_one (p : Params) (a : Word) : misalignedRaises p a 1 = false := by
  simp [misalignedRaises, Nat.mod_one]

theorem accessForbidden_iff (s : State) (a : Word) (n : Nat) (kind : AccessKind) :
    AccessForbidden s a n kind ↔ misalignedRaises s.params a n = false ∧ accessible s.params a n kind = false := by
  rw [AccessForbidden, ← misalignedRaises_iff, Bool.not_eq_true]
  simp [accessible]

theorem accessAllowed_iff (s : State) (a : Word) (n : Nat) (kind : AccessKind) :
    AccessAllowed s a n kind ↔ misalignedRaises s.params a n = false ∧ accessible s.params a n kind = true := by
  rw [AccessAllowed, accessible_iff, ← Bool.not_eq_true, misalignedRaises_iff, AccessMisaligned]
  refine and_congr_left fun _ => ?_
  cases s.params.misaligned <;> (simp; try tauto)

/-! ### Taking an exception -/

/-- Without a row the environment stops every trap (R243). -/
theorem envStops_of_nil {s : State} (h : s.params.eeResume = []) : EnvStops s := fun _ => by
  simp [eeResume, h]

/-- `raise` does what `ee_resume` answers: it ends the run, or refuses an answer the spec does not admit, or goes on from the
state the answer gives. -/
theorem raise_cases (c : Cause) (info : Word) (s : State) :
    (eeResume s.params ⟨c, s.pc, info⟩ s.regs s.mem = .stop ∧ raise c info s = .fault (.trap ⟨c, s.pc, info⟩)) ∨
    ∃ x0 regs mem pc, eeResume s.params ⟨c, s.pc, info⟩ s.regs s.mem = .resume x0 regs mem pc ∧
      ((¬(x0 = 0#32 ∧ notFourAligned pc = false) ∧ raise c info s = .refused .illegalResume) ∨
       (x0 = 0#32 ∧ notFourAligned pc = false ∧
        raise c info s = .next { s with
          regs := regs, pc := pc, mem := mem, history := s.history ++ [.trap ⟨c, s.pc, info⟩] })) := by
  unfold raise
  rcases h : eeResume s.params ⟨c, s.pc, info⟩ s.regs s.mem with _ | ⟨x0, regs, mem, pc⟩
  · simp
  · refine .inr ⟨x0, regs, mem, pc, rfl, ?_⟩
    by_cases hok : x0 = 0#32 ∧ notFourAligned pc = false
    · exact .inr ⟨hok.1, hok.2, by simp [resumeFrom, hok]⟩
    · exact .inl ⟨hok, by simp only [resumeFrom, if_neg hok]⟩

/-- If `raise` answers a next state, the environment gave it. -/
theorem raise_next {c : Cause} {info : Word} {s t : State} (h : raise c info s = .next t) :
    ∃ regs mem pc, eeResume s.params ⟨c, s.pc, info⟩ s.regs s.mem = .resume 0#32 regs mem pc ∧
      notFourAligned pc = false ∧
      t = { s with regs := regs, pc := pc, mem := mem, history := s.history ++ [.trap ⟨c, s.pc, info⟩] } := by
  rcases raise_cases c info s with ⟨-, h'⟩ | ⟨x0, regs, mem, pc, ha, ⟨-, h'⟩ | ⟨rfl, hpc, h'⟩⟩
  · rw [h'] at h; cases h
  · rw [h'] at h; cases h
  · rw [h'] at h; cases h; exact ⟨regs, mem, pc, ha, hpc, rfl⟩

/-- If `raise` ends the run, it is with the precise record, and the environment stopped it. -/
theorem raise_fault {c : Cause} {info : Word} {s : State} {f : Fault} (h : raise c info s = .fault f) :
    eeResume s.params ⟨c, s.pc, info⟩ s.regs s.mem = .stop ∧ f = .trap ⟨c, s.pc, info⟩ := by
  rcases raise_cases c info s with ⟨hs, h'⟩ | ⟨x0, regs, mem, pc, -, ⟨-, h'⟩ | ⟨-, -, h'⟩⟩
  · rw [h'] at h; cases h; exact ⟨hs, rfl⟩
  · rw [h'] at h; cases h
  · rw [h'] at h; cases h

/-- If `raise` refuses, the environment gave a state that is none of the machine's. -/
theorem raise_refused {c : Cause} {info : Word} {s : State} {r : Refusal} (h : raise c info s = .refused r) :
    r = .illegalResume ∧ ∃ x0 regs mem pc, eeResume s.params ⟨c, s.pc, info⟩ s.regs s.mem = .resume x0 regs mem pc ∧
      ¬(x0 = 0#32 ∧ notFourAligned pc = false) := by
  rcases raise_cases c info s with ⟨-, h'⟩ | ⟨x0, regs, mem, pc, ha, ⟨hn, h'⟩ | ⟨-, -, h'⟩⟩
  · rw [h'] at h; cases h
  · rw [h'] at h; cases h; exact ⟨rfl, x0, regs, mem, pc, ha, hn⟩
  · rw [h'] at h; cases h

/-! ### Resumptions -/

section
variable (s : State) (r : RegIdx) (v t a : Word) (n : Nat) (e : Event)

@[simp] theorem State.setPc_resumptions : (s.setPc t).resumptions = s.resumptions := rfl
@[simp] theorem State.advance_resumptions : s.advance.resumptions = s.resumptions := rfl

@[simp] theorem State.writeReg_resumptions : (s.writeReg r v).resumptions = s.resumptions := by
  unfold State.writeReg; split <;> rfl

@[simp] theorem State.placeWord_resumptions : (placeWord s v).resumptions = s.resumptions := rfl

/-- Only the record of a trap is a resumption. -/
theorem State.note_resumptions : (s.note e).resumptions = s.resumptions + if isResumption e then 1 else 0 := by
  simp [State.resumptions, List.countP_append, List.countP_singleton]

@[simp] theorem State.note_fence_resumptions (mode : FenceMode) (pred succ : BitVec 4) :
    (s.note (.fence mode pred succ)).resumptions = s.resumptions := State.note_resumptions s _

@[simp] theorem State.afterLoad_resumptions : (s.afterLoad a n).resumptions = s.resumptions := by
  unfold State.afterLoad
  split <;> simp [State.note_resumptions, isResumption]

@[simp] theorem State.afterStore_resumptions : (s.afterStore a n v).resumptions = s.resumptions := by
  simp only [State.afterStore]
  split
  · simp only [State.note_resumptions, isResumption]; rfl
  · rfl

end

/-- A trap that goes on is one resumption more, and the parameters stay. -/
theorem raise_next_resumptions {c : Cause} {info : Word} {s t : State} (h : raise c info s = .next t) :
    t.params = s.params ∧ t.resumptions = s.resumptions + 1 := by
  obtain ⟨_, _, _, -, -, rfl⟩ := raise_next h
  exact ⟨rfl, by simp [State.resumptions, List.countP_append, isResumption]⟩

/-! ### The shapes of instructions -/

/-- A computational instruction always completes. -/
theorem writeResult_eq (rd : RegIdx) (v : Word) (s : State) :
    writeResult rd v s = .next (s.writeReg rd v).advance := rfl

/-- A jump raises on a misaligned target and else links and jumps. -/
theorem jumpAndLink_cases (rd : RegIdx) (t : Word) (s : State) :
    (notFourAligned t = true ∧ jumpAndLink rd t s = raise .instructionAddressMisaligned t s) ∨
    (notFourAligned t = false ∧ jumpAndLink rd t s = .next ((s.writeReg rd (linkValue s)).setPc t)) := by
  unfold jumpAndLink
  cases h : notFourAligned t <;> simp

/-- A branch is not taken, or raises on a misaligned target, or goes to it. -/
theorem branch_cases (taken : Bool) (t : Word) (s : State) :
    (taken = false ∧ branch taken t s = .next s.advance) ∨
    (taken = true ∧ notFourAligned t = true ∧ branch taken t s = raise .instructionAddressMisaligned t s) ∨
    (taken = true ∧ notFourAligned t = false ∧ branch taken t s = .next (s.setPc t)) := by
  unfold branch
  cases taken <;> cases h : notFourAligned t <;> simp

/-- A load raises for misalignment, or for access, or completes. -/
theorem loadBytes_cases (n : Nat) (value : (Nat → Byte) → Word) (rd rs1 : RegIdx) (imm : BitVec 12) (s : State) :
    let a := effectiveAddress s rs1 imm
    (AccessMisaligned s a n ∧ loadBytes n value rd rs1 imm s = raise .loadAddressMisaligned a s) ∨
    (AccessForbidden s a n .load ∧ loadBytes n value rd rs1 imm s = raise .loadAccessFault a s) ∨
    (AccessAllowed s a n .load ∧
      loadBytes n value rd rs1 imm s = .next ((s.afterLoad a n).writeReg rd (value (loadedByte s a n))).advance) := by
  simp only [← misalignedRaises_iff, accessForbidden_iff, accessAllowed_iff, loadBytes]
  cases h : misalignedRaises s.params (effectiveAddress s rs1 imm) n <;>
    cases h' : accessible s.params (effectiveAddress s rs1 imm) n .load <;> simp

/-- A store raises for misalignment, or for access, or completes. -/
theorem storeLow_cases (n : Nat) (rs1 rs2 : RegIdx) (imm : BitVec 12) (s : State) :
    let a := effectiveAddress s rs1 imm
    (AccessMisaligned s a n ∧ storeLow n rs1 rs2 imm s = raise .storeAddressMisaligned a s) ∨
    (AccessForbidden s a n .store ∧ storeLow n rs1 rs2 imm s = raise .storeAccessFault a s) ∨
    (AccessAllowed s a n .store ∧ storeLow n rs1 rs2 imm s = .next (s.afterStore a n (s.readReg rs2)).advance) := by
  simp only [← misalignedRaises_iff, accessForbidden_iff, accessAllowed_iff, storeLow]
  cases h : misalignedRaises s.params (effectiveAddress s rs1 imm) n <;>
    cases h' : accessible s.params (effectiveAddress s rs1 imm) n .store <;> simp

/-- The fetch raises for alignment, or for access, or refuses stored bytes, or gives the word. -/
theorem fetch_cases (s : State) :
    (notFourAligned s.pc = true ∧ fetch s = .raises .instructionAddressMisaligned s.pc) ∨
    (notFourAligned s.pc = false ∧ accessible s.params s.pc 4 .fetch = false ∧
      fetch s = .raises .instructionAccessFault s.pc) ∨
    (notFourAligned s.pc = false ∧ accessible s.params s.pc 4 .fetch = true ∧ s.params.fetchCoherent = false ∧
      touchesDirty s s.pc 4 = true ∧ fetch s = .refuses .fetchOfStoredBytes) ∨
    (Fetchable s ∧ fetch s = .word (fetchWord s)) := by
  unfold fetch Fetchable
  cases notFourAligned s.pc <;> cases accessible s.params s.pc 4 .fetch <;> cases s.params.fetchCoherent <;>
    cases touchesDirty s s.pc 4 <;> simp

/-- The four shapes of a step: the fetch raises, the fetch refuses, the word is illegal, the instruction runs. -/
theorem step_cases (s : State) :
    (∃ c info, fetch s = .raises c info ∧ step s = raise c info s) ∨
    (fetch s = .refuses .fetchOfStoredBytes ∧ step s = .refused .fetchOfStoredBytes) ∨
    (∃ why, Fetchable s ∧ decode (fetchWord s) = .illegal why ∧
      step s = raise .illegalInstruction (fetchWord s) s) ∨
    (∃ i, Fetchable s ∧ decode (fetchWord s) = .instr i ∧ step s = exec i s) := by
  unfold step
  rcases fetch_cases s with ⟨-, h⟩ | ⟨-, -, h⟩ | ⟨-, -, -, -, h⟩ | ⟨hf, h⟩
  · exact .inl ⟨_, _, h, by rw [h]⟩
  · exact .inl ⟨_, _, h, by rw [h]⟩
  · exact .inr (.inl ⟨h, by rw [h]⟩)
  · rw [h]
    cases hd : decode (fetchWord s) with
    | illegal why => exact .inr (.inr (.inl ⟨why, hf, rfl, by simp [hd]⟩))
    | instr i => exact .inr (.inr (.inr ⟨i, hf, rfl, by simp [hd]⟩))

/-! ### Runs -/

theorem runSteps_zero (s : State) : runSteps 0 s = .next s := rfl

/-- A run whose first step answers a next state goes on from it. -/
theorem runSteps_succ_of_next {s u : State} (k : Nat) (h : step s = .next u) : runSteps (k + 1) s = runSteps k u := by
  have h : Sys2Proof.core.step s = .next u := h
  simp only [runSteps, Host.Core.run, h]
  rfl

/-- A run whose first step ends with a trap ends so. -/
theorem runSteps_succ_of_fault {s : State} {f : Fault} (k : Nat) (h : step s = .fault f) :
    runSteps (k + 1) s = .fault f := by
  have h : Sys2Proof.core.step s = .fault f := h
  simp only [runSteps, Host.Core.run, h]
  rfl

/-- A run whose first step is refused is refused so. -/
theorem runSteps_succ_of_refused {s : State} {r : Refusal} (k : Nat) (h : step s = .refused r) :
    runSteps (k + 1) s = .refused r := by
  have h : Sys2Proof.core.step s = .refused r := h
  simp only [runSteps, Host.Core.run, h]
  rfl

/-- A run that answers a next state takes its first step. -/
theorem runSteps_succ_next {k : Nat} {s t : State} (h : runSteps (k + 1) s = .next t) :
    ∃ u, step s = .next u ∧ runSteps k u = .next t := by
  cases e : step s with
  | next u => exact ⟨u, rfl, by rw [← h, runSteps_succ_of_next k e]⟩
  | fault f => rw [runSteps_succ_of_fault k e] at h; cases h
  | refused r => rw [runSteps_succ_of_refused k e] at h; cases h

/-- What holds at the start and is kept by every step holds at the end of a run. -/
theorem runSteps_induct {P : State → Prop} (hstep : ∀ u v, P u → step u = .next v → P v) {k : Nat} {s t : State}
    (hs : P s) (h : runSteps k s = .next t) : P t := by
  induction k generalizing s with
  | zero => cases h; exact hs
  | succ k ih =>
    obtain ⟨u, hu, h⟩ := runSteps_succ_next h
    exact ih (hstep s u hs hu) h

/-- A launch refuses a misaligned `RESET_PC` and else gives every field its value (R271). -/
theorem launch_cases (args : LaunchArgs) :
    (notFourAligned args.resetPc = true ∧ launch args = .refused .misalignedResetPc) ∨
    (notFourAligned args.resetPc = false ∧ launch args = .next
      { regs := args.initX, pc := args.resetPc, mem := Memory.writeBytes [] args.initMem, dirty := [], history := [],
        params := args.params }) := by
  unfold launch
  cases h : notFourAligned args.resetPc <;> simp

end Sys2Proof.Machine
end

