-- ==== Sys2Proof/Laws/PerInstr.lean ====
section
/-!
SUPPORT. For every instruction: its word matches the row of R95 that bears its name. The family `RowAccepts`, one lemma per
constructor.
-/

namespace Sys2Proof.Laws

/-! ### The fixed bits of each format, under its mask -/

theorem encodeR_masked (f7 : BitVec 7) (rs2 rs1 : RegIdx) (f3 : BitVec 3) (rd : RegIdx) (op : BitVec 7) :
    encodeR f7 rs2 rs1 f3 rd op &&& 0xFE00707F#32 = encodeR f7 0#5 0#5 f3 0#5 op := by
  apply BitVec.eq_of_getLsbD_eq
  intro i hi
  simp only [encodeR, BitVec.getLsbD_and, BitVec.getLsbD_append]
  interval_cases i <;> simp

theorem encodeI_masked (imm : BitVec 12) (rs1 : RegIdx) (f3 : BitVec 3) (rd : RegIdx) (op : BitVec 7) :
    encodeI imm rs1 f3 rd op &&& 0x0000707F#32 = encodeI 0#12 0#5 f3 0#5 op := by
  apply BitVec.eq_of_getLsbD_eq
  intro i hi
  simp only [encodeI, BitVec.getLsbD_and, BitVec.getLsbD_append]
  interval_cases i <;> simp

theorem encodeS_masked (imm : BitVec 12) (rs2 rs1 : RegIdx) (f3 : BitVec 3) (op : BitVec 7) :
    encodeS imm rs2 rs1 f3 op &&& 0x0000707F#32 = encodeS 0#12 0#5 0#5 f3 op := by
  apply BitVec.eq_of_getLsbD_eq
  intro i hi
  simp only [encodeS, BitVec.getLsbD_and, BitVec.getLsbD_append]
  interval_cases i <;> simp

theorem encodeB_masked (imm : BitVec 13) (rs2 rs1 : RegIdx) (f3 : BitVec 3) (op : BitVec 7) :
    encodeB imm rs2 rs1 f3 op &&& 0x0000707F#32 = encodeB 0#13 0#5 0#5 f3 op := by
  apply BitVec.eq_of_getLsbD_eq
  intro i hi
  simp only [encodeB, BitVec.getLsbD_and, BitVec.getLsbD_append]
  interval_cases i <;> simp

theorem encodeU_masked (imm : BitVec 20) (rd : RegIdx) (op : BitVec 7) :
    encodeU imm rd op &&& 0x0000007F#32 = encodeU 0#20 0#5 op := by
  apply BitVec.eq_of_getLsbD_eq
  intro i hi
  simp only [encodeU, BitVec.getLsbD_and, BitVec.getLsbD_append]
  interval_cases i <;> simp

theorem encodeJ_masked (imm : BitVec 21) (rd : RegIdx) (op : BitVec 7) :
    encodeJ imm rd op &&& 0x0000007F#32 = encodeJ 0#21 0#5 op := by
  apply BitVec.eq_of_getLsbD_eq
  intro i hi
  simp only [encodeJ, BitVec.getLsbD_and, BitVec.getLsbD_append]
  interval_cases i <;> simp

/-- The word of `i` matches the row of R95 with the name of `i`. -/
def RowAccepts.Statement (i : Instr) : Prop :=
  ∃ r ∈ opcodeRows, r.mnemonic = i.mnemonic ∧ r.accepts (encode i)

theorem RowAccepts.lui (rd : RegIdx) (imm : BitVec 20) : RowAccepts.Statement (.lui rd imm) :=
  ⟨⟨"LUI", 0x00000037, 0x0000007F⟩, by decide, rfl, encodeU_masked ..⟩

theorem RowAccepts.auipc (rd : RegIdx) (imm : BitVec 20) : RowAccepts.Statement (.auipc rd imm) :=
  ⟨⟨"AUIPC", 0x00000017, 0x0000007F⟩, by decide, rfl, encodeU_masked ..⟩

theorem RowAccepts.jal (rd : RegIdx) (offset : BitVec 21) : RowAccepts.Statement (.jal rd offset) :=
  ⟨⟨"JAL", 0x0000006F, 0x0000007F⟩, by decide, rfl, encodeJ_masked ..⟩

theorem RowAccepts.jalr (rd rs1 : RegIdx) (imm : BitVec 12) : RowAccepts.Statement (.jalr rd rs1 imm) :=
  ⟨⟨"JALR", 0x00000067, 0x0000707F⟩, by decide, rfl, encodeI_masked ..⟩

theorem RowAccepts.beq (rs1 rs2 : RegIdx) (offset : BitVec 13) : RowAccepts.Statement (.beq rs1 rs2 offset) :=
  ⟨⟨"BEQ", 0x00000063, 0x0000707F⟩, by decide, rfl, encodeB_masked ..⟩

theorem RowAccepts.bne (rs1 rs2 : RegIdx) (offset : BitVec 13) : RowAccepts.Statement (.bne rs1 rs2 offset) :=
  ⟨⟨"BNE", 0x00001063, 0x0000707F⟩, by decide, rfl, encodeB_masked ..⟩

theorem RowAccepts.blt (rs1 rs2 : RegIdx) (offset : BitVec 13) : RowAccepts.Statement (.blt rs1 rs2 offset) :=
  ⟨⟨"BLT", 0x00004063, 0x0000707F⟩, by decide, rfl, encodeB_masked ..⟩

theorem RowAccepts.bge (rs1 rs2 : RegIdx) (offset : BitVec 13) : RowAccepts.Statement (.bge rs1 rs2 offset) :=
  ⟨⟨"BGE", 0x00005063, 0x0000707F⟩, by decide, rfl, encodeB_masked ..⟩

theorem RowAccepts.bltu (rs1 rs2 : RegIdx) (offset : BitVec 13) : RowAccepts.Statement (.bltu rs1 rs2 offset) :=
  ⟨⟨"BLTU", 0x00006063, 0x0000707F⟩, by decide, rfl, encodeB_masked ..⟩

theorem RowAccepts.bgeu (rs1 rs2 : RegIdx) (offset : BitVec 13) : RowAccepts.Statement (.bgeu rs1 rs2 offset) :=
  ⟨⟨"BGEU", 0x00007063, 0x0000707F⟩, by decide, rfl, encodeB_masked ..⟩

theorem RowAccepts.lb (rd rs1 : RegIdx) (imm : BitVec 12) : RowAccepts.Statement (.lb rd rs1 imm) :=
  ⟨⟨"LB", 0x00000003, 0x0000707F⟩, by decide, rfl, encodeI_masked ..⟩

theorem RowAccepts.lh (rd rs1 : RegIdx) (imm : BitVec 12) : RowAccepts.Statement (.lh rd rs1 imm) :=
  ⟨⟨"LH", 0x00001003, 0x0000707F⟩, by decide, rfl, encodeI_masked ..⟩

theorem RowAccepts.lw (rd rs1 : RegIdx) (imm : BitVec 12) : RowAccepts.Statement (.lw rd rs1 imm) :=
  ⟨⟨"LW", 0x00002003, 0x0000707F⟩, by decide, rfl, encodeI_masked ..⟩

theorem RowAccepts.lbu (rd rs1 : RegIdx) (imm : BitVec 12) : RowAccepts.Statement (.lbu rd rs1 imm) :=
  ⟨⟨"LBU", 0x00004003, 0x0000707F⟩, by decide, rfl, encodeI_masked ..⟩

theorem RowAccepts.lhu (rd rs1 : RegIdx) (imm : BitVec 12) : RowAccepts.Statement (.lhu rd rs1 imm) :=
  ⟨⟨"LHU", 0x00005003, 0x0000707F⟩, by decide, rfl, encodeI_masked ..⟩

theorem RowAccepts.sb (rs1 rs2 : RegIdx) (imm : BitVec 12) : RowAccepts.Statement (.sb rs1 rs2 imm) :=
  ⟨⟨"SB", 0x00000023, 0x0000707F⟩, by decide, rfl, encodeS_masked ..⟩

theorem RowAccepts.sh (rs1 rs2 : RegIdx) (imm : BitVec 12) : RowAccepts.Statement (.sh rs1 rs2 imm) :=
  ⟨⟨"SH", 0x00001023, 0x0000707F⟩, by decide, rfl, encodeS_masked ..⟩

theorem RowAccepts.sw (rs1 rs2 : RegIdx) (imm : BitVec 12) : RowAccepts.Statement (.sw rs1 rs2 imm) :=
  ⟨⟨"SW", 0x00002023, 0x0000707F⟩, by decide, rfl, encodeS_masked ..⟩

theorem RowAccepts.addi (rd rs1 : RegIdx) (imm : BitVec 12) : RowAccepts.Statement (.addi rd rs1 imm) :=
  ⟨⟨"ADDI", 0x00000013, 0x0000707F⟩, by decide, rfl, encodeI_masked ..⟩

theorem RowAccepts.slti (rd rs1 : RegIdx) (imm : BitVec 12) : RowAccepts.Statement (.slti rd rs1 imm) :=
  ⟨⟨"SLTI", 0x00002013, 0x0000707F⟩, by decide, rfl, encodeI_masked ..⟩

theorem RowAccepts.sltiu (rd rs1 : RegIdx) (imm : BitVec 12) : RowAccepts.Statement (.sltiu rd rs1 imm) :=
  ⟨⟨"SLTIU", 0x00003013, 0x0000707F⟩, by decide, rfl, encodeI_masked ..⟩

theorem RowAccepts.xori (rd rs1 : RegIdx) (imm : BitVec 12) : RowAccepts.Statement (.xori rd rs1 imm) :=
  ⟨⟨"XORI", 0x00004013, 0x0000707F⟩, by decide, rfl, encodeI_masked ..⟩

theorem RowAccepts.ori (rd rs1 : RegIdx) (imm : BitVec 12) : RowAccepts.Statement (.ori rd rs1 imm) :=
  ⟨⟨"ORI", 0x00006013, 0x0000707F⟩, by decide, rfl, encodeI_masked ..⟩

theorem RowAccepts.andi (rd rs1 : RegIdx) (imm : BitVec 12) : RowAccepts.Statement (.andi rd rs1 imm) :=
  ⟨⟨"ANDI", 0x00007013, 0x0000707F⟩, by decide, rfl, encodeI_masked ..⟩

theorem RowAccepts.slli (rd rs1 : RegIdx) (shamt : BitVec 5) : RowAccepts.Statement (.slli rd rs1 shamt) :=
  ⟨⟨"SLLI", 0x00001013, 0xFE00707F⟩, by decide, rfl, encodeR_masked ..⟩

theorem RowAccepts.srli (rd rs1 : RegIdx) (shamt : BitVec 5) : RowAccepts.Statement (.srli rd rs1 shamt) :=
  ⟨⟨"SRLI", 0x00005013, 0xFE00707F⟩, by decide, rfl, encodeR_masked ..⟩

theorem RowAccepts.srai (rd rs1 : RegIdx) (shamt : BitVec 5) : RowAccepts.Statement (.srai rd rs1 shamt) :=
  ⟨⟨"SRAI", 0x40005013, 0xFE00707F⟩, by decide, rfl, encodeR_masked ..⟩

theorem RowAccepts.add (rd rs1 rs2 : RegIdx) : RowAccepts.Statement (.add rd rs1 rs2) :=
  ⟨⟨"ADD", 0x00000033, 0xFE00707F⟩, by decide, rfl, encodeR_masked ..⟩

theorem RowAccepts.sub (rd rs1 rs2 : RegIdx) : RowAccepts.Statement (.sub rd rs1 rs2) :=
  ⟨⟨"SUB", 0x40000033, 0xFE00707F⟩, by decide, rfl, encodeR_masked ..⟩

theorem RowAccepts.sll (rd rs1 rs2 : RegIdx) : RowAccepts.Statement (.sll rd rs1 rs2) :=
  ⟨⟨"SLL", 0x00001033, 0xFE00707F⟩, by decide, rfl, encodeR_masked ..⟩

theorem RowAccepts.slt (rd rs1 rs2 : RegIdx) : RowAccepts.Statement (.slt rd rs1 rs2) :=
  ⟨⟨"SLT", 0x00002033, 0xFE00707F⟩, by decide, rfl, encodeR_masked ..⟩

theorem RowAccepts.sltu (rd rs1 rs2 : RegIdx) : RowAccepts.Statement (.sltu rd rs1 rs2) :=
  ⟨⟨"SLTU", 0x00003033, 0xFE00707F⟩, by decide, rfl, encodeR_masked ..⟩

theorem RowAccepts.xor (rd rs1 rs2 : RegIdx) : RowAccepts.Statement (.xor rd rs1 rs2) :=
  ⟨⟨"XOR", 0x00004033, 0xFE00707F⟩, by decide, rfl, encodeR_masked ..⟩

theorem RowAccepts.srl (rd rs1 rs2 : RegIdx) : RowAccepts.Statement (.srl rd rs1 rs2) :=
  ⟨⟨"SRL", 0x00005033, 0xFE00707F⟩, by decide, rfl, encodeR_masked ..⟩

theorem RowAccepts.sra (rd rs1 rs2 : RegIdx) : RowAccepts.Statement (.sra rd rs1 rs2) :=
  ⟨⟨"SRA", 0x40005033, 0xFE00707F⟩, by decide, rfl, encodeR_masked ..⟩

theorem RowAccepts.or (rd rs1 rs2 : RegIdx) : RowAccepts.Statement (.or rd rs1 rs2) :=
  ⟨⟨"OR", 0x00006033, 0xFE00707F⟩, by decide, rfl, encodeR_masked ..⟩

theorem RowAccepts.and (rd rs1 rs2 : RegIdx) : RowAccepts.Statement (.and rd rs1 rs2) :=
  ⟨⟨"AND", 0x00007033, 0xFE00707F⟩, by decide, rfl, encodeR_masked ..⟩

theorem RowAccepts.fence (fm pred succ : BitVec 4) (rs1 rd : RegIdx) : RowAccepts.Statement (.fence fm pred succ rs1 rd) :=
  ⟨⟨"FENCE", 0x0000000F, 0x0000707F⟩, by decide, rfl, encodeI_masked ..⟩

theorem RowAccepts.ecall : RowAccepts.Statement .ecall :=
  ⟨⟨"ECALL", 0x00000073, 0xFFFFFFFF⟩, by decide, rfl, rfl⟩

theorem RowAccepts.ebreak : RowAccepts.Statement .ebreak :=
  ⟨⟨"EBREAK", 0x00100073, 0xFFFFFFFF⟩, by decide, rfl, rfl⟩

end Sys2Proof.Laws
end

