-- ==== Sys2Proof/Tests/Slice0.lean ====
section
/-!
SUPPORT. Tests. Words and expected results are the spec's own: the examples of the rules and the tables of 95_test_vectors.md
(V-A to V-I are its sections), or, where a comment says so, worked by hand from a rule. Last come the witnesses: for every
statement with hypotheses, concrete values that meet them.
-/

namespace Sys2Proof.Tests

open Sys2Proof.Machine

/-! ### Well-formedness: an odd offset is refused -/

theorem test_wf_refuses_odd_jal : (Instr.jal 1 3).wellFormed = false := by decide
theorem test_wf_refuses_odd_beq : (Instr.beq 6 7 1).wellFormed = false := by decide
theorem test_wf_refuses_odd_bne : (Instr.bne 6 7 (-1)).wellFormed = false := by decide
theorem test_wf_refuses_odd_blt : (Instr.blt 6 7 4095).wellFormed = false := by decide
theorem test_wf_refuses_odd_bge : (Instr.bge 6 7 17).wellFormed = false := by decide
theorem test_wf_refuses_odd_bltu : (Instr.bltu 6 7 (-4095)).wellFormed = false := by decide
theorem test_wf_refuses_odd_bgeu : (Instr.bgeu 6 7 9).wellFormed = false := by decide
theorem test_wf_admits_even_offsets :
    (Instr.jal 1 (-1048576)).wellFormed = true ∧ (Instr.beq 0 0 4094).wellFormed = true := by decide

/-! ### Decoding: one word per constructor, from the rule of its instruction or from 95_test_vectors.md section 2.1 -/

theorem test_decode_lui : decode 0x123452B7#32 = .instr (.lui 5 0x12345) := by decide
theorem test_decode_auipc : decode 0xFFFFF297#32 = .instr (.auipc 5 0xFFFFF) := by decide
theorem test_decode_jal : decode 0xFFDFF0EF#32 = .instr (.jal 1 (-4)) := by decide
theorem test_decode_jalr : decode 0xFFC300E7#32 = .instr (.jalr 1 6 (-4)) := by decide
theorem test_decode_beq : decode 0xFE730CE3#32 = .instr (.beq 6 7 (-8)) := by decide
theorem test_decode_bne : decode 0x00B51463#32 = .instr (.bne 10 11 8) := by decide
theorem test_decode_blt : decode 0x00734863#32 = .instr (.blt 6 7 16) := by decide
theorem test_decode_bge : decode 0x80735063#32 = .instr (.bge 6 7 (-4096)) := by decide
theorem test_decode_bltu : decode 0x00736863#32 = .instr (.bltu 6 7 16) := by decide
theorem test_decode_bgeu : decode 0x00737863#32 = .instr (.bgeu 6 7 16) := by decide
theorem test_decode_lb : decode 0x00330283#32 = .instr (.lb 5 6 3) := by decide
theorem test_decode_lh : decode 0x00131283#32 = .instr (.lh 5 6 1) := by decide
theorem test_decode_lw : decode 0x80032283#32 = .instr (.lw 5 6 (-2048)) := by decide
theorem test_decode_lbu : decode 0x00334283#32 = .instr (.lbu 5 6 3) := by decide
theorem test_decode_lhu : decode 0x00235283#32 = .instr (.lhu 5 6 2) := by decide
theorem test_decode_sb : decode 0x007302A3#32 = .instr (.sb 6 7 5) := by decide
theorem test_decode_sh : decode 0x00731123#32 = .instr (.sh 6 7 2) := by decide
theorem test_decode_sw : decode 0x7E732FA3#32 = .instr (.sw 6 7 2047) := by decide
theorem test_decode_addi : decode 0xFF010113#32 = .instr (.addi 2 2 (-16)) := by decide
theorem test_decode_slti : decode 0xFFF32293#32 = .instr (.slti 5 6 (-1)) := by decide
theorem test_decode_sltiu : decode 0x00133293#32 = .instr (.sltiu 5 6 1) := by decide
theorem test_decode_xori : decode 0x7FF34293#32 = .instr (.xori 5 6 0x7FF) := by decide
theorem test_decode_ori : decode 0x80036293#32 = .instr (.ori 5 6 (-2048)) := by decide
theorem test_decode_andi : decode 0xFF037293#32 = .instr (.andi 5 6 (-16)) := by decide
theorem test_decode_slli : decode 0x01F31293#32 = .instr (.slli 5 6 31) := by decide
theorem test_decode_srli : decode 0x00435293#32 = .instr (.srli 5 6 4) := by decide
theorem test_decode_srai : decode 0x41F35293#32 = .instr (.srai 5 6 31) := by decide
theorem test_decode_add : decode 0x007302B3#32 = .instr (.add 5 6 7) := by decide
theorem test_decode_sub : decode 0x407302B3#32 = .instr (.sub 5 6 7) := by decide
theorem test_decode_sll : decode 0x007312B3#32 = .instr (.sll 5 6 7) := by decide
theorem test_decode_slt : decode 0x007322B3#32 = .instr (.slt 5 6 7) := by decide
theorem test_decode_sltu : decode 0x007032B3#32 = .instr (.sltu 5 0 7) := by decide
theorem test_decode_xor : decode 0x007342B3#32 = .instr (.xor 5 6 7) := by decide
theorem test_decode_srl : decode 0x007352B3#32 = .instr (.srl 5 6 7) := by decide
theorem test_decode_sra : decode 0x407352B3#32 = .instr (.sra 5 6 7) := by decide
theorem test_decode_or : decode 0x007362B3#32 = .instr (.or 5 6 7) := by decide
theorem test_decode_and : decode 0x00737033#32 = .instr (.and 0 6 7) := by decide
theorem test_decode_fence : decode 0x8330000F#32 = .instr (.fence 8 3 3 0 0) := by decide
theorem test_decode_ecall : decode 0x00000073#32 = .instr (.ecall) := by decide
theorem test_decode_ebreak : decode 0x00100073#32 = .instr (.ebreak) := by decide

/-! One word per format written bit by bit from the layouts of R84, with every field different. -/

-- imm20 = 0xABCDE, rd = 17: 10101011110011011110 10001 0110111
theorem test_bits_u : decode 0b10101011110011011110100010110111#32 = .instr (.lui 17 0xABCDE) := by decide
-- JAL, imm[20|10:1|11|19:12] = 1 0100100100 1 01010110, rd = 9: the offset is 1 01010110 1 0100100100 0
theorem test_bits_j :
    decode 0b10100100100101010110010011101111#32 = .instr (.jal 9 0b101010110101001001000#21) := by decide
-- BGE, imm[12|10:5] = 1 010011, rs2 = 18, rs1 = 5, imm[4:1|11] = 0110 1: the offset is 1 1 010011 0110 0
theorem test_bits_b : decode 0b10100111001000101101011011100011#32 = .instr (.bge 5 18 0b1101001101100#13) := by decide
-- ANDI, imm = 0xA53, rs1 = 21, rd = 10
theorem test_bits_i : decode 0b10100101001110101111010100010011#32 = .instr (.andi 10 21 0xA53) := by decide
-- LHU, imm = 0x7C1, rs1 = 3, rd = 28
theorem test_bits_load : decode 0b01111100000100011101111000000011#32 = .instr (.lhu 28 3 0x7C1) := by decide
-- SH, imm[11:5] = 1010010, rs2 = 30, rs1 = 12, imm[4:0] = 10011: the displacement is 0xA53
theorem test_bits_s : decode 0b10100101111001100001100110100011#32 = .instr (.sh 12 30 0xA53) := by decide
-- SRA, rs2 = 25, rs1 = 14, rd = 19
theorem test_bits_r : decode 0b01000001100101110101100110110011#32 = .instr (.sra 19 14 25) := by decide
-- FENCE, fm = 0101, pred = 1001, succ = 0110, rs1 = 11, rd = 13: legal, the reserved fields ignored (R204)
theorem test_bits_fence : decode 0b01011001011001011000011010001111#32 = .instr (.fence 5 9 6 11 13) := by decide

/-! The immediate wiring at the sign bits (section 2.2), the encoder on the same words, and the host's question. -/

theorem test_immediates_of_bit_31 :
    immJump (immJField 0x8000006F#32) = 0xFFF00000#32 ∧ immBranch (immBField 0x80000063#32) = 0xFFFFF000#32 ∧
    imm12 (immSField 0x80000023#32) = 0xFFFFF800#32 ∧ imm12 (immIField 0x80000013#32) = 0xFFFFF800#32 ∧
    immUpper (immUField 0x80000037#32) = 0x80000000#32 := by decide
theorem test_immediates_of_moved_bits :
    immJump (immJField 0x0010006F#32) = 0x800#32 ∧ immJump (immJField 0x0020006F#32) = 2#32 ∧
    immJump (immJField 0x0000106F#32) = 0x1000#32 ∧ immBranch (immBField 0x000000E3#32) = 0x800#32 ∧
    immBranch (immBField 0x40000063#32) = 0x400#32 ∧ imm12 (immSField 0x00000823#32) = 0x10#32 := by decide
theorem test_encode_words :
    encode (.jal 1 (-4)) = 0xFFDFF0EF#32 ∧ encode (.beq 0 0 4094) = 0x7E000FE3#32 ∧
    encode (.sb 0 0 2047) = 0x7E000FA3#32 ∧ encode (.fence 8 3 3 0 0) = 0x8330000F#32 := by decide
theorem test_encode_bytes_lowest_first :
    encodeBytes (.addi 5 6 (-1)) = [0x93#8, 0x02#8, 0xF3#8, 0xFF#8] := by decide
theorem test_table_word : decodeTableWord 32 0x007312B3 = some (.sll 5 6 7) ∧ decodeTableWord 32 0x0000100F = none := by
  decide

/-! ### Words that are not instructions (section 2.3) -/

/-- Every word of a list is illegal. -/
def allIllegal (ws : List Word) : Bool :=
  ws.all fun w => match decode w with
    | .illegal _ => true
    | .instr _ => false

theorem test_illegal_lengths : allIllegal [0x00000000, 0xFFFFFFFF, 0x00000001, 0x0000001F, 0x0000007F, 0x00000002] = true := by
  decide
theorem test_illegal_extensions :
    allIllegal [0x02B50533, 0x02B54533, 0x1005272F, 0x00052007, 0x0000100F, 0x0000200F, 0x0000001B, 0x0000003B,
      0x0000000B, 0x0000002B, 0x0000005B, 0x0000007B, 0x00000057, 0x00000043] = true := by decide
theorem test_illegal_system :
    allIllegal [0x34051073, 0xC0002573, 0x00003073, 0x00005073, 0x00006073, 0x00007073, 0x30200073, 0x10500073,
      0x00200073, 0x00008073, 0x000000F3, 0x00108073, 0x00004073] = true := by decide
theorem test_illegal_holes :
    allIllegal [0x00003003, 0x00006003, 0x00007003, 0x00003023, 0x00004023, 0x02001013, 0x40001013, 0x80005013,
      0x40001033, 0x20000033, 0x40007033, 0x00002063, 0x00003063, 0x00001067] = true := by decide
theorem test_illegal_reasons :
    decode 0x00000001#32 = .illegal .shortLengthCode ∧ decode 0x0000001F#32 = .illegal .longLengthCode ∧
    decode 0x0000000B#32 = .illegal (.otherMajorOpcode 0b0001011) ∧ decode 0x10500073#32 = .illegal .otherSystem := by decide

/-! ### One instruction from a stated state -/

/-- Main memory on [0x1000, 0x4000), everything else vacant: the map of section 3. -/
def testParams : Params :=
  { regions := [Region.mainRange 0x1000 0x3000], misaligned := .trap, fetchCoherent := false, eeResume := [] }

/-- The state of section 3: the word at `pc`, the two words of V-G in memory, the listed registers. -/
def start (w : Word) (regs : List (RegIdx × Word)) (pc : Word) : State :=
  let s : State := { State.reset with
    pc := pc
    params := testParams
    mem := Memory.writeBytes [] [(0x2000, 0xFF), (0x2001, 0xAA), (0x2002, 0x99), (0x2003, 0x88), (0x2004, 0x44),
      (0x2005, 0x33), (0x2006, 0x22), (0x2007, 0x11)] }
  placeWord (regs.foldl (fun s r => s.writeReg r.1 r.2) s) w

/-- `MISALIGNED_DATA = support`. -/
def supporting (s : State) : State :=
  { s with params := { s.params with misaligned := .support } }

/-- The answer is a next state that passes a check. -/
def nextMeets (r : Result) (check : State → Bool) : Bool :=
  match r with
  | .next t => check t
  | .fault _ => false
  | .refused _ => false

/-- The answer is a trap that ends the run with this record. -/
def traps (r : Result) (record : TrapRecord) : Bool :=
  match r with
  | .next _ => false
  | .fault (.trap c) => c == record
  | .refused _ => false

/-- The answer is this refusal. -/
def refuses (r : Result) (why : Refusal) : Bool :=
  match r with
  | .next _ => false
  | .fault _ => false
  | .refused c => c == why

/-- Register `r` holds `v` and `pc` is `p`. -/
def holds (r : RegIdx) (v p : Word) (t : State) : Bool :=
  t.readReg r == v && t.pc == p

/-- The 32-bit word of memory at `a` is `v`, and `pc` is 0x1004. -/
def memHolds (a : Nat) (v : Word) (t : State) : Bool :=
  wordOfBytes (Memory.readByte t.mem a) (Memory.readByte t.mem (a + 1)) (Memory.readByte t.mem (a + 2))
    (Memory.readByte t.mem (a + 3)) == v && t.pc == 0x1004#32

/-! V-A -/

theorem test_addi_wraps :
    nextMeets (step (start 0x00130293 [(6, 0x7FFFFFFF)] 0x1000)) (holds 5 0x80000000 0x1004) = true := by decide
theorem test_addi_into_its_source :
    nextMeets (step (start 0x00128293 [(5, 0xFFFFFFFF)] 0x1000)) (holds 5 0 0x1004) = true := by decide
theorem test_slti_most_negative :
    nextMeets (step (start 0xFFF32293 [(6, 0x80000000)] 0x1000)) (holds 5 1 0x1004) = true := by decide
theorem test_slti_equal : nextMeets (step (start 0xFFF32293 [(6, 0xFFFFFFFF)] 0x1000)) (holds 5 0 0x1004) = true := by decide
theorem test_sltiu_sign_extends_first :
    nextMeets (step (start 0xFFF33293 [(6, 0xFFFFFFFE)] 0x1000)) (holds 5 1 0x1004) = true := by decide
theorem test_sltiu_one_is_seqz : nextMeets (step (start 0x00133293 [(6, 0)] 0x1000)) (holds 5 1 0x1004) = true := by decide
theorem test_xori_complement :
    nextMeets (step (start 0xFFF34293 [(6, 0x0F0F0F0F)] 0x1000)) (holds 5 0xF0F0F0F0 0x1004) = true := by decide
theorem test_xori_positive :
    nextMeets (step (start 0x7FF34293 [(6, 0xFFFFFFFF)] 0x1000)) (holds 5 0xFFFFF800 0x1004) = true := by decide
theorem test_ori_sign_extends :
    nextMeets (step (start 0x80036293 [(6, 1)] 0x1000)) (holds 5 0xFFFFF801 0x1004) = true := by decide
theorem test_ori_positive :
    nextMeets (step (start 0x0F036293 [(6, 0x12345600)] 0x1000)) (holds 5 0x123456F0 0x1004) = true := by decide
theorem test_andi_sign_extends :
    nextMeets (step (start 0xFF037293 [(6, 0x12345678)] 0x1000)) (holds 5 0x12345670 0x1004) = true := by decide
theorem test_andi_positive :
    nextMeets (step (start 0x0FF37293 [(6, 0x12345678)] 0x1000)) (holds 5 0x78 0x1004) = true := by decide

/-! V-B -/

theorem test_slli_31 : nextMeets (step (start 0x01F31293 [(6, 3)] 0x1000)) (holds 5 0x80000000 0x1004) = true := by decide
theorem test_slli_by_zero :
    nextMeets (step (start 0x00031293 [(6, 0x80000001)] 0x1000)) (holds 5 0x80000001 0x1004) = true := by decide
theorem test_srli_1 :
    nextMeets (step (start 0x00135293 [(6, 0x80000001)] 0x1000)) (holds 5 0x40000000 0x1004) = true := by decide
theorem test_srli_31 : nextMeets (step (start 0x01F35293 [(6, 0x80000000)] 0x1000)) (holds 5 1 0x1004) = true := by decide
theorem test_srai_4 :
    nextMeets (step (start 0x40435293 [(6, 0x80000010)] 0x1000)) (holds 5 0xF8000001 0x1004) = true := by decide
theorem test_srai_31_positive :
    nextMeets (step (start 0x41F35293 [(6, 0x7FFFFFFF)] 0x1000)) (holds 5 0 0x1004) = true := by decide

/-! V-C -/

theorem test_lui : nextMeets (step (start 0x123452B7 [] 0x1000)) (holds 5 0x12345000 0x1004) = true := by decide
theorem test_lui_all_ones : nextMeets (step (start 0xFFFFF2B7 [] 0x1000)) (holds 5 0xFFFFF000 0x1004) = true := by decide
theorem test_auipc_wraps : nextMeets (step (start 0xFFFFF297 [] 0x1000)) (holds 5 0 0x1004) = true := by decide
theorem test_auipc_elsewhere : nextMeets (step (start 0x80000297 [] 0x1004)) (holds 5 0x80001004 0x1008) = true := by decide

/-! V-D -/

theorem test_add_carry_lost :
    nextMeets (step (start 0x007302B3 [(6, 0xFFFFFFFF), (7, 1)] 0x1000)) (holds 5 0 0x1004) = true := by decide
theorem test_add_doubles :
    nextMeets (step (start 0x005282B3 [(5, 0x80000001)] 0x1000)) (holds 5 2 0x1004) = true := by decide
theorem test_sub_borrow :
    nextMeets (step (start 0x407302B3 [(6, 0), (7, 1)] 0x1000)) (holds 5 0xFFFFFFFF 0x1004) = true := by decide
theorem test_sub_order :
    nextMeets (step (start 0x407302B3 [(6, 0x80000000), (7, 1)] 0x1000)) (holds 5 0x7FFFFFFF 0x1004) = true := by decide
theorem test_sll_by_32_is_by_0 :
    nextMeets (step (start 0x007312B3 [(6, 1), (7, 0x20)] 0x1000)) (holds 5 1 0x1004) = true := by decide
theorem test_sll_low_five_bits :
    nextMeets (step (start 0x007312B3 [(6, 1), (7, 0xFFFFFFE1)] 0x1000)) (holds 5 2 0x1004) = true := by decide
theorem test_slt_signed :
    nextMeets (step (start 0x007322B3 [(6, 0xFFFFFFFF), (7, 1)] 0x1000)) (holds 5 1 0x1004) = true := by decide
theorem test_slt_boundary :
    nextMeets (step (start 0x007322B3 [(6, 0x7FFFFFFF), (7, 0x80000000)] 0x1000)) (holds 5 0 0x1004) = true := by decide
theorem test_sltu_unsigned :
    nextMeets (step (start 0x007332B3 [(6, 0xFFFFFFFF), (7, 1)] 0x1000)) (holds 5 0 0x1004) = true := by decide
theorem test_sltu_snez : nextMeets (step (start 0x007032B3 [(7, 0x80000000)] 0x1000)) (holds 5 1 0x1004) = true := by decide
theorem test_xor :
    nextMeets (step (start 0x007342B3 [(6, 0xFF00FF00), (7, 0x0FF00FF0)] 0x1000)) (holds 5 0xF0F0F0F0 0x1004) = true := by decide
theorem test_srl_low_five_bits :
    nextMeets (step (start 0x007352B3 [(6, 0x80000000), (7, 0x24)] 0x1000)) (holds 5 0x08000000 0x1004) = true := by decide
theorem test_srl_31 :
    nextMeets (step (start 0x007352B3 [(6, 0x80000000), (7, 0x1F)] 0x1000)) (holds 5 1 0x1004) = true := by decide
theorem test_sra_low_five_bits :
    nextMeets (step (start 0x407352B3 [(6, 0x80000000), (7, 0x24)] 0x1000)) (holds 5 0xF8000000 0x1004) = true := by decide
theorem test_sra_positive :
    nextMeets (step (start 0x407352B3 [(6, 0x40000000), (7, 0x1E)] 0x1000)) (holds 5 1 0x1004) = true := by decide
theorem test_or :
    nextMeets (step (start 0x007362B3 [(6, 0xFF00FF00), (7, 0x0FF00FF0)] 0x1000)) (holds 5 0xFFF0FFF0 0x1004) = true := by decide
theorem test_and :
    nextMeets (step (start 0x007372B3 [(6, 0xFF00FF00), (7, 0x0FF00FF0)] 0x1000)) (holds 5 0x0F000F00 0x1004) = true := by decide
theorem test_and_into_x0 :
    nextMeets (step (start 0x00737033 [(6, 0xFF00FF00), (7, 0x0FF00FF0)] 0x1000)) (holds 0 0 0x1004) = true := by decide

/-! V-E -/

theorem test_jal_links : nextMeets (step (start 0xFFDFF0EF [] 0x1010)) (holds 1 0x1014 0x100C) = true := by decide
theorem test_jal_misaligned :
    traps (step (start 0x002000EF [] 0x1000)) ⟨.instructionAddressMisaligned, 0x1000, 0x1002⟩ = true := by decide
theorem test_jalr_source_is_link :
    nextMeets (step (start 0x000080E7 [(1, 0x3000)] 0x1000)) (holds 1 0x1004 0x3000) = true := by decide
theorem test_jalr_misaligned :
    traps (step (start 0x000300E7 [(6, 0x2003)] 0x1000)) ⟨.instructionAddressMisaligned, 0x1000, 0x2002⟩ = true := by decide

/-! V-F -/

theorem test_beq_taken : nextMeets (step (start 0x00730863 [(6, 5), (7, 5)] 0x1000)) (holds 7 5 0x1010) = true := by decide
theorem test_beq_misaligned :
    traps (step (start 0x00730163 [(6, 1), (7, 1)] 0x1000)) ⟨.instructionAddressMisaligned, 0x1000, 0x1002⟩ = true := by decide
theorem test_bne_taken :
    nextMeets (step (start 0x00731863 [(6, 0xFFFFFFFF), (7, 1)] 0x1000)) (holds 7 1 0x1010) = true := by decide
theorem test_bne_misaligned_not_taken :
    nextMeets (step (start 0x00001163 [(7, 2)] 0x1000)) (holds 7 2 0x1004) = true := by decide
theorem test_blt_signed_taken :
    nextMeets (step (start 0x00734863 [(6, 0xFFFFFFFF), (7, 1)] 0x1000)) (holds 7 1 0x1010) = true := by decide
theorem test_blt_signed_not_taken :
    nextMeets (step (start 0x00734863 [(6, 1), (7, 0xFFFFFFFF)] 0x1000)) (holds 6 1 0x1004) = true := by decide
theorem test_bge_equal_taken :
    nextMeets (step (start 0x00735863 [(6, 5), (7, 5)] 0x1000)) (holds 7 5 0x1010) = true := by decide
theorem test_bge_signed_not_taken :
    nextMeets (step (start 0x00735863 [(6, 0xFFFFFFFF), (7, 1)] 0x1000)) (holds 7 1 0x1004) = true := by decide
theorem test_bltu_unsigned_taken :
    nextMeets (step (start 0x00736863 [(6, 1), (7, 0xFFFFFFFF)] 0x1000)) (holds 6 1 0x1010) = true := by decide
theorem test_bltu_unsigned_not_taken :
    nextMeets (step (start 0x00736863 [(6, 0xFFFFFFFF), (7, 1)] 0x1000)) (holds 7 1 0x1004) = true := by decide
theorem test_bgeu_unsigned_taken :
    nextMeets (step (start 0x00737863 [(6, 0xFFFFFFFF), (7, 1)] 0x1000)) (holds 7 1 0x1010) = true := by decide
theorem test_bgeu_unsigned_not_taken :
    nextMeets (step (start 0x00737863 [(6, 1), (7, 0xFFFFFFFF)] 0x1000)) (holds 6 1 0x1004) = true := by decide

/-! V-G -/

theorem test_lb_sign :
    nextMeets (step (start 0x00130283 [(6, 0x2000)] 0x1000)) (holds 5 0xFFFFFFAA 0x1004) = true := by decide
theorem test_lb_below_memory :
    traps (step (start 0xFFF30283 [(6, 0x1000)] 0x1000)) ⟨.loadAccessFault, 0x1000, 0xFFF⟩ = true := by decide
theorem test_lbu : nextMeets (step (start 0x00334283 [(6, 0x2000)] 0x1000)) (holds 5 0x88 0x1004) = true := by decide
theorem test_lh_sign :
    nextMeets (step (start 0x00031283 [(6, 0x2000)] 0x1000)) (holds 5 0xFFFFAAFF 0x1004) = true := by decide
theorem test_lh_misaligned :
    traps (step (start 0x00131283 [(6, 0x2000)] 0x1000)) ⟨.loadAddressMisaligned, 0x1000, 0x2001⟩ = true := by decide
theorem test_lhu : nextMeets (step (start 0x00235283 [(6, 0x2000)] 0x1000)) (holds 5 0x8899 0x1004) = true := by decide
theorem test_lw_into_its_base :
    nextMeets (step (start 0x00032303 [(6, 0x2004)] 0x1000)) (holds 6 0x11223344 0x1004) = true := by decide
theorem test_lw_misaligned_before_access :
    traps (step (start 0xFFF32283 [(6, 0xFFE)] 0x1000)) ⟨.loadAddressMisaligned, 0x1000, 0xFFD⟩ = true := by decide

/-! V-H -/

theorem test_sb_one_byte :
    nextMeets (step (start 0x007301A3 [(6, 0x2000), (7, 0x12345678)] 0x1000)) (memHolds 0x2000 0x7899AAFF) = true := by decide
theorem test_sb_past_memory :
    traps (step (start 0x00730023 [(6, 0x4000), (7, 1)] 0x1000)) ⟨.storeAccessFault, 0x1000, 0x4000⟩ = true := by decide
theorem test_sh_two_bytes :
    nextMeets (step (start 0x00731123 [(6, 0x2000), (7, 0x12345678)] 0x1000)) (memHolds 0x2000 0x5678AAFF) = true := by decide
theorem test_sh_misaligned :
    traps (step (start 0x007310A3 [(6, 0x2000), (7, 0x12345678)] 0x1000)) ⟨.storeAddressMisaligned, 0x1000, 0x2001⟩ = true := by decide
theorem test_sw_positive_displacement :
    nextMeets (step (start 0x7E732FA3 [(6, 0x1805), (7, 0xCAFEBABE)] 0x1000)) (memHolds 0x2004 0xCAFEBABE) = true := by decide
theorem test_sw_misaligned_before_access :
    traps (step (start 0x007320A3 [(6, 0x3FFD), (7, 1)] 0x1000)) ⟨.storeAddressMisaligned, 0x1000, 0x3FFE⟩ = true := by decide

/-! V-I -/

theorem test_fence_ignores_reserved_fields :
    nextMeets (step (start 0x5FF1838F [(7, 9)] 0x1000)) (holds 7 9 0x1004) = true := by decide
theorem test_fence_tso_is_recorded :
    nextMeets (step (start 0x8330000F [] 0x1000)) (fun t => t.history == [.fence .tso 3 3] && t.pc == 0x1004#32) = true := by
  decide
theorem test_ecall : traps (step (start 0x00000073 [(6, 0x2000)] 0x1000)) ⟨.environmentCall, 0x1000, 0⟩ = true := by decide
theorem test_ebreak : traps (step (start 0x00100073 [(6, 0x2000)] 0x1000)) ⟨.breakpoint, 0x1000, 0⟩ = true := by decide
theorem test_illegal :
    traps (step (start 0x02B50533 [] 0x1000)) ⟨.illegalInstruction, 0x1000, 0x02B50533⟩ = true := by decide

/-! ### Misaligned accesses supported, and loads into x0 -/

theorem test_supported_misaligned_load :
    nextMeets (step (supporting (start 0x00132283 [(6, 0x2000)] 0x1000))) (holds 5 0x448899AA 0x1004) = true := by decide
theorem test_supported_misaligned_store :
    nextMeets (step (supporting (start 0x00732123 [(6, 0x2000), (7, 0x12345678)] 0x1000))) (memHolds 0x2004 0x11221234) = true := by decide
theorem test_supported_access_over_the_end :
    traps (step (supporting (start 0x00032283 [(6, 0x3FFE)] 0x1000))) ⟨.loadAccessFault, 0x1000, 0x3FFE⟩ = true := by decide
theorem test_load_into_x0_faults :
    traps (step (start 0x00032003 [(6, 0)] 0x1000)) ⟨.loadAccessFault, 0x1000, 0⟩ = true := by decide

/-! ### Fetch, map, environment (section 2.4 and rules R61, R66, R243, R244, R271) -/

theorem test_fetch_past_memory : traps (step { start 0x00000013 [] 0x1000 with pc := 0x4000 })
    ⟨.instructionAccessFault, 0x4000, 0x4000⟩ = true := by decide
theorem test_fetch_last_word : nextMeets (step (start 0x00000013 [] 0x3FFC)) (fun t => t.pc == 0x4000#32) = true := by decide
theorem test_pc_wraps :
    nextMeets (step ({ State.reset with pc := 0xFFFFFFFC }.withFetchWord 32 0x00000013)) (fun t => t.pc == 0#32) = true := by
  decide
theorem test_fetch_misaligned : traps (step { start 0x00000013 [] 0x1000 with pc := 0x1002 })
    ⟨.instructionAddressMisaligned, 0x1002, 0x1002⟩ = true := by decide

/-- A map that lets nothing be fetched. -/
def noExecute (s : State) : State :=
  { s with params := { s.params with regions := [{ Region.mainRange 0x1000 0x3000 with fetch := false }] } }

theorem test_fetch_without_permission :
    traps (step (noExecute (start 0x00000013 [] 0x1000))) ⟨.instructionAccessFault, 0x1000, 0x1000⟩ = true := by decide

/-- `sw x5, 0(x6)` over the next instruction, `x5` a NOP. -/
def selfModifying (coherent : Bool) : State :=
  let s := start 0x00532023 [(6, 0x1004), (5, 0x13)] 0x1000
  { s with params := { s.params with fetchCoherent := coherent } }

theorem test_fetch_of_stored_bytes_is_refused : refuses (runSteps 2 (selfModifying false)) .fetchOfStoredBytes = true := by
  decide
theorem test_coherent_fetch_of_stored_bytes :
    nextMeets (runSteps 2 (selfModifying true)) (fun t => t.pc == 0x1008#32 && t.dirty == [0x1004, 0x1005, 0x1006, 0x1007]) =
      true := by decide

/-- A map with the I/O range [0x8000, 0x9000) besides. -/
def withDevice (s : State) : State :=
  { s with params := { s.params with
      regions := [Region.mainRange 0x1000 0x3000, { Region.mainRange 0x8000 0x1000 with cls := .io }] } }

-- by hand from R61: an I/O load and store are recorded, memory stays, and a fetch from I/O is forbidden
theorem test_io_load_is_recorded :
    nextMeets (step (withDevice (start 0x00032283 [(6, 0x8000)] 0x1000))) (fun t => t.history == [.ioLoad 0x8000 4]) = true := by
  decide
theorem test_io_store_is_recorded :
    nextMeets (step (withDevice (start 0x00730023 [(6, 0x8001), (7, 0x1234)] 0x1000)))
      (fun t => t.history == [.ioStore 0x8001 1 0x34] && Memory.readByte t.mem 0x8001 == 0) = true := by decide
theorem test_io_misaligned_traps :
    traps (step (supporting (withDevice (start 0x00132283 [(6, 0x8000)] 0x1000)))) ⟨.loadAddressMisaligned, 0x1000, 0x8001⟩ =
      true := by decide
theorem test_io_fetch_forbidden :
    traps (step { withDevice (start 0x00000013 [] 0x1000) with pc := 0x8000 }) ⟨.instructionAccessFault, 0x8000, 0x8000⟩ =
      true := by decide

/-- The state in an environment that answers traps by these rows. -/
def inEnv (s : State) (rows : List EnvRule) : State :=
  { s with params := { s.params with eeResume := rows } }

/-- A row for every trap with this cause. -/
def onCause (cause : Option Cause) (reply : EnvReply) : EnvRule :=
  { cause := cause, epc := none, info := none, regs := none, mem := none, reply := reply }

/-- A service: 7 in `x10`, one byte of memory changed, and on at `pc'`. -/
def serve (x0 : Word) (pc : ResumePc) : EnvReply :=
  .resume x0 [(10, 7)] [(0x2000, 0x5A)] pc

/-- The environment of 95_test_vectors.md section 4, its last words: it resumes every trap at `epc + 4`, registers and memory
unchanged. -/
def resumeAll : List EnvRule :=
  [onCause none (.resume 0 [] [] (.afterEpc 4))]

theorem test_resume_serves_ecall :
    nextMeets (step (inEnv (start 0x00000073 [] 0x1000) [onCause (some .environmentCall) (serve 0 (.absolute 0x1004))]))
      (fun t => holds 10 7 0x1004 t && Memory.readByte t.mem 0x2000 == 0x5A && t.history == [.trap ⟨.environmentCall, 0x1000, 0⟩]) =
      true := by decide
theorem test_resume_leaves_other_causes :
    traps (step (inEnv (start 0x00100073 [] 0x1000) [onCause (some .environmentCall) (serve 0 (.absolute 0x1004))]))
      ⟨.breakpoint, 0x1000, 0⟩ = true := by decide
-- 95_test_vectors.md: after its EBREAK at 0x1014, P1 would continue at 0x1018, whose zero word traps with epc 0x1018, info 0
theorem test_resume_all_goes_on_after_the_trap :
    nextMeets (step (inEnv (start 0x00100073 [(6, 9)] 0x1014) resumeAll)) (fun t => holds 6 9 0x1018 t) = true := by decide
theorem test_resume_all_answers_the_next_trap :
    nextMeets (step (inEnv { start 0x00100073 [] 0x1014 with pc := 0x1018 } resumeAll))
      (fun t => t.pc == 0x101C && t.history == [.trap ⟨.illegalInstruction, 0x1018, 0⟩]) = true := by decide
theorem test_resume_by_registers_and_memory :
    let s := start 0x00100073 [(10, 3)] 0x1000
    let row : EnvRule := { onCause none .stop with regs := some s.regs, mem := some s.mem, reply := serve 0 (.afterEpc 4) }
    nextMeets (step (inEnv s [row])) (holds 10 7 0x1004) = true ∧
      traps (step (inEnv (s.writeReg 10 4) [row])) ⟨.breakpoint, 0x1000, 0⟩ = true := by decide
theorem test_resume_refuses_nonzero_x0 :
    refuses (step (inEnv (start 0x00100073 [] 0x1000) [onCause none (serve 1 (.afterEpc 4))])) .illegalResume = true := by decide
theorem test_resume_refuses_misaligned_pc :
    refuses (step (inEnv (start 0x00100073 [] 0x1000) [onCause none (serve 0 (.afterEpc 2))])) .illegalResume = true := by decide
theorem test_answer_stop :
    traps (step (inEnv (start 0x00100073 [] 0x1000) (onCause (some .breakpoint) .stop :: resumeAll))) ⟨.breakpoint, 0x1000, 0⟩ =
      true := by decide

/-- Launch arguments with a given `RESET_PC`. -/
def launchAt (pc : Word) : LaunchArgs :=
  { resetPc := pc, initX := Vector.replicate 31 7#32, initMem := [(0x1000, 0x13), (0x1000, 0x6F)], params := testParams }

theorem test_launch : nextMeets (launch (launchAt 0x1000))
    (fun t => holds 31 7 0x1000 t && t.readReg 0 == 0 && t.mem == [(0x1000, 0x6F)] && t.dirty == []) = true := by decide
theorem test_launch_misaligned : refuses (launch (launchAt 0x1002)) .misalignedResetPc = true := by decide
theorem test_write_of_zero_unlists : Memory.writeByte [(4, 0x13), (8, 1)] 4 0 = [(8, 1)] := by decide
theorem test_first_step_after_reset :
    nextMeets (step (State.reset.withFetchWord 32 0x123452B7)) (holds 5 0x12345000 0x1004) = true := by decide


/-! ### Witnesses: concrete values that meet the hypotheses of each statement, clause by clause -/

/-- What `nextMeets` shows, as a next state that exists. -/
theorem next_of {r : Result} {p : State → Prop} [DecidablePred p] (h : nextMeets r (fun t => decide (p t)) = true) :
    ∃ t, r = .next t ∧ p t := by
  cases r with
  | next t => exact ⟨t, rfl, of_decide_eq_true h⟩
  | fault f => exact absurd h Bool.false_ne_true
  | refused f => exact absurd h Bool.false_ne_true

/-- What `traps` shows. -/
theorem fault_of {r : Result} {c : TrapRecord} (h : traps r c = true) : r = .fault (.trap c) := by
  cases r with
  | next t => exact absurd h Bool.false_ne_true
  | fault f => cases f; rw [of_decide_eq_true h]
  | refused f => exact absurd h Bool.false_ne_true

/-- What `refuses` shows. -/
theorem refused_of {r : Result} {c : Refusal} (h : refuses r c = true) : r = .refused c := by
  cases r with
  | next t => exact absurd h Bool.false_ne_true
  | fault f => exact absurd h Bool.false_ne_true
  | refused f => rw [of_decide_eq_true h]

theorem test_witness_DecodeOfEncodeIsIdentity :
    (Instr.beq 31 0 (-4096)).wellFormed = true ∧ (Instr.jal 0 1048574).wellFormed = true ∧
      (Instr.fence 15 0 15 31 1).wellFormed = true := by decide
theorem test_witness_EncodeOfDecodeIsIdentity : decode 0x7FFFF0EF#32 = .instr (.jal 1 1048574) := by decide
theorem test_witness_DecoderAgreesWithOpcodeTable :
    decode 0x00737033#32 = .instr (.and 0 6 7) ∧ ∃ r ∈ opcodeRows, r.accepts 0x00737033#32 ∧ r.mnemonic = "AND" :=
  ⟨by decide, ⟨"AND", 0x00007033, 0xFE00707F⟩, by decide, by unfold OpcodeRow.accepts; decide, rfl⟩

/-- A fetchable state whose next word is `w`, for the statements that use `StepsIllegal`. -/
theorem fetchable_of {w : Word}
    (h : notFourAligned (start w [] 0x1000).pc = false ∧
      accessible (start w [] 0x1000).params (start w [] 0x1000).pc 4 .fetch = true ∧
      touchesDirty (start w [] 0x1000) (start w [] 0x1000).pc 4 = false ∧ fetchWord (start w [] 0x1000) = w) :
    ∃ s, Fetchable s ∧ fetchWord s = w :=
  ⟨start w [] 0x1000, ⟨h.1, h.2.1, .inr h.2.2.1⟩, h.2.2.2⟩

theorem test_witness_HolesOfTheOpcodesAreIllegal :
    (opcodeField 0x00007003#32 = 0b0000011#7 ∧ funct3Field 0x00007003#32 ∈ [0b011#3, 0b110#3, 0b111#3]) ∧
    (opcodeField 0x00003023#32 = 0b0100011#7 ∧
      funct3Field 0x00003023#32 ∈ [0b011#3, 0b100#3, 0b101#3, 0b110#3, 0b111#3]) ∧
    (opcodeField 0x00003063#32 = 0b1100011#7 ∧ funct3Field 0x00003063#32 ∈ [0b010#3, 0b011#3]) ∧
    (opcodeField 0x00001067#32 = 0b1100111#7 ∧ funct3Field 0x00001067#32 ≠ 0b000#3) ∧
    (opcodeField 0x02001013#32 = 0b0010011#7 ∧ funct3Field 0x02001013#32 = 0b001#3 ∧
      funct7Field 0x02001013#32 ≠ 0b0000000#7) ∧
    (opcodeField 0x80005013#32 = 0b0010011#7 ∧ funct3Field 0x80005013#32 = 0b101#3 ∧
      funct7Field 0x80005013#32 ∉ [0b0000000#7, 0b0100000#7]) ∧
    (opcodeField 0x02000033#32 = 0b0110011#7 ∧ funct7Field 0x02000033#32 ∉ [0b0000000#7, 0b0100000#7]) ∧
    (opcodeField 0x40007033#32 = 0b0110011#7 ∧ funct7Field 0x40007033#32 = 0b0100000#7 ∧
      funct3Field 0x40007033#32 ∉ [0b000#3, 0b101#3]) ∧
    (opcodeField 0x0000100F#32 = 0b0001111#7 ∧ funct3Field 0x0000100F#32 ≠ 0b000#3) ∧
    (opcodeField 0x00200073#32 = 0b1110011#7 ∧ 0x00200073#32 ≠ 0x00000073#32 ∧ 0x00200073#32 ≠ 0x00100073#32) ∧
    opcodeField 0xFFFFFFEF#32 ∈ [0b0110111#7, 0b0010111#7, 0b1101111#7] ∧
    ∃ s, Fetchable s ∧ fetchWord s = 0x00007003#32 :=
  ⟨by decide, by decide, by decide, by decide, by decide, by decide, by decide, by decide, by decide, by decide, by decide,
    fetchable_of (by decide)⟩

theorem test_witness_UnmatchedWordsRaiseIllegalInstruction :
    (∀ r ∈ opcodeRows, ¬r.accepts 0x0000007F#32) ∧ (∃ s, Fetchable s ∧ fetchWord s = 0x00000000#32) ∧
    (∃ s, Fetchable s ∧ fetchWord s = 0xFFFFFFFF#32) ∧
    opcodeField 0xFFFFFFFB#32 ∈ [0b0001011#7, 0b0101011#7, 0b1011011#7, 0b1111011#7] :=
  ⟨by unfold OpcodeRow.accepts; decide, fetchable_of (by decide), fetchable_of (by decide), by decide⟩

theorem test_witness_StepRunsDecodedInstruction :
    (Instr.sw 6 7 2047).wellFormed = true ∧ NextIs (start 0x7E732FA3 [] 0x3FFC) (.sw 6 7 2047) :=
  ⟨by decide, ⟨by decide, by decide, .inr (by decide)⟩, by decide⟩

theorem test_witness_FetchChecksInOrder :
    (∃ s : State, s.pc.toNat % 4 ≠ 0) ∧
    (let s := start 0x13 [] 0x4000;
      s.pc.toNat % 4 = 0 ∧ ∃ k < 4, perm s.params (byteAddr s.pc k) .fetch = false) ∧
    (let s := { start 0x13 [] 0x3FFC with dirty := [0x3FFF] };
      s.pc.toNat % 4 = 0 ∧ (∀ k < 4, perm s.params (byteAddr s.pc k) .fetch = true) ∧ s.params.fetchCoherent = false ∧
        ∃ k < 4, byteAddr s.pc k ∈ s.dirty) ∧
    (let s := start 0x13 [] 0x1000;
      s.pc.toNat % 4 = 0 ∧ (∀ k < 4, perm s.params (byteAddr s.pc k) .fetch = true) ∧
        (∀ k < 4, byteAddr s.pc k ∉ s.dirty) ∧ ∃ r ∈ opcodeRows, fetchWord s &&& r.mask = r.pattern) ∧
    (let s := start 0x7F [] 0x3FFC;
      s.pc.toNat % 4 = 0 ∧ (∀ k < 4, perm s.params (byteAddr s.pc k) .fetch = true) ∧
        (∀ k < 4, byteAddr s.pc k ∉ s.dirty) ∧ ∀ r ∈ opcodeRows, ¬fetchWord s &&& r.mask = r.pattern) ∧
    (let s := selfModifying true;
      s.pc.toNat % 4 = 0 ∧ (∀ k < 4, perm s.params (byteAddr s.pc k) .fetch = true) ∧ s.params.fetchCoherent = true) :=
  ⟨⟨{ State.reset with pc := 0x1003 }, by decide⟩, by decide, by decide, by decide, by decide, by decide⟩

theorem test_witness_PlacedWordIsRunNext :
    let s := { start 0 [] 0x3FFC with dirty := [0x3FFC] }
    s.pc.toNat % 4 = 0 ∧ (∀ k < 4, perm s.params (byteAddr s.pc k) .fetch = true) ∧
      decode 0x0000006F#32 = .instr (.jal 0 0) := by decide

theorem test_witness_StepRefusesOnlyAsSpecified :
    (∃ s, step s = .refused .fetchOfStoredBytes) ∧ ∃ s, step s = .refused .illegalResume :=
  ⟨⟨{ start 0x13 [] 0x1000 with dirty := [0x1003] }, refused_of (by decide)⟩,
    ⟨inEnv (start 0x73 [] 0x1000) [onCause none (serve 0 (.absolute 2))], refused_of (by decide)⟩⟩

theorem test_witness_FaultsAreTrapsOfTheCurrentInstruction :
    ∃ s, step s = .fault (.trap ⟨.storeAccessFault, 0x1000, 0x4000⟩) :=
  ⟨start 0x00730023 [(6, 0x4000)] 0x1000, fault_of (by decide)⟩

theorem test_witness_RaiseEndsTheRunByDefault :
    State.reset.params.eeResume = [] ∧
    (let s := inEnv (start 0x13 [] 0x1000) (onCause (some .breakpoint) .stop :: resumeAll);
      eeResume s.params ⟨.breakpoint, s.pc, 0⟩ s.regs s.mem = .stop) := by decide

theorem test_witness_ResumeContinuesFromTheGivenState :
    (let s := start 0x13 [(10, 3)] 0x1000;
      eeResume (inEnv s [onCause none (serve 0 (.absolute 0xFFFFFFFC))]).params ⟨.breakpoint, s.pc, 0⟩ s.regs s.mem =
          .resume 0 (s.writeReg 10 7).regs (Memory.writeByte s.mem 0x2000 0x5A) 0xFFFFFFFC ∧
        (0xFFFFFFFC : Word).toNat % 4 = 0 ∧
      eeResume (inEnv s [onCause none (serve 1 (.afterEpc 4))]).params ⟨.breakpoint, s.pc, 0⟩ s.regs s.mem =
          .resume 1 (s.writeReg 10 7).regs (Memory.writeByte s.mem 0x2000 0x5A) 0x1004 ∧ (1 : Word) ≠ 0 ∧
      eeResume (inEnv s [onCause none (serve 0 (.afterEpc 2))]).params ⟨.breakpoint, s.pc, 0⟩ s.regs s.mem =
          .resume 0 (s.writeReg 10 7).regs (Memory.writeByte s.mem 0x2000 0x5A) 0x1002 ∧ (0x1002 : Word).toNat % 4 ≠ 0) := by
  decide

/-- A second row that decides, with a register and an address written twice; and rows with each kind of `pc'`. -/
theorem test_witness_FirstRowForTheTrapDecides :
    let s := start 0x13 [] 0x1000
    let trap : TrapRecord := ⟨.environmentCall, 0x1000, 0⟩
    EnvRule.applies (onCause (some .breakpoint) .stop) trap s.regs s.mem = false ∧
    (∃ p : Params, p.eeResume = [onCause (some .breakpoint) .stop] ++ onCause (some .environmentCall)
      (.resume 1 [(31, 4), (31, 5), (0, 9)] [(0, 1), (0, 2), (0xFFFFFFFF, 3)] (.absolute 2)) :: resumeAll) ∧
    (∃ p : Params, p.eeResume = [] ++ { onCause none (.resume 0 [] [] (.afterEpc 4)) with
      epc := some 0x1000, info := some 0, regs := some s.regs, mem := some s.mem } :: []) ∧
    (∃ p : Params, p.eeResume = [] ++ onCause none .stop :: resumeAll) ∧
    [((31 : RegIdx), (4 : Word)), (31, 5), (0, 9)] = [(31, 4)] ++ (31, 5) :: [(0, 9)] ∧ (31 : RegIdx).toNat = 30 + 1 ∧
    (∀ w ∈ [((0 : RegIdx), (9 : Word))], w.1 ≠ 31) ∧
    [((0 : Word), (1 : Byte)), (0, 2), (0xFFFFFFFF, 3)] = [(0, 1)] ++ (0, 2) :: [(0xFFFFFFFF, 3)] ∧
    ∀ w ∈ [((0xFFFFFFFF : Word), (3 : Byte))], w.1 ≠ 0 := by
  refine ⟨by decide, ⟨{ testParams with eeResume := _ }, rfl⟩, ⟨{ testParams with eeResume := _ }, rfl⟩,
    ⟨{ testParams with eeResume := _ }, rfl⟩, rfl, by decide, by simp, rfl, by simp⟩

/-- An environment whose answer depends on every argument: a call goes on at `epc + 4` with `info` in `x12` when `x10` is the
byte of memory at `x11`, and else gives a bad state; every other cause stops. -/
theorem test_witness_EveryEnvironmentFunctionCanBeSupplied :
    let f : TrapRecord → Vector Word 31 → Memory → EnvAnswer := fun record regs m =>
      if record.cause = .environmentCall then
        if (regs[9]).toNat = (Memory.readByte m (regs[10]).toNat).toNat then .resume 0 (regs.set 11 record.info) m (record.epc + 4)
        else .resume 1 regs m 2
      else .stop
    (∀ record regs m x0 regs' m' pc, Memory.wf m → f record regs m = .resume x0 regs' m' pc → Memory.wf m') ∧
    (let s := start 0x13 [(10, 0x13), (11, 0x1000)] 0x1000;
      Memory.wf s.mem ∧ f ⟨.breakpoint, s.pc, 0⟩ s.regs s.mem = .stop ∧
        f ⟨.environmentCall, s.pc, 0⟩ s.regs s.mem = .resume 0 (s.writeReg 12 0).regs s.mem 0x1004) ∧
    (let s := start 0x13 [(10, 1), (11, 0x1000)] 0x1000;
      Memory.wf s.mem ∧ f ⟨.environmentCall, s.pc, 0⟩ s.regs s.mem = .resume 1 s.regs s.mem 2) := by
  refine ⟨fun record regs m x0 regs' m' pc hm h => ?_, by decide, by decide⟩
  dsimp only at h
  split at h
  · split at h <;> (cases h; exact hm)
  · cases h

/-- Every trap answered at `epc + 4`, and a run of two steps that meets a trap at each. -/
theorem test_witness_ResumingEnvironmentNeverEndsTheRun :
    let s := { inEnv (start 0x00100073 [] 0x1014) resumeAll with
      params := { testParams with eeResume := resumeAll, fetchCoherent := true } }
    Memory.wf s.mem ∧ (∀ record regs m, Memory.wf m → eeResume s.params record regs m ≠ .stop) ∧ s.pc.toNat % 4 = 0 ∧ s.params.fetchCoherent = true ∧
    (∀ record regs m, Memory.wf m → record.epc.toNat % 4 = 0 →
      ∃ regs' m' pc, eeResume s.params record regs m = .resume 0#32 regs' m' pc ∧ pc.toNat % 4 = 0) ∧
    ∃ t, runSteps 2 s = .next t ∧ t.resumptions = 2 := by
  refine ⟨by decide, fun record regs m _ h => EnvAnswer.noConfusion h, by decide, by decide, fun record regs m _ h => ?_, next_of (by decide)⟩
  refine ⟨_, _, _, rfl, ?_⟩
  have h4 : (4 : Word).toNat = 4 := rfl
  rw [ResumePc.address, BitVec.toNat_add, h4]
  omega

theorem test_witness_ComputationalInstructionsAlwaysComplete : (Instr.sra 31 31 31).computational = true := by decide

/-- The words that the `DecodesTo` parts of the computational statements speak of, one each with every free bit set. -/
theorem test_witness_words_computational :
    0xFFFF8F93#32 &&& 0x0000707F#32 = 0x00000013#32 ∧ 0xFFFFAF93#32 &&& 0x0000707F#32 = 0x00002013#32 ∧
    0xFFFFBF93#32 &&& 0x0000707F#32 = 0x00003013#32 ∧ 0xFFFFCF93#32 &&& 0x0000707F#32 = 0x00004013#32 ∧
    0xFFFFEF93#32 &&& 0x0000707F#32 = 0x00006013#32 ∧ 0xFFFFFF93#32 &&& 0x0000707F#32 = 0x00007013#32 ∧
    0x01FF9F93#32 &&& 0xFE00707F#32 = 0x00001013#32 ∧ 0x01FFDF93#32 &&& 0xFE00707F#32 = 0x00005013#32 ∧
    0x41FFDF93#32 &&& 0xFE00707F#32 = 0x40005013#32 ∧ 0xFFFFFFB7#32 &&& 0x0000007F#32 = 0x00000037#32 ∧
    0xFFFFFF97#32 &&& 0x0000007F#32 = 0x00000017#32 := by decide
theorem test_witness_words_register_register :
    0x01FF8FB3#32 &&& 0xFE00707F#32 = 0x00000033#32 ∧ 0x41FF8FB3#32 &&& 0xFE00707F#32 = 0x40000033#32 ∧
    0x01FFCFB3#32 &&& 0xFE00707F#32 = 0x00004033#32 ∧ 0x01FFEFB3#32 &&& 0xFE00707F#32 = 0x00006033#32 ∧
    0x01FFFFB3#32 &&& 0xFE00707F#32 = 0x00007033#32 ∧ 0x01FFAFB3#32 &&& 0xFE00707F#32 = 0x00002033#32 ∧
    0x01FFBFB3#32 &&& 0xFE00707F#32 = 0x00003033#32 ∧ 0x01FF9FB3#32 &&& 0xFE00707F#32 = 0x00001033#32 ∧
    0x01FFDFB3#32 &&& 0xFE00707F#32 = 0x00005033#32 ∧ 0x41FFDFB3#32 &&& 0xFE00707F#32 = 0x40005033#32 := by decide
theorem test_witness_words_control_transfer :
    0xFFFFFFEF#32 &&& 0x0000007F#32 = 0x0000006F#32 ∧ 0xFFFF8FE7#32 &&& 0x0000707F#32 = 0x00000067#32 ∧
    0xFFFF8FE3#32 &&& 0x0000707F#32 = 0x00000063#32 ∧ 0xFFFF9FE3#32 &&& 0x0000707F#32 = 0x00001063#32 ∧
    0xFFFFCFE3#32 &&& 0x0000707F#32 = 0x00004063#32 ∧ 0xFFFFDFE3#32 &&& 0x0000707F#32 = 0x00005063#32 ∧
    0xFFFFEFE3#32 &&& 0x0000707F#32 = 0x00006063#32 ∧ 0xFFFFFFE3#32 &&& 0x0000707F#32 = 0x00007063#32 := by decide
theorem test_witness_words_memory :
    0xFFFF8F83#32 &&& 0x0000707F#32 = 0x00000003#32 ∧ 0xFFFF9F83#32 &&& 0x0000707F#32 = 0x00001003#32 ∧
    0xFFFFAF83#32 &&& 0x0000707F#32 = 0x00002003#32 ∧ 0xFFFFCF83#32 &&& 0x0000707F#32 = 0x00004003#32 ∧
    0xFFFFDF83#32 &&& 0x0000707F#32 = 0x00005003#32 ∧ 0xFFFF8FA3#32 &&& 0x0000707F#32 = 0x00000023#32 ∧
    0xFFFF9FA3#32 &&& 0x0000707F#32 = 0x00001023#32 ∧ 0xFFFFAFA3#32 &&& 0x0000707F#32 = 0x00002023#32 ∧
    0xFFFF8F8F#32 &&& 0x0000707F#32 = 0x0000000F#32 := by decide

theorem test_witness_HintsChangeOnlyThePc :
    ((Instr.lui 0 0xFFFFF).computational = true ∧ (Instr.lui 0 0xFFFFF).destination = some 0) ∧
    ((0 : BitVec 4) = 0 ∨ (15 : BitVec 4) = 0) ∧ ((15 : BitVec 4) = 0 ∨ (0 : BitVec 4) = 0) := by decide

theorem test_witness_JalLinksAndJumps :
    (BitVec.ofInt 32 ((0x1000#32).toNat + (-1048576 : BitVec 21).toInt)).toNat % 4 = 0 ∧
    (BitVec.ofInt 32 ((0x1000#32).toNat + (1048574 : BitVec 21).toInt)).toNat % 4 ≠ 0 := by decide
theorem test_witness_JalrLinksAndJumps :
    let t (x : Word) (imm : BitVec 12) : Word := BitVec.ofInt 32 ((x.toNat + imm.toInt) / 2 * 2)
    (t 0 (-2048)).toNat % 4 = 0 ∧ (t 0xFFFFFFFF 2).toNat % 4 = 0 ∧ (t 0x2003 0).toNat % 4 ≠ 0 := by decide
theorem test_witness_EqualityBranches :
    (BitVec.ofInt 32 ((0x1000#32).toNat + (-4096 : BitVec 13).toInt)).toNat % 4 = 0 ∧
    (BitVec.ofInt 32 ((0x1000#32).toNat + (4094 : BitVec 13).toInt)).toNat % 4 ≠ 0 ∧
    (State.reset.readReg 0 = State.reset.readReg 31) ∧
    ¬(State.reset.writeReg 31 1).readReg 0 = (State.reset.writeReg 31 1).readReg 31 := by decide
theorem test_witness_OrderBranches :
    let s := State.reset.writeReg 6 0x80000000
    ((s.readReg 6).toInt < (s.readReg 7).toInt ∧ ¬(s.readReg 7).toInt < (s.readReg 6).toInt) ∧
    ((s.readReg 6).toInt ≤ (s.readReg 7).toInt ∧ ¬(s.readReg 7).toInt ≤ (s.readReg 6).toInt) ∧
    ((s.readReg 7).toNat < (s.readReg 6).toNat ∧ ¬(s.readReg 6).toNat < (s.readReg 7).toNat) ∧
    ((s.readReg 7).toNat ≤ (s.readReg 6).toNat ∧ ¬(s.readReg 6).toNat ≤ (s.readReg 7).toNat) ∧
    (BitVec.ofInt 32 (s.pc.toNat + (-4096 : BitVec 13).toInt)).toNat % 4 = 0 ∧
    (BitVec.ofInt 32 (s.pc.toNat + (4094 : BitVec 13).toInt)).toNat % 4 ≠ 0 := by decide

theorem test_witness_MisalignedTargetIsReportedOnTheJump :
    EnvStops State.reset ∧ (jalTarget State.reset 2).toNat % 4 ≠ 0 ∧ (jalrTarget State.reset 0 2047).toNat % 4 ≠ 0 ∧
    (branchTarget State.reset 4094).toNat % 4 ≠ 0 :=
  ⟨fun _ => rfl, by decide, by decide, by decide⟩

theorem test_witness_JumpToItselfRepeatsForEver : NextIs (start 0x0000006F [] 0x1000) (.jal 0 0) :=
  ⟨⟨by decide, by decide, .inr (by decide)⟩, by decide⟩

/-- Loads: every width at the last address of memory that holds it, and an I/O access. -/
theorem test_witness_LoadsReadAndExtendOrTrap_allowed :
    let s := start 0x13 [(6, 0x4000)] 0x1000
    AccessAllowed s (effectiveAddress s 6 (-1)) 1 .load ∧ AccessAllowed s (effectiveAddress s 6 (-2)) 2 .load ∧
    AccessAllowed s (effectiveAddress s 6 (-4)) 4 .load ∧ ¬AccessesIo s (effectiveAddress s 6 (-4)) 4 ∧
    AccessAllowed (supporting s) (effectiveAddress s 6 (-5)) 4 .load ∧
    AccessAllowed (withDevice s) 0x8FFC 4 .load ∧ AccessesIo (withDevice s) 0x8FFC 4 := by
  unfold AccessAllowed AccessesIo
  decide

theorem test_witness_LoadedBytesComeFromMemoryOrTheDevice :
    let s := withDevice State.reset
    classAt s.params (((0x3FFF : Word).toNat + 0) % 2 ^ 32) ≠ .io ∧
      classAt s.params (((0x8FFC : Word).toNat + 3) % 2 ^ 32) = .io := by
  decide

theorem test_witness_LoadsReadAndExtendOrTrap_trap :
    let s := start 0x13 [(6, 0x4000)] 0x1000
    AccessMisaligned s (effectiveAddress s 6 (-1)) 2 ∧ AccessMisaligned s (effectiveAddress s 6 (-2)) 4 ∧
    AccessMisaligned (supporting (withDevice s)) 0x8001 4 ∧
    perm s.params (effectiveAddress s 6 0).toNat .load = false ∧
    AccessForbidden s (effectiveAddress s 6 0) 2 .load ∧ AccessForbidden s (effectiveAddress s 6 0) 4 .load ∧
    AccessForbidden (supporting s) (effectiveAddress s 6 (-1)) 2 .load ∧
    AccessForbidden (supporting s) (effectiveAddress s 6 (-3)) 4 .load := by
  unfold AccessForbidden AccessMisaligned
  decide

/-- Stores: every width at the last address of memory that holds it, a supported misaligned one, and an I/O access. -/
theorem test_witness_StoresWriteLowBytesOrTrap_allowed :
    let s := start 0x13 [(6, 0x4000)] 0x1000
    AccessAllowed s (effectiveAddress s 6 (-1)) 1 .store ∧ AccessAllowed s (effectiveAddress s 6 (-2)) 2 .store ∧
    AccessAllowed s (effectiveAddress s 6 (-4)) 4 .store ∧ ¬AccessesIo s (effectiveAddress s 6 (-4)) 4 ∧
    AccessAllowed (supporting s) (effectiveAddress s 6 (-5)) 4 .store ∧
    AccessAllowed (withDevice s) 0x8FFC 4 .store ∧ AccessesIo (withDevice s) 0x8FFC 4 := by
  unfold AccessAllowed AccessesIo
  decide

theorem test_witness_StoresWriteLowBytesOrTrap_trap :
    let s := start 0x13 [(6, 0x4000)] 0x1000
    AccessMisaligned s (effectiveAddress s 6 (-1)) 2 ∧ AccessMisaligned s (effectiveAddress s 6 (-2)) 4 ∧
    perm s.params (effectiveAddress s 6 0).toNat .store = false ∧
    AccessForbidden s (effectiveAddress s 6 0) 2 .store ∧ AccessForbidden s (effectiveAddress s 6 0) 4 .store ∧
    AccessForbidden (supporting s) (effectiveAddress s 6 (-1)) 2 .store ∧
    AccessForbidden (supporting s) (effectiveAddress s 6 (-3)) 4 .store := by
  unfold AccessForbidden AccessMisaligned
  decide

theorem test_witness_IoAccessesAreRecorded :
    let s := withDevice (start 0x13 [(6, 0x9000), (7, 0x11223344)] 0x1000)
    (AccessesIo s (effectiveAddress s 6 (-1)) 1 ∧ AccessesIo s (effectiveAddress s 6 (-4)) 4) ∧
    (∃ t, exec (.lbu 5 6 (-1)) s = .next t ∧ SameEnv s t) ∧ ∃ t, exec (.sw 6 7 (-4)) s = .next t ∧ SameEnv s t :=
  ⟨by unfold AccessesIo; decide, next_of (by decide), next_of (by decide)⟩

theorem test_witness_MisalignedAccessesFollowTheParameter :
    let s := start 0x13 [(6, 0x4000)] 0x1000
    let u := supporting s
    let d := supporting (withDevice s)
    (s.params.misaligned = .trap ∧ (effectiveAddress s 6 (-1)).toNat % 2 = 1 ∧ (effectiveAddress s 6 (-2)).toNat % 4 ≠ 0) ∧
    (AccessesIo (withDevice (start 0x13 [(6, 0x9000)] 0x1000)) 0x8FFF 2 ∧ AccessesIo d 0x7FFD 4) ∧
    u.params.misaligned = .support ∧
    (¬AccessesIo u (effectiveAddress u 6 (-3)) 2 ∧
      (∀ k < 2, perm u.params (byteAddr (effectiveAddress u 6 (-3)) k) .load = true) ∧
      ∀ k < 2, perm u.params (byteAddr (effectiveAddress u 6 (-3)) k) .store = true) ∧
    (¬AccessesIo u (effectiveAddress u 6 (-1)) 2 ∧
      (∃ k < 2, perm u.params (byteAddr (effectiveAddress u 6 (-1)) k) .load = false) ∧
      ∃ k < 2, perm u.params (byteAddr (effectiveAddress u 6 (-1)) k) .store = false) ∧
    (¬AccessesIo u (effectiveAddress u 6 (-5)) 4 ∧
      (∀ k < 4, perm u.params (byteAddr (effectiveAddress u 6 (-5)) k) .load = true) ∧
      ∀ k < 4, perm u.params (byteAddr (effectiveAddress u 6 (-5)) k) .store = true) ∧
    ¬AccessesIo u (effectiveAddress u 6 (-3)) 4 ∧
      (∃ k < 4, perm u.params (byteAddr (effectiveAddress u 6 (-3)) k) .load = false) ∧
      ∃ k < 4, perm u.params (byteAddr (effectiveAddress u 6 (-3)) k) .store = false := by
  unfold AccessesIo
  decide

/-- A store to the last word of memory, after which each of its bytes, both halves and the word can be loaded. -/
theorem test_witness_StoredWordIsSeenByEveryWidth :
    let s := start 0x13 [(6, 0x4000), (7, 0x11223344)] 0x1000
    let a := effectiveAddress s 6 (-4)
    (∀ k < 4, classAt s.params (byteAddr a k) = .main) ∧ (∀ k < 4, perm s.params (byteAddr a k) .load = true) ∧
    ∃ t, exec (.sw 6 7 (-4)) s = .next t ∧ SameEnv s t ∧
      (effectiveAddress t 6 (-4) = a + BitVec.ofNat 32 0 ∧ effectiveAddress t 6 (-3) = a + BitVec.ofNat 32 1 ∧
        effectiveAddress t 6 (-2) = a + BitVec.ofNat 32 2 ∧ effectiveAddress t 6 (-1) = a + BitVec.ofNat 32 3) ∧
      (((effectiveAddress t 6 (-2)).toNat % 2 = 0 ∨
          (t.params.misaligned = .support ∧ ∀ k < 2, classAt t.params (byteAddr (effectiveAddress t 6 (-2)) k) ≠ .io)) ∧
        ∀ k < 2, perm t.params (byteAddr (effectiveAddress t 6 (-2)) k) .load = true) :=
  ⟨by decide, by decide, next_of (by decide)⟩

theorem test_witness_StoreThenFetchOfTheWord (coherent : Bool) :
    let s := selfModifying coherent
    let a := effectiveAddress s 6 0
    a.toNat % 4 = 0 ∧ (∀ k < 4, perm s.params (byteAddr a k) .fetch = true) ∧ s.params.fetchCoherent = coherent ∧
    ∃ t, exec (.sw 6 5 0) s = .next t ∧ SameEnv s t := by
  cases coherent
  · exact ⟨by decide, by decide, by decide, next_of (by decide)⟩
  · exact ⟨by decide, by decide, by decide, next_of (by decide)⟩

theorem test_witness_FenceIgnoresReservedFields :
    ¬((8 : BitVec 4) = 8 ∧ (3 : BitVec 4) = 3 ∧ (15 : BitVec 4) = 3) ∧ ¬((7 : BitVec 4) = 8 ∧ (3 : BitVec 4) = 3 ∧ (3 : BitVec 4) = 3) := by
  decide
theorem test_witness_FenceOnlyRecordsItself :
    ((8 : BitVec 4) = 8 ∧ (3 : BitVec 4) = 3 ∧ (3 : BitVec 4) = 3) ∧
      ¬((8 : BitVec 4) = 8 ∧ (1 : BitVec 4) = 3 ∧ (3 : BitVec 4) = 3) := by decide

theorem test_witness_EcallAndEbreakTrap : EnvStops State.reset := fun _ => rfl

theorem test_witness_EcallAndEbreakCompleteWhenServed :
    let s := inEnv (start 0x13 [] 0x1000) [onCause none (serve 0 (.absolute 0x1004))]
    ∃ regs mem, (0x1004 : Word).toNat % 4 = 0 ∧
      eeResume s.params ⟨.environmentCall, s.pc, 0#32⟩ s.regs s.mem = .resume 0#32 regs mem 0x1004 ∧
      eeResume s.params ⟨.breakpoint, s.pc, 0#32⟩ s.regs s.mem = .resume 0#32 regs mem 0x1004 :=
  ⟨_, _, by decide, rfl, rfl⟩

theorem test_witness_XZeroStaysZero :
    let s := start 0x13 [(6, 0x2000)] 0x1000
    (Instr.lw 0 6 0).destination = some 0#5 ∧ ∃ t, exec (.lw 0 6 0) s = .next t ∧ SameEnv s t :=
  ⟨by decide, next_of (by decide)⟩

theorem test_witness_InstructionFrame :
    let s := start 0x13 [(6, 0x3FFF)] 0x1000
    (Instr.sb 6 7 0).storeAt s = some (0x3FFF, 1) ∧ (Instr.sb 6 7 0).destination ≠ some 31 ∧
    (Instr.sb 6 7 0).transfersControl = false ∧ (∀ k < 1, byteAddr 0x3FFF k ≠ 0x4000) ∧
    (Instr.lbu 31 6 0).storeAt s = none ∧ (∃ t, exec (.sb 6 7 0) s = .next t ∧ SameEnv s t) ∧
    ∃ t, exec (.lbu 31 6 0) s = .next t ∧ SameEnv s t :=
  ⟨by decide, by decide, by decide, by decide, by decide, next_of (by decide), next_of (by decide)⟩

theorem test_witness_LaunchGivesEveryField :
    (launchAt 0x1002).resetPc.toNat % 4 ≠ 0 ∧ (launchAt 0xFFFFFFFC).resetPc.toNat % 4 = 0 ∧
    (launchAt 0xFFFFFFFC).initMem = [((0x1000 : Word), (0x13 : Byte))] ++ (0x1000, 0x6F) :: [] := by decide

theorem test_witness_LaunchMeetsInvariant :
    ∃ s, launch { launchAt 0x1000 with params := { testParams with eeResume := resumeAll } } = .next s ∧
      s.params.eeResume ≠ [] := next_of (by decide)

theorem test_witness_StepKeepsInvariant :
    let s := start 0x7E732FA3 [(6, 0x1801), (7, 5)] 0x1000
    State.Inv s ∧ ∃ t, step s = .next t ∧ t.dirty = [0x2000, 0x2001, 0x2002, 0x2003] :=
  ⟨⟨by decide, by decide, by decide, by decide⟩, next_of (by decide)⟩

/-- What `launchAt 0x1000` gives: a jump to itself. -/
def launched : State :=
  { State.reset with regs := Vector.replicate 31 7, mem := [(0x1000, 0x6F)], params := testParams }

theorem test_witness_PcIsAlignedInEveryReachableState :
    ∃ args s, launch args = .next s ∧ ∃ t, runSteps 3 s = .next t ∧ t.pc = 0x1000 :=
  have ⟨s, h, hs⟩ := next_of (r := launch (launchAt 0x1000)) (p := (· = launched)) (by decide)
  ⟨launchAt 0x1000, s, h, hs ▸ next_of (by decide)⟩

theorem test_witness_ParametersStayAndBookkeepingGrows :
    ∃ t, step (start 0x0FF0000F [] 0x1000) = .next t ∧ t.history ≠ [] := next_of (by decide)

/-- A store that changes the last byte of memory, in an environment that would resume a trap; the byte after it is vacant. -/
def storing : State :=
  inEnv (start 0x00730023 [(6, 0x3FFF), (7, 1)] 0x1000) resumeAll

theorem test_witness_UnstorableBytesNeverChange :
    classAt storing.params 0x4000 = .vacant ∧ perm storing.params 0x4000 .store = false ∧
      ∃ t, runSteps 1 storing = .next t ∧ t.resumptions = storing.resumptions ∧ t.dirty = [0x3FFF] :=
  ⟨by decide, by decide, next_of (by decide)⟩

theorem test_witness_ChangedBytesAreDirty :
    ∃ t, runSteps 1 storing = .next t ∧ t.resumptions = storing.resumptions ∧
      Memory.readByte t.mem 0x3FFF ≠ Memory.readByte storing.mem 0x3FFF := next_of (by decide)

/-- The state, and the same with another value in a vacant byte. -/
theorem indistinguishable_by_a_vacant_byte (rows : List EnvRule) :
    let s := inEnv (start 0x13 [] 0x1000) rows
    let t := { s with mem := Memory.writeByte s.mem 0x4000 1 }
    s ≠ t ∧ Memory.wf s.mem ∧ Memory.wf t.mem ∧ Indistinguishable s t := by
  have hmem : (start 0x13 [] 0x1000).mem ≠ Memory.writeByte (start 0x13 [] 0x1000).mem 0x4000 1 := by decide
  have hvacant : perm testParams 0x4000 .fetch = false ∧ perm testParams 0x4000 .load = false := by decide
  refine ⟨fun h => hmem (congrArg State.mem h), (by decide : Memory.wf (start 0x13 [] 0x1000).mem),
    (by decide : Memory.wf (Memory.writeByte (start 0x13 [] 0x1000).mem 0x4000 1)), rfl, rfl, rfl, rfl, rfl, fun a ha => ?_⟩
  refine (Memory.readByte_writeByte_ne (start 0x13 [] 0x1000).mem 1 ?_).symm
  rintro rfl
  rcases ha with ha | ha
  · exact Bool.false_ne_true (hvacant.1.symm.trans ha)
  · exact Bool.false_ne_true (hvacant.2.symm.trans ha)

/-- In an environment that resumes every trap. -/
theorem test_witness_InaccessibleMemoryIsNotLearned :
    let s := inEnv (start 0x13 [] 0x1000) resumeAll
    let t := { s with mem := Memory.writeByte s.mem 0x4000 1 }
    (s ≠ t ∧ Memory.wf s.mem ∧ Memory.wf t.mem ∧ Indistinguishable s t) ∧ EnvHides s.params :=
  ⟨indistinguishable_by_a_vacant_byte resumeAll, fun _ _ _ _ _ _ h => ⟨rfl, rfl, rfl, h⟩⟩

/-- In an environment that reads memory, but no vacant byte: it stops unless the byte at 0x2000 is 0. -/
theorem test_witness_InaccessibleMemoryIsNotLearned_readingMemory :
    ∃ rows, let s := inEnv (start 0x13 [] 0x1000) rows
      let t := { s with mem := Memory.writeByte s.mem 0x4000 1 }
      (s ≠ t ∧ Memory.wf s.mem ∧ Memory.wf t.mem ∧ Indistinguishable s t) ∧ EnvHides s.params ∧
      ∀ record regs, eeResume s.params record regs [] = .resume 0 regs [] (record.epc + 4) ∧
        eeResume s.params record regs [(0x2000, 1)] = .stop := by
  let f : TrapRecord → Vector Word 31 → Memory → EnvAnswer := fun record regs m =>
    if Memory.readByte m 0x2000 = 0 then .resume 0 regs m (record.epc + 4) else .stop
  obtain ⟨rows, h⟩ := exists_table f (fun record regs m x0 regs' m' pc hm h => by
    dsimp only [f] at h
    split at h <;> cases h
    exact hm)
  refine ⟨rows, indistinguishable_by_a_vacant_byte rows, fun record regs m m' hm hm' hv => ?_, fun record regs => ⟨?_, ?_⟩⟩
  · rw [h _ rfl record regs m hm, h _ rfl record regs m' hm']
    have h0 : Memory.readByte m 0x2000 = Memory.readByte m' 0x2000 := hv 0x2000 (.inl rfl)
    dsimp only [f]
    rw [h0]
    split
    · exact ⟨rfl, rfl, rfl, hv⟩
    · trivial
  · rw [h _ rfl record regs [] Memory.wf_nil]
    rfl
  · rw [h _ rfl record regs _ (by decide)]
    rfl

end Sys2Proof.Tests
end

section
/-!
PROOFS. The state (10_state.md): what an instruction that completes does to each part of the state, the invariant of the
machine, and the bookkeeping. `exec_next` and `step_next` say once how a next state comes about; every statement about
all instructions follows from the seven shapes of `Completes`.
-/

namespace Sys2Proof.Machine

/-! ### How a next state comes about -/

/-- The ways an instruction runs to its end without a trap, by the shape of its operation, each with the next state. -/
inductive Completes (s : State) (i : Instr) : State → Prop
  /-- LUI, AUIPC, OP-IMM, OP (R120). -/
  | computes (rd : RegIdx) (v : Word) (hdest : i.destination = some rd) (hstore : i.storeAt s = none) :
      Completes s i (s.writeReg rd v).advance
  /-- LOAD (R181). -/
  | loads (rd : RegIdx) (a : Word) (n : Nat) (v : Word) (hdest : i.destination = some rd)
      (hstore : i.storeAt s = none) (hallowed : AccessAllowed s a n .load) :
      Completes s i ((s.afterLoad a n).writeReg rd v).advance
  /-- STORE (R187). -/
  | stores (a : Word) (n : Nat) (v : Word) (hstore : i.storeAt s = some (a, n))
      (hallowed : AccessAllowed s a n .store) : Completes s i (s.afterStore a n v).advance
  /-- FENCE (R203). -/
  | fences (mode : FenceMode) (pred succ : BitVec 4) (hstore : i.storeAt s = none) :
      Completes s i (s.note (.fence mode pred succ)).advance
  /-- JAL and JALR to an aligned target (R161, R166). -/
  | jumps (rd : RegIdx) (target : Word) (hdest : i.destination = some rd) (hstore : i.storeAt s = none)
      (htransfer : i.transfersControl = true) (haligned : notFourAligned target = false) :
      Completes s i ((s.writeReg rd (linkValue s)).setPc target)
  /-- A branch taken to an aligned target (R163). -/
  | branches (target : Word) (hstore : i.storeAt s = none) (htransfer : i.transfersControl = true)
      (haligned : notFourAligned target = false) : Completes s i (s.setPc target)
  /-- A branch not taken (R163). -/
  | fallsThrough (hstore : i.storeAt s = none) : Completes s i s.advance

section
variable {s t : State} {i : Instr} {rd rs1 rs2 : RegIdx}

theorem completes_of_writeResult {v : Word} (hdest : i.destination = some rd) (hstore : i.storeAt s = none)
    (h : writeResult rd v s = .next t) : Completes s i t := by
  cases h
  exact .computes rd v hdest hstore

theorem jumpAndLink_next {target : Word} (hdest : i.destination = some rd) (hstore : i.storeAt s = none)
    (htransfer : i.transfersControl = true) (h : jumpAndLink rd target s = .next t) :
    (∃ c info, raise c info s = .next t) ∨ Completes s i t := by
  rcases jumpAndLink_cases rd target s with ⟨-, h'⟩ | ⟨haligned, h'⟩ <;> rw [h'] at h
  · exact .inl ⟨_, _, h⟩
  · cases h
    exact .inr (.jumps rd target hdest hstore htransfer haligned)

theorem branch_next {taken : Bool} {target : Word} (hstore : i.storeAt s = none)
    (htransfer : i.transfersControl = true) (h : branch taken target s = .next t) :
    (∃ c info, raise c info s = .next t) ∨ Completes s i t := by
  rcases branch_cases taken target s with ⟨-, h'⟩ | ⟨-, -, h'⟩ | ⟨-, haligned, h'⟩ <;> rw [h'] at h
  · cases h
    exact .inr (.fallsThrough hstore)
  · exact .inl ⟨_, _, h⟩
  · cases h
    exact .inr (.branches target hstore htransfer haligned)

theorem loadBytes_next {n : Nat} {value : (Nat → Byte) → Word} {imm : BitVec 12} (hdest : i.destination = some rd)
    (hstore : i.storeAt s = none) (h : loadBytes n value rd rs1 imm s = .next t) :
    (∃ c info, raise c info s = .next t) ∨ Completes s i t := by
  rcases loadBytes_cases n value rd rs1 imm s with ⟨-, h'⟩ | ⟨-, h'⟩ | ⟨hallowed, h'⟩ <;> rw [h'] at h
  · exact .inl ⟨_, _, h⟩
  · exact .inl ⟨_, _, h⟩
  · cases h
    exact .inr (.loads rd _ n _ hdest hstore hallowed)

theorem storeLow_next {n : Nat} {imm : BitVec 12} (hstore : i.storeAt s = some (effectiveAddress s rs1 imm, n))
    (h : storeLow n rs1 rs2 imm s = .next t) :
    (∃ c info, raise c info s = .next t) ∨ Completes s i t := by
  rcases storeLow_cases n rs1 rs2 imm s with ⟨-, h'⟩ | ⟨-, h'⟩ | ⟨hallowed, h'⟩ <;> rw [h'] at h
  · exact .inl ⟨_, _, h⟩
  · exact .inl ⟨_, _, h⟩
  · cases h
    exact .inr (.stores _ n _ hstore hallowed)

/-- An instruction that answers a next state raised a trap that was resumed, or completed in one of the seven ways. -/
theorem exec_next (h : exec i s = .next t) : (∃ c info, raise c info s = .next t) ∨ Completes s i t := by
  unfold exec at h
  cases i with
  | jal | jalr => exact jumpAndLink_next rfl rfl rfl h
  | beq | bne | blt | bge | bltu | bgeu => exact branch_next rfl rfl h
  | lb | lh | lw | lbu | lhu => exact loadBytes_next rfl rfl h
  | sb | sh | sw => exact storeLow_next rfl h
  | fence =>
    cases h
    exact .inr (.fences _ _ _ rfl)
  | ecall | ebreak => exact .inl ⟨_, _, h⟩
  | _ => exact .inr (completes_of_writeResult rfl rfl h)

/-- A step that answers a next state raised a trap that was resumed, or completed the instruction at `pc`. -/
theorem step_next (h : step s = .next t) :
    (∃ c info, raise c info s = .next t) ∨ ∃ i, NextIs s i ∧ Completes s i t := by
  rcases step_cases s with ⟨c, info, -, h'⟩ | ⟨-, h'⟩ | ⟨_, -, -, h'⟩ | ⟨i, hfetch, hdecode, h'⟩ <;> rw [h'] at h
  · exact .inl ⟨c, info, h⟩
  · cases h
  · exact .inl ⟨_, _, h⟩
  · exact (exec_next h).imp_right fun hc => ⟨i, ⟨hfetch, hdecode⟩, hc⟩

/-- An instruction that answers a next state without a resumed trap completed. -/
theorem completes_of_sameEnv (h : exec i s = .next t) (henv : SameEnv s t) : Completes s i t := by
  refine (exec_next h).resolve_left ?_
  rintro ⟨c, info, hr⟩
  have hgrown := (raise_next_resumptions hr).2
  have hsame := henv.2
  omega

/-! ### The frame of an instruction that completes -/

theorem Completes.readReg (h : Completes s i t) {r : RegIdx} (hr : i.destination ≠ some r) :
    t.readReg r = s.readReg r := by
  have hne {q : RegIdx} (hdest : i.destination = some q) : r ≠ q := fun hrq => hr (hrq ▸ hdest)
  have hzero : (if r = 0#5 then 0#32 else s.readReg r) = s.readReg r := by
    split
    · next h0 => rw [h0, State.readReg_zero]
    · rfl
  cases h with
  | computes rd v hdest => simp [State.readReg_writeReg, hne hdest, hzero]
  | loads rd a n v hdest => simp [State.readReg_writeReg, hne hdest, hzero]
  | stores => simp
  | fences => simp
  | jumps rd target hdest => simp [State.readReg_writeReg, hne hdest, hzero]
  | branches => simp
  | fallsThrough => simp

/-- An instruction that stores nothing leaves memory and `dirty` alone (R44). -/
theorem Completes.mem_dirty (h : Completes s i t) (hnone : i.storeAt s = none) :
    t.mem = s.mem ∧ t.dirty = s.dirty := by
  cases h with
  | stores a n v hstore => rw [hstore] at hnone; cases hnone
  | _ => simp

/-- An instruction that stores writes memory and `dirty` as its access says, and nowhere else (R57, R59). -/
theorem Completes.mem_dirty_store (h : Completes s i t) {a : Word} {n : Nat} (hsome : i.storeAt s = some (a, n)) :
    (∃ v, t.mem = storeBytes s.params s.mem a n v) ∧ t.dirty = dirtyAfterStore s.dirty a n := by
  cases h with
  | stores a n v hstore =>
    rw [hstore] at hsome
    cases hsome
    exact ⟨⟨v, by simp⟩, by simp⟩
  | computes _ _ _ hstore | loads _ _ _ _ _ hstore | fences _ _ _ hstore | jumps _ _ _ hstore | branches _ hstore
  | fallsThrough hstore => rw [hstore] at hsome; cases hsome

theorem Completes.pc (h : Completes s i t) (hno : i.transfersControl = false) : t.pc = s.pc + 4#32 := by
  cases h with
  | jumps _ _ _ _ htransfer => rw [htransfer] at hno; cases hno
  | branches _ _ htransfer => rw [htransfer] at hno; cases hno
  | _ => simp

theorem Completes.sameEnv (h : Completes s i t) : SameEnv s t := by
  cases h <;> exact ⟨by simp, by simp⟩

/-- An address is one that the instruction stored to, and then in `dirty`, or its byte is as before (R33). -/
theorem Completes.dirty_or_unchanged (h : Completes s i t) (b : Nat) :
    b ∈ t.dirty ∨ Memory.readByte t.mem b = Memory.readByte s.mem b := by
  cases hs : i.storeAt s with
  | none => exact .inr (by rw [(h.mem_dirty hs).1])
  | some access =>
    obtain ⟨⟨v, hmem⟩, hdirty⟩ := h.mem_dirty_store hs
    by_cases hb : ∃ k < access.2, byteAddr access.1 k = b
    · exact .inl (by rw [hdirty, mem_dirtyAfterStore]; exact .inr hb)
    · exact .inr (by rw [hmem, readByte_storeBytes_outside _ _ _ _ _ _ (by simpa using hb)])

theorem Completes.dirty_grows (h : Completes s i t) {b : Nat} (hb : b ∈ s.dirty) : b ∈ t.dirty := by
  cases hs : i.storeAt s with
  | none => rwa [(h.mem_dirty hs).2]
  | some access =>
    rw [(h.mem_dirty_store hs).2, mem_dirtyAfterStore]
    exact .inl hb

theorem Completes.history_grows (h : Completes s i t) : ∃ new, t.history = s.history ++ new := by
  cases h with
  | loads _ a n => exact ⟨_, by simpa using State.afterLoad_history s a n⟩
  | stores a n v => exact ⟨_, by simpa using State.afterStore_history s v a n⟩
  | fences => exact ⟨_, rfl⟩
  | _ => exact ⟨[], by simp⟩

/-! ### The invariant, kept by each update of the state -/

theorem notFourAligned_add_four {a : Word} (h : notFourAligned a = false) : notFourAligned (a + 4#32) = false := by
  rw [notFourAligned_eq_false_iff] at h ⊢
  rw [BitVec.toNat_add, BitVec.toNat_ofNat]
  omega

theorem State.Inv.setPc (h : State.Inv s) {target : Word} (ht : notFourAligned target = false) :
    State.Inv (s.setPc target) :=
  ⟨ht, h.memWf, h.dirtyRising, h.dirtyInRange⟩

theorem State.Inv.advance (h : State.Inv s) : State.Inv s.advance :=
  h.setPc (notFourAligned_add_four h.pcAligned)

theorem State.Inv.note (h : State.Inv s) (e : Event) : State.Inv (s.note e) :=
  ⟨h.pcAligned, h.memWf, h.dirtyRising, h.dirtyInRange⟩

theorem State.Inv.writeReg (h : State.Inv s) (r : RegIdx) (v : Word) : State.Inv (s.writeReg r v) :=
  ⟨by simpa using h.pcAligned, by simpa using h.memWf, by simpa using h.dirtyRising, by simpa using h.dirtyInRange⟩

theorem State.Inv.afterLoad (h : State.Inv s) (a : Word) (n : Nat) : State.Inv (s.afterLoad a n) :=
  ⟨by simpa using h.pcAligned, by simpa using h.memWf, by simpa using h.dirtyRising, by simpa using h.dirtyInRange⟩

theorem lt_of_mem_dirtyAfterStore {d : List Nat} (h : ∀ b ∈ d, b < 2 ^ 32) (a : Word) (n : Nat) :
    ∀ b ∈ dirtyAfterStore d a n, b < 2 ^ 32 := by
  intro b hb
  rcases (mem_dirtyAfterStore d a n b).1 hb with hb | ⟨k, -, rfl⟩
  · exact h b hb
  · exact byteAddr_lt a k

theorem State.Inv.afterStore (h : State.Inv s) (a : Word) (n : Nat) (v : Word) : State.Inv (s.afterStore a n v) where
  pcAligned := by simpa using h.pcAligned
  memWf := by rw [State.afterStore_mem]; exact Memory.wf_storeBytes h.memWf s.params a n v
  dirtyRising := by rw [State.afterStore_dirty]; exact pairwise_dirtyAfterStore h.dirtyRising a n
  dirtyInRange := by rw [State.afterStore_dirty]; exact lt_of_mem_dirtyAfterStore h.dirtyInRange a n

theorem Completes.inv (h : Completes s i t) (hs : State.Inv s) : State.Inv t := by
  cases h with
  | computes rd v => exact (hs.writeReg rd v).advance
  | loads rd a n v => exact ((hs.afterLoad a n).writeReg rd v).advance
  | stores a n v => exact (hs.afterStore a n v).advance
  | fences mode pred succ => exact (hs.note _).advance
  | jumps rd target _ _ _ haligned => exact (hs.writeReg rd _).setPc haligned
  | branches target _ _ haligned => exact hs.setPc haligned
  | fallsThrough => exact hs.advance

/-- What the environment gives when it resumes meets the invariant: a misaligned `pc'` is refused, and its writes keep
the canonical form (R244). -/
theorem raise_keeps_inv {c : Cause} {info : Word} (h : raise c info s = .next t) (hs : State.Inv s) : State.Inv t := by
  obtain ⟨regs, mem, pc, hanswer, hpc, rfl⟩ := raise_next h
  exact ⟨hpc, wf_of_eeResume hs.memWf hanswer, hs.dirtyRising, hs.dirtyInRange⟩

theorem step_keeps_inv (h : step s = .next t) (hs : State.Inv s) : State.Inv t := by
  rcases step_next h with ⟨c, info, hr⟩ | ⟨i, -, hc⟩
  · exact raise_keeps_inv hr hs
  · exact hc.inv hs

theorem runSteps_keeps_inv {k : Nat} (h : runSteps k s = .next t) (hs : State.Inv s) : State.Inv t :=
  runSteps_induct (fun _ _ hu huv => step_keeps_inv huv hu) hs h

/-- A launch that is not refused gives an aligned `pc`, the bytes of `init_mem` written to empty memory, and an empty
`dirty`. -/
theorem launch_meets_inv {args : LaunchArgs} (h : launch args = .next s) : State.Inv s ∧ s.params = args.params := by
  rcases launch_cases args with ⟨-, h'⟩ | ⟨haligned, h'⟩ <;> rw [h'] at h <;> cases h
  exact ⟨⟨haligned, Memory.wf_writeBytes Memory.wf_nil _, .nil, by simp⟩, rfl⟩

/-- The alignment check of the fetch fires on a misaligned `pc` alone (R58, R246). -/
theorem fetch_ne_misaligned (h : notFourAligned s.pc = false) (info : Word) :
    fetch s ≠ .raises .instructionAddressMisaligned info := by
  rcases fetch_cases s with ⟨hbad, -⟩ | ⟨-, -, h'⟩ | ⟨-, -, -, -, h'⟩ | ⟨-, h'⟩
  · rw [h] at hbad; cases hbad
  all_goals simp [h']

/-! ### Changed bytes along a run -/

/-- Since `s` the resumed traps have not become fewer, and if none was resumed, every byte that has changed is in
`dirty`. -/
def ChangesAreDirtySince (s u : State) : Prop :=
  s.resumptions ≤ u.resumptions ∧
    (u.resumptions = s.resumptions → ∀ b, b ∈ u.dirty ∨ Memory.readByte u.mem b = Memory.readByte s.mem b)

theorem changesAreDirtySince_refl (s : State) : ChangesAreDirtySince s s :=
  ⟨le_rfl, fun _ _ => .inr rfl⟩

theorem ChangesAreDirtySince.after_step {u v : State} (h : ChangesAreDirtySince s u) (huv : step u = .next v) :
    ChangesAreDirtySince s v := by
  obtain ⟨hle, hdirty⟩ := h
  rcases step_next huv with ⟨c, info, hr⟩ | ⟨i, -, hc⟩
  · have hgrown := (raise_next_resumptions hr).2
    exact ⟨by omega, fun hsame => by omega⟩
  · have hsame := hc.sameEnv.2
    refine ⟨by omega, fun hvs b => ?_⟩
    rcases hdirty (by omega) b with hb | hb
    · exact .inl (hc.dirty_grows hb)
    · exact (hc.dirty_or_unchanged b).imp_right (·.trans hb)

theorem runSteps_changesAreDirtySince {k : Nat} (h : runSteps k s = .next t) : ChangesAreDirtySince s t :=
  runSteps_induct (fun _ _ hu huv => hu.after_step huv) (changesAreDirtySince_refl s) h

/-! ### A word placed for the fetch -/

/-- A step at a fetchable instruction is the run of that instruction. -/
theorem step_of_nextIs (h : NextIs s i) : step s = exec i s := by
  obtain ⟨hfetch, hdecode⟩ := h
  rcases fetch_cases s with ⟨hbad, -⟩ | ⟨-, hbad, -⟩ | ⟨-, -, hincoherent, htouched, -⟩ | ⟨-, hword⟩
  · rw [hfetch.1] at hbad; cases hbad
  · rw [hfetch.2.1] at hbad; cases hbad
  · rcases hfetch.2.2 with hcoherent | huntouched
    · rw [hincoherent] at hcoherent; cases hcoherent
    · rw [htouched] at huntouched; cases huntouched
  · unfold step
    simp only [hword, hdecode]

end

section
variable (s : State) (w : Word) (r : RegIdx)

@[simp] theorem placeWord_pc : (placeWord s w).pc = s.pc := rfl
@[simp] theorem placeWord_history : (placeWord s w).history = s.history := rfl
@[simp] theorem placeWord_params : (placeWord s w).params = s.params := rfl
@[simp] theorem placeWord_readReg : (placeWord s w).readReg r = s.readReg r := rfl

/-- A word loaded from outside is not counted as stored to (log entry 14). -/
theorem touchesDirty_placeWord : touchesDirty (placeWord s w) s.pc 4 = false := by
  rw [← Bool.not_eq_true, touchesDirty_iff]
  rintro ⟨k, hk, hmem⟩
  have hclean : ∀ j < 4, byteAddr s.pc j ≠ byteAddr s.pc k := by simpa [placeWord] using (List.mem_filter.1 hmem).2
  exact hclean k hk rfl

theorem readByte_placeWord_outside {b : Nat} (hb : ∀ k < 4, byteAddr s.pc k ≠ b) :
    Memory.readByte (placeWord s w).mem b = Memory.readByte s.mem b := by
  have hne : ∀ k < 4, b ≠ byteAddr s.pc k := fun k hk => (hb k hk).symm
  simp [placeWord, List.range, List.range.loop, Memory.readByte_writeByte, hne]

theorem withFetchWord_toNat : s.withFetchWord 32 w.toNat = placeWord s w := by
  rw [State.withFetchWord, Nat.mod_eq_of_lt w.isLt, BitVec.ofNat_toNat, BitVec.setWidth_eq]

theorem fetchable_placeWord (hpc : s.pc.toNat % 4 = 0)
    (hperm : ∀ k < 4, perm s.params (byteAddr s.pc k) .fetch = true) : Fetchable (placeWord s w) :=
  ⟨(notFourAligned_eq_false_iff _).2 hpc, (accessible_iff _ _ _ _).2 hperm, .inr (touchesDirty_placeWord s w)⟩

end

/-! ### The statements -/

/-- Settles O53: each way a next state comes about keeps the invariant. -/
theorem stepKeepsInvariant : Obligations.StepKeepsInvariant :=
  fun _ _ hs h => step_keeps_inv h hs

/-- Settles O57, by induction over the run with `ChangesAreDirtySince`: traps resumed at its end count those resumed on
the way. -/
theorem changedBytesAreDirty : Obligations.ChangedBytesAreDirty := by
  intro s t k b hrun henv hchanged
  have hdirty := (runSteps_changesAreDirtySince hrun).2 henv b
  exact hdirty.resolve_right hchanged

/-- Settles O47: with destination `x0` the frame covers every other register, and `x0` reads 0 in both states. -/
theorem xZeroStaysZero : Obligations.XZeroStaysZero := by
  refine ⟨State.readReg_zero, fun i s t hdest h henv r => ?_⟩
  by_cases hr : r = 0#5
  · rw [hr, State.readReg_zero, State.readReg_zero]
  · refine (completes_of_sameEnv h henv).readReg ?_
    rw [hdest]
    exact fun h0 => hr (Option.some.inj h0).symm

/-- Settles O48, part by part from the frame of an instruction that completes. -/
theorem instructionFrame : Obligations.InstructionFrame := by
  intro i s t h henv
  have hc := completes_of_sameEnv h henv
  refine ⟨fun r hr => hc.readReg hr, fun hnone => ?_, fun a n hsome b hb => ?_, hc.pc⟩
  · obtain ⟨hmem, hdirty⟩ := hc.mem_dirty hnone
    exact ⟨fun b => by rw [hmem], hdirty⟩
  · obtain ⟨⟨v, hmem⟩, -⟩ := hc.mem_dirty_store hsome
    rw [hmem, readByte_storeBytes_outside _ _ _ _ _ _ hb]

/-- Settles O51. -/
theorem launchMeetsInvariant : Obligations.LaunchMeetsInvariant :=
  fun _ _ h => launch_meets_inv h

/-- Settles O54: the launch meets the invariant and the run keeps it. -/
theorem pcIsAlignedInEveryReachableState : Obligations.PcIsAlignedInEveryReachableState := by
  intro args s t k hlaunch hrun
  have haligned := (runSteps_keeps_inv hrun (launch_meets_inv hlaunch).1).pcAligned
  exact ⟨(notFourAligned_eq_false_iff t.pc).1 haligned, fetch_ne_misaligned haligned⟩

/-- Settles O55: a resumption adds its record to the history and keeps `dirty`; the other ways are the frame's. -/
theorem parametersStayAndBookkeepingGrows : Obligations.ParametersStayAndBookkeepingGrows := by
  intro s t h
  rcases step_next h with ⟨c, info, hr⟩ | ⟨i, -, hc⟩
  · obtain ⟨regs, mem, pc, -, -, rfl⟩ := raise_next hr
    exact ⟨rfl, ⟨_, rfl⟩, fun _ hb => hb⟩
  · exact ⟨hc.sameEnv.1, hc.history_grows, fun _ hb => hc.dirty_grows hb⟩

/-- Settles O10: the placed word is fetchable and is the word fetched. -/
theorem placedWordIsRunNext : Obligations.PlacedWordIsRunNext := by
  intro s w i hpc hperm hdecode
  rw [withFetchWord_toNat]
  have hnext : NextIs (placeWord s w) i :=
    ⟨fetchable_placeWord s w hpc hperm, by rw [fetchWord_placeWord, hdecode]⟩
  exact ⟨step_of_nextIs hnext, placeWord_readReg s w, placeWord_pc s w, placeWord_history s w,
    ⟨placeWord_params s w, State.placeWord_resumptions s w⟩, fun b hb => readByte_placeWord_outside s w hb⟩

/-- Settles O49. -/
theorem resetMeetsInvariant : Obligations.ResetMeetsInvariant where
  pcAligned := by decide
  memWf := Memory.wf_nil
  dirtyRising := .nil
  dirtyInRange := by simp [State.reset]

end Sys2Proof.Machine
end

section
/-!
PROOFS. Words, accesses and the fetch (20_memory.md): a word and its bytes as numbers, the loads and stores over their shared
operations, and each way of an access and of the fetch from the condition that leads to it.
-/

namespace Sys2Proof.Machine

/-! ### Words and their bytes, as numbers -/

/-- Byte `k` of a word is its digit `k` to the base 256 (R49). -/
theorem byteOf_toNat (w : Word) (k : Nat) : (byteOf w k).toNat = w.toNat / 2 ^ (8 * k) % 256 := by
  rw [byteOf, BitVec.extractLsb'_toNat, Nat.shiftRight_eq_div_pow]

theorem append_toNat {m n : Nat} (x : BitVec m) (y : BitVec n) : (x ++ y).toNat = x.toNat * 2 ^ n + y.toNat := by
  rw [BitVec.toNat_append, ← Nat.shiftLeft_add_eq_or_of_lt y.isLt, Nat.shiftLeft_eq]

theorem halfOfBytes_toNat (b0 b1 : Byte) : (halfOfBytes b0 b1).toNat = b1.toNat * 256 + b0.toNat := by
  simp only [halfOfBytes, append_toNat, Nat.reducePow]

theorem wordOfBytes_toNat (b0 b1 b2 b3 : Byte) : (wordOfBytes b0 b1 b2 b3).toNat =
    b3.toNat * 16777216 + b2.toNat * 65536 + b1.toNat * 256 + b0.toNat := by
  simp only [wordOfBytes, append_toNat]
  omega

/-- Two bytes of a word that follow each other are two digits to the base 256. -/
theorem halfOfBytes_byteOf_toNat (w : Word) (k : Nat) :
    (halfOfBytes (byteOf w k) (byteOf w (k + 1))).toNat = w.toNat / 2 ^ (8 * k) % 65536 := by
  have hnext : w.toNat / 2 ^ (8 * (k + 1)) = w.toNat / 2 ^ (8 * k) / 256 := by
    rw [Nat.div_div_eq_div_mul, show 256 = 2 ^ 8 from rfl, ← pow_add, Nat.mul_succ]
  rw [halfOfBytes_toNat, byteOf_toNat, byteOf_toNat, hnext]
  omega

/-! ### Addresses and bytes of an access -/

/-- The bytes of an access at an address of another access are bytes of that one (R54). -/
theorem byteAddr_add (a : Word) (j k : Nat) : byteAddr (a + BitVec.ofNat 32 j) k = byteAddr a (j + k) := by
  simp only [byteAddr, BitVec.toNat_add, BitVec.toNat_ofNat]
  omega

/-- I/O is never fetched (R61). -/
theorem classAt_ne_io_of_fetch {p : Params} {a : Nat} (h : perm p a .fetch = true) : classAt p a ≠ .io := by
  unfold perm at h
  unfold classAt
  split
  · simp
  · next r hr =>
    intro hio
    simp [hr, hio] at h

theorem loadedByte_memory {s : State} {a : Word} {k : Nat} (n : Nat) (h : classAt s.params (byteAddr a k) ≠ .io) :
    loadedByte s a n k = Memory.readByte s.mem (byteAddr a k) :=
  if_neg h

theorem loadedByte_device {s : State} {a : Word} {k : Nat} (n : Nat) (h : classAt s.params (byteAddr a k) = .io) :
    loadedByte s a n k = byteOf (Config.ioRead a n s.history) k :=
  if_pos h

/-! ### The loads and stores over their shared operations (R181, R187) -/

section
variable (rd rs1 rs2 : RegIdx) (imm : BitVec 12) (s : State)

theorem exec_lb : exec (.lb rd rs1 imm) s = loadBytes 1 (fun b => (b 0).signExtend 32) rd rs1 imm s := rfl
theorem exec_lh :
    exec (.lh rd rs1 imm) s = loadBytes 2 (fun b => (halfOfBytes (b 0) (b 1)).signExtend 32) rd rs1 imm s := rfl
theorem exec_lw :
    exec (.lw rd rs1 imm) s = loadBytes 4 (fun b => wordOfBytes (b 0) (b 1) (b 2) (b 3)) rd rs1 imm s := rfl
theorem exec_lbu : exec (.lbu rd rs1 imm) s = loadBytes 1 (fun b => (b 0).setWidth 32) rd rs1 imm s := rfl
theorem exec_lhu :
    exec (.lhu rd rs1 imm) s = loadBytes 2 (fun b => (halfOfBytes (b 0) (b 1)).setWidth 32) rd rs1 imm s := rfl
theorem exec_sb : exec (.sb rs1 rs2 imm) s = storeLow 1 rs1 rs2 imm s := rfl
theorem exec_sh : exec (.sh rs1 rs2 imm) s = storeLow 2 rs1 rs2 imm s := rfl
theorem exec_sw : exec (.sw rs1 rs2 imm) s = storeLow 4 rs1 rs2 imm s := rfl

end

/-! ### The three ways of an access, each from its condition -/

section
variable {s t : State} {a : Word} {n : Nat} {kind : AccessKind} {rd rs1 rs2 : RegIdx} {imm : BitVec 12}
  {value : (Nat → Byte) → Word}

/-- A byte access is never misaligned (R53). -/
theorem not_accessMisaligned_one (s : State) (a : Word) : ¬AccessMisaligned s a 1 := by
  simp [← misalignedRaises_iff]

/-- With misaligned accesses supported, only I/O makes one raise (R53). -/
theorem not_accessMisaligned_of_support (hsupport : s.params.misaligned = .support) (hio : ¬AccessesIo s a n) :
    ¬AccessMisaligned s a n := by
  rintro ⟨-, htrap | hio'⟩
  · rw [hsupport] at htrap
    cases htrap
  · exact hio hio'

/-- Whether an access passes its checks depends on nothing but the parameters. -/
theorem accessMisaligned_congr (h : t.params = s.params) : AccessMisaligned t a n ↔ AccessMisaligned s a n := by
  rw [AccessMisaligned, AccessMisaligned, h]

theorem accessAllowed_of_not_misaligned (h : ¬AccessMisaligned s a n)
    (hperm : ∀ k < n, perm s.params (byteAddr a k) kind = true) : AccessAllowed s a n kind := by
  rw [← misalignedRaises_iff, Bool.not_eq_true] at h
  exact (accessAllowed_iff s a n kind).2 ⟨h, (accessible_iff _ _ _ _).2 hperm⟩

theorem AccessAllowed.not_misaligned (h : AccessAllowed s a n kind) : ¬AccessMisaligned s a n := by
  rw [← misalignedRaises_iff, Bool.not_eq_true]
  exact ((accessAllowed_iff s a n kind).1 h).1

theorem loadBytes_of_misaligned (h : AccessMisaligned s (effectiveAddress s rs1 imm) n) :
    loadBytes n value rd rs1 imm s = raise .loadAddressMisaligned (effectiveAddress s rs1 imm) s := by
  simp [loadBytes, (misalignedRaises_iff _ _ _).2 h]

theorem loadBytes_of_forbidden (h : AccessForbidden s (effectiveAddress s rs1 imm) n .load) :
    loadBytes n value rd rs1 imm s = raise .loadAccessFault (effectiveAddress s rs1 imm) s := by
  simp [loadBytes, (accessForbidden_iff _ _ _ _).1 h]

theorem loadBytes_of_allowed (h : AccessAllowed s (effectiveAddress s rs1 imm) n .load) :
    loadBytes n value rd rs1 imm s = .next ((s.afterLoad (effectiveAddress s rs1 imm) n).writeReg rd
      (value (loadedByte s (effectiveAddress s rs1 imm) n))).advance := by
  simp [loadBytes, (accessAllowed_iff _ _ _ _).1 h]

theorem storeLow_of_misaligned (h : AccessMisaligned s (effectiveAddress s rs1 imm) n) :
    storeLow n rs1 rs2 imm s = raise .storeAddressMisaligned (effectiveAddress s rs1 imm) s := by
  simp [storeLow, (misalignedRaises_iff _ _ _).2 h]

theorem storeLow_of_forbidden (h : AccessForbidden s (effectiveAddress s rs1 imm) n .store) :
    storeLow n rs1 rs2 imm s = raise .storeAccessFault (effectiveAddress s rs1 imm) s := by
  simp [storeLow, (accessForbidden_iff _ _ _ _).1 h]

theorem storeLow_of_allowed (h : AccessAllowed s (effectiveAddress s rs1 imm) n .store) :
    storeLow n rs1 rs2 imm s =
      .next (s.afterStore (effectiveAddress s rs1 imm) n (s.readReg rs2)).advance := by
  simp [storeLow, (accessAllowed_iff _ _ _ _).1 h]

/-! A load or store that answers a next state without a resumed trap was allowed, and that state is the one after it. -/

theorem raise_not_sameEnv {c : Cause} {info : Word} (h : raise c info s = .next t) : ¬SameEnv s t := by
  rintro ⟨-, hsame⟩
  obtain ⟨-, hgrown⟩ := raise_next_resumptions h
  omega

theorem loadBytes_sameEnv (h : loadBytes n value rd rs1 imm s = .next t) (henv : SameEnv s t) :
    AccessAllowed s (effectiveAddress s rs1 imm) n .load ∧
      t = ((s.afterLoad (effectiveAddress s rs1 imm) n).writeReg rd
        (value (loadedByte s (effectiveAddress s rs1 imm) n))).advance := by
  rcases loadBytes_cases n value rd rs1 imm s with ⟨-, h'⟩ | ⟨-, h'⟩ | ⟨hallowed, h'⟩ <;> rw [h'] at h
  · exact absurd henv (raise_not_sameEnv h)
  · exact absurd henv (raise_not_sameEnv h)
  · cases h
    exact ⟨hallowed, rfl⟩

theorem storeLow_sameEnv (h : storeLow n rs1 rs2 imm s = .next t) (henv : SameEnv s t) :
    AccessAllowed s (effectiveAddress s rs1 imm) n .store ∧
      t = (s.afterStore (effectiveAddress s rs1 imm) n (s.readReg rs2)).advance := by
  rcases storeLow_cases n rs1 rs2 imm s with ⟨-, h'⟩ | ⟨-, h'⟩ | ⟨hallowed, h'⟩ <;> rw [h'] at h
  · exact absurd henv (raise_not_sameEnv h)
  · exact absurd henv (raise_not_sameEnv h)
  · cases h
    exact ⟨hallowed, rfl⟩

/-! An allowed access runs to its end. -/

theorem loadBytes_runs (h : AccessAllowed s (effectiveAddress s rs1 imm) n .load) :
    ∃ t, loadBytes n value rd rs1 imm s = .next t ∧ SameEnv s t :=
  ⟨_, loadBytes_of_allowed h, by simp, by simp⟩

theorem storeLow_runs (h : AccessAllowed s (effectiveAddress s rs1 imm) n .store) :
    ∃ t, storeLow n rs1 rs2 imm s = .next t ∧ SameEnv s t :=
  ⟨_, storeLow_of_allowed h, by simp, by simp⟩

/-- A byte access has two ways only. -/
theorem loadBytes_one (value : (Nat → Byte) → Word) (rd rs1 : RegIdx) (imm : BitVec 12) (s : State) :
    (∃ t, loadBytes 1 value rd rs1 imm s = .next t ∧ SameEnv s t) ∨
      loadBytes 1 value rd rs1 imm s = raise .loadAccessFault (effectiveAddress s rs1 imm) s := by
  rcases loadBytes_cases 1 value rd rs1 imm s with ⟨hmisaligned, -⟩ | ⟨-, h⟩ | ⟨hallowed, -⟩
  · exact absurd hmisaligned (not_accessMisaligned_one s _)
  · exact .inr h
  · exact .inl (loadBytes_runs hallowed)

theorem storeLow_one (rs1 rs2 : RegIdx) (imm : BitVec 12) (s : State) :
    (∃ t, storeLow 1 rs1 rs2 imm s = .next t ∧ SameEnv s t) ∨
      storeLow 1 rs1 rs2 imm s = raise .storeAccessFault (effectiveAddress s rs1 imm) s := by
  rcases storeLow_cases 1 rs1 rs2 imm s with ⟨hmisaligned, -⟩ | ⟨-, h⟩ | ⟨hallowed, -⟩
  · exact absurd hmisaligned (not_accessMisaligned_one s _)
  · exact .inr h
  · exact .inl (storeLow_runs hallowed)

/-! What an access that touches I/O leaves (R61). -/

theorem loadBytes_io_history (h : loadBytes n value rd rs1 imm s = .next t) (henv : SameEnv s t)
    (hio : AccessesIo s (effectiveAddress s rs1 imm) n) :
    t.history = s.history ++ [.ioLoad (effectiveAddress s rs1 imm) n] := by
  obtain ⟨-, rfl⟩ := loadBytes_sameEnv h henv
  simp [State.afterLoad_history, (touchesIo_iff _ _ _).2 hio]

theorem storeLow_io_history (h : storeLow n rs1 rs2 imm s = .next t) (henv : SameEnv s t)
    (hio : AccessesIo s (effectiveAddress s rs1 imm) n) :
    t.history = s.history ++ [.ioStore (effectiveAddress s rs1 imm) n (lowBytes (s.readReg rs2) n)] := by
  obtain ⟨-, rfl⟩ := storeLow_sameEnv h henv
  simp [State.afterStore_history, (touchesIo_iff _ _ _).2 hio]

theorem storeLow_io_bytes (h : storeLow n rs1 rs2 imm s = .next t) (henv : SameEnv s t) {b : Nat}
    (hb : classAt s.params b = .io) : Memory.readByte t.mem b = Memory.readByte s.mem b := by
  obtain ⟨-, rfl⟩ := storeLow_sameEnv h henv
  rw [State.advance_mem, State.afterStore_mem, readByte_storeBytes_io _ _ _ _ _ _ hb]

end

/-! ### A stored word, loaded and fetched -/

section
variable {s t : State} {rd rs1 rs2 r : RegIdx} {imm d : BitVec 12}

/-- An instruction that is a result and nothing else computes it (R120). -/
theorem computesTo_of_writeResult {i : Instr} {v : Word} (h : exec i s = writeResult rd v s) :
    ComputesTo i s rd v :=
  ⟨_, h, ⟨fun q => by rw [State.advance_readReg, State.readReg_writeReg], fun b => by simp, by simp, by simp, by simp⟩,
    by simp, by simp⟩

/-- A load of main memory is a result and nothing else (R42). -/
theorem loadBytes_of_main {n : Nat} {value : (Nat → Byte) → Word}
    (hallowed : AccessAllowed s (effectiveAddress s rs1 imm) n .load)
    (hmain : ¬AccessesIo s (effectiveAddress s rs1 imm) n) :
    loadBytes n value rd rs1 imm s = writeResult rd (value (loadedByte s (effectiveAddress s rs1 imm) n)) s := by
  have hio : touchesIo s.params (effectiveAddress s rs1 imm) n = false := by
    rw [← Bool.not_eq_true, touchesIo_iff]
    exact hmain
  rw [loadBytes_of_allowed hallowed, State.afterLoad_main _ _ _ hio, writeResult_eq]

/-- After a store, a byte of its access that is not I/O holds the byte of the value (R49, R57). -/
theorem readByte_of_stored {n : Nat} (hn : n ≤ 2 ^ 32) (h : storeLow n rs1 rs2 imm s = .next t) (henv : SameEnv s t)
    {k : Nat} (hk : k < n) (hio : classAt s.params (byteAddr (effectiveAddress s rs1 imm) k) ≠ .io) :
    Memory.readByte t.mem (byteAddr (effectiveAddress s rs1 imm) k) = byteOf (s.readReg rs2) k := by
  obtain ⟨-, rfl⟩ := storeLow_sameEnv h henv
  rw [State.advance_mem, State.afterStore_mem, readByte_storeBytes _ _ _ _ hn hk hio]

/-- After a word store to main memory, a load within the access reads the bytes of the stored word (R49, R54). -/
theorem loadedByte_of_stored_word (h : exec (.sw rs1 rs2 imm) s = .next t) (henv : SameEnv s t)
    (hmain : ∀ k < 4, classAt s.params (byteAddr (effectiveAddress s rs1 imm) k) = .main) (n : Nat) {j k : Nat}
    (hjk : j + k < 4) :
    loadedByte t (effectiveAddress s rs1 imm + BitVec.ofNat 32 j) n k = byteOf (s.readReg rs2) (j + k) := by
  have hio : classAt s.params (byteAddr (effectiveAddress s rs1 imm) (j + k)) ≠ .io := by simp [hmain _ hjk]
  rw [loadedByte_memory n (by rwa [byteAddr_add, henv.1]), byteAddr_add]
  exact readByte_of_stored (by decide) h henv hjk hio

/-- No byte of a load within the access of a word store to main memory is I/O. -/
theorem not_accessesIo_of_main {a : Word} (henv : SameEnv s t) (hmain : ∀ k < 4, classAt s.params (byteAddr a k) = .main)
    {j n : Nat} (hjn : j + n ≤ 4) : ¬AccessesIo t (a + BitVec.ofNat 32 j) n := by
  rintro ⟨k, hk, hio⟩
  rw [henv.1, byteAddr_add, hmain _ (by omega)] at hio
  cases hio

end

/-! ### The checks of the fetch, each from its condition (R58), and the step that follows -/

section
variable {s : State}

/-- `Fetchable`, byte by byte. -/
theorem fetchable_iff (s : State) : Fetchable s ↔ s.pc.toNat % 4 = 0 ∧
    (∀ k < 4, perm s.params (byteAddr s.pc k) .fetch = true) ∧
    (s.params.fetchCoherent = true ∨ ∀ k < 4, byteAddr s.pc k ∉ s.dirty) := by
  rw [Fetchable, notFourAligned_eq_false_iff, accessible_iff, ← Bool.not_eq_true, touchesDirty_iff]
  simp

theorem fetch_of_misaligned (h : notFourAligned s.pc = true) :
    fetch s = .raises .instructionAddressMisaligned s.pc := by
  simp [fetch, h]

theorem fetch_of_inaccessible (haligned : notFourAligned s.pc = false)
    (h : ∃ k < 4, perm s.params (byteAddr s.pc k) .fetch = false) :
    fetch s = .raises .instructionAccessFault s.pc := by
  have hinaccessible : accessible s.params s.pc 4 .fetch = false := by simpa [accessible] using h
  simp [fetch, haligned, hinaccessible]

theorem fetch_of_stored_bytes (haligned : notFourAligned s.pc = false)
    (hperm : ∀ k < 4, perm s.params (byteAddr s.pc k) .fetch = true) (hincoherent : s.params.fetchCoherent = false)
    (hdirty : ∃ k < 4, byteAddr s.pc k ∈ s.dirty) : fetch s = .refuses .fetchOfStoredBytes := by
  simp [fetch, haligned, (accessible_iff _ _ _ _).2 hperm, hincoherent, (touchesDirty_iff _ _ _).2 hdirty]

theorem fetch_of_fetchable (h : Fetchable s) : fetch s = .word (fetchWord s) := by
  obtain ⟨haligned, hperm, hclean⟩ := h
  rcases hclean with hclean | hclean <;> simp [fetch, haligned, hperm, hclean]

theorem step_of_fetch_raises {c : Cause} {info : Word} (h : fetch s = .raises c info) : step s = raise c info s := by
  simp only [step, h]

theorem step_of_fetch_refuses {why : Refusal} (h : fetch s = .refuses why) : step s = .refused why := by
  simp only [step, h]

theorem step_of_illegal {why : Illegal} (hfetch : Fetchable s) (h : decode (fetchWord s) = .illegal why) :
    step s = raise .illegalInstruction (fetchWord s) s := by
  simp only [step, fetch_of_fetchable hfetch, h]

end

end Sys2Proof.Machine
end

section
/-!
PROOFS. The decoder against the table of R95: each row is read as its instruction with the fields of the word, what is read
is the instruction that the word encodes, and a word of no row is illegal.
-/

namespace Sys2Proof

open Machine

/-! ### Each row of R95 -/

section
variable {pattern : Word} {i : Word → Instr}

/-- A field that the mask of a row covers is the field of the row's pattern. -/
theorem extractLsb'_of_masked {w mask : Word} (h : w &&& mask = pattern) {start len : Nat}
    (hmask : mask.extractLsb' start len = BitVec.allOnes len) :
    w.extractLsb' start len = pattern.extractLsb' start len := by
  rw [← h, BitVec.extractLsb'_and, hmask, BitVec.and_allOnes]

/-- A row of the U or J format fixes the opcode. -/
theorem decodesTo_of_opcode (op : BitVec 7) (hop : opcodeField pattern = op)
    (hdecode : ∀ w, opcodeField w = op → decode w = .instr (i w)) : DecodesTo pattern 0x0000007F#32 i :=
  fun w h => hdecode w ((extractLsb'_of_masked h rfl).trans hop)

/-- A row of the I, S or B format fixes the opcode and funct3. -/
theorem decodesTo_of_funct3 (op : BitVec 7) (f3 : BitVec 3) (hop : opcodeField pattern = op)
    (hf3 : funct3Field pattern = f3)
    (hdecode : ∀ w, opcodeField w = op → funct3Field w = f3 → decode w = .instr (i w)) :
    DecodesTo pattern 0x0000707F#32 i :=
  fun w h => hdecode w ((extractLsb'_of_masked h rfl).trans hop) ((extractLsb'_of_masked h rfl).trans hf3)

/-- A row of the R format, or of a shift by a constant, fixes the opcode, funct3 and funct7. -/
theorem decodesTo_of_funct7 (op : BitVec 7) (f3 : BitVec 3) (f7 : BitVec 7) (hop : opcodeField pattern = op)
    (hf3 : funct3Field pattern = f3) (hf7 : funct7Field pattern = f7)
    (hdecode : ∀ w, opcodeField w = op → funct3Field w = f3 → funct7Field w = f7 → decode w = .instr (i w)) :
    DecodesTo pattern 0xFE00707F#32 i :=
  fun w h => hdecode w ((extractLsb'_of_masked h rfl).trans hop) ((extractLsb'_of_masked h rfl).trans hf3)
    ((extractLsb'_of_masked h rfl).trans hf7)

/-- A row of SYSTEM is one word. -/
theorem decodesTo_of_word {j : Instr} (hdecode : decode pattern = .instr j) :
    DecodesTo pattern 0xFFFFFFFF#32 (fun _ => j) := by
  intro w h
  have hw : w = pattern := BitVec.and_allOnes.symm.trans h
  rw [hw, hdecode]

end

theorem decodesTo_lui : DecodesTo 0x00000037#32 0x0000007F#32 (fun w => .lui (rdField w) (immUField w)) :=
  decodesTo_of_opcode 0b0110111#7 rfl fun w hop => by simp only [decode, hop]

theorem decodesTo_auipc : DecodesTo 0x00000017#32 0x0000007F#32 (fun w => .auipc (rdField w) (immUField w)) :=
  decodesTo_of_opcode 0b0010111#7 rfl fun w hop => by simp only [decode, hop]

theorem decodesTo_jal : DecodesTo 0x0000006F#32 0x0000007F#32 (fun w => .jal (rdField w) (immJField w)) :=
  decodesTo_of_opcode 0b1101111#7 rfl fun w hop => by simp only [decode, hop]

theorem decodesTo_jalr :
    DecodesTo 0x00000067#32 0x0000707F#32 (fun w => .jalr (rdField w) (rs1Field w) (immIField w)) :=
  decodesTo_of_funct3 0b1100111#7 0b000#3 rfl rfl fun w hop hf3 => by simp only [decode, hop, decodeJalr, hf3]

theorem decodesTo_beq :
    DecodesTo 0x00000063#32 0x0000707F#32 (fun w => .beq (rs1Field w) (rs2Field w) (immBField w)) :=
  decodesTo_of_funct3 0b1100011#7 0b000#3 rfl rfl fun w hop hf3 => by simp only [decode, hop, decodeBranch, hf3]

theorem decodesTo_bne :
    DecodesTo 0x00001063#32 0x0000707F#32 (fun w => .bne (rs1Field w) (rs2Field w) (immBField w)) :=
  decodesTo_of_funct3 0b1100011#7 0b001#3 rfl rfl fun w hop hf3 => by simp only [decode, hop, decodeBranch, hf3]

theorem decodesTo_blt :
    DecodesTo 0x00004063#32 0x0000707F#32 (fun w => .blt (rs1Field w) (rs2Field w) (immBField w)) :=
  decodesTo_of_funct3 0b1100011#7 0b100#3 rfl rfl fun w hop hf3 => by simp only [decode, hop, decodeBranch, hf3]

theorem decodesTo_bge :
    DecodesTo 0x00005063#32 0x0000707F#32 (fun w => .bge (rs1Field w) (rs2Field w) (immBField w)) :=
  decodesTo_of_funct3 0b1100011#7 0b101#3 rfl rfl fun w hop hf3 => by simp only [decode, hop, decodeBranch, hf3]

theorem decodesTo_bltu :
    DecodesTo 0x00006063#32 0x0000707F#32 (fun w => .bltu (rs1Field w) (rs2Field w) (immBField w)) :=
  decodesTo_of_funct3 0b1100011#7 0b110#3 rfl rfl fun w hop hf3 => by simp only [decode, hop, decodeBranch, hf3]

theorem decodesTo_bgeu :
    DecodesTo 0x00007063#32 0x0000707F#32 (fun w => .bgeu (rs1Field w) (rs2Field w) (immBField w)) :=
  decodesTo_of_funct3 0b1100011#7 0b111#3 rfl rfl fun w hop hf3 => by simp only [decode, hop, decodeBranch, hf3]

theorem decodesTo_lb : DecodesTo 0x00000003#32 0x0000707F#32 (fun w => .lb (rdField w) (rs1Field w) (immIField w)) :=
  decodesTo_of_funct3 0b0000011#7 0b000#3 rfl rfl fun w hop hf3 => by simp only [decode, hop, decodeLoad, hf3]

theorem decodesTo_lh : DecodesTo 0x00001003#32 0x0000707F#32 (fun w => .lh (rdField w) (rs1Field w) (immIField w)) :=
  decodesTo_of_funct3 0b0000011#7 0b001#3 rfl rfl fun w hop hf3 => by simp only [decode, hop, decodeLoad, hf3]

theorem decodesTo_lw : DecodesTo 0x00002003#32 0x0000707F#32 (fun w => .lw (rdField w) (rs1Field w) (immIField w)) :=
  decodesTo_of_funct3 0b0000011#7 0b010#3 rfl rfl fun w hop hf3 => by simp only [decode, hop, decodeLoad, hf3]

theorem decodesTo_lbu :
    DecodesTo 0x00004003#32 0x0000707F#32 (fun w => .lbu (rdField w) (rs1Field w) (immIField w)) :=
  decodesTo_of_funct3 0b0000011#7 0b100#3 rfl rfl fun w hop hf3 => by simp only [decode, hop, decodeLoad, hf3]

theorem decodesTo_lhu :
    DecodesTo 0x00005003#32 0x0000707F#32 (fun w => .lhu (rdField w) (rs1Field w) (immIField w)) :=
  decodesTo_of_funct3 0b0000011#7 0b101#3 rfl rfl fun w hop hf3 => by simp only [decode, hop, decodeLoad, hf3]

theorem decodesTo_sb : DecodesTo 0x00000023#32 0x0000707F#32 (fun w => .sb (rs1Field w) (rs2Field w) (immSField w)) :=
  decodesTo_of_funct3 0b0100011#7 0b000#3 rfl rfl fun w hop hf3 => by simp only [decode, hop, decodeStore, hf3]

theorem decodesTo_sh : DecodesTo 0x00001023#32 0x0000707F#32 (fun w => .sh (rs1Field w) (rs2Field w) (immSField w)) :=
  decodesTo_of_funct3 0b0100011#7 0b001#3 rfl rfl fun w hop hf3 => by simp only [decode, hop, decodeStore, hf3]

theorem decodesTo_sw : DecodesTo 0x00002023#32 0x0000707F#32 (fun w => .sw (rs1Field w) (rs2Field w) (immSField w)) :=
  decodesTo_of_funct3 0b0100011#7 0b010#3 rfl rfl fun w hop hf3 => by simp only [decode, hop, decodeStore, hf3]

theorem decodesTo_addi :
    DecodesTo 0x00000013#32 0x0000707F#32 (fun w => .addi (rdField w) (rs1Field w) (immIField w)) :=
  decodesTo_of_funct3 0b0010011#7 0b000#3 rfl rfl fun w hop hf3 => by simp only [decode, hop, decodeOpImm, hf3]

theorem decodesTo_slti :
    DecodesTo 0x00002013#32 0x0000707F#32 (fun w => .slti (rdField w) (rs1Field w) (immIField w)) :=
  decodesTo_of_funct3 0b0010011#7 0b010#3 rfl rfl fun w hop hf3 => by simp only [decode, hop, decodeOpImm, hf3]

theorem decodesTo_sltiu :
    DecodesTo 0x00003013#32 0x0000707F#32 (fun w => .sltiu (rdField w) (rs1Field w) (immIField w)) :=
  decodesTo_of_funct3 0b0010011#7 0b011#3 rfl rfl fun w hop hf3 => by simp only [decode, hop, decodeOpImm, hf3]

theorem decodesTo_xori :
    DecodesTo 0x00004013#32 0x0000707F#32 (fun w => .xori (rdField w) (rs1Field w) (immIField w)) :=
  decodesTo_of_funct3 0b0010011#7 0b100#3 rfl rfl fun w hop hf3 => by simp only [decode, hop, decodeOpImm, hf3]

theorem decodesTo_ori :
    DecodesTo 0x00006013#32 0x0000707F#32 (fun w => .ori (rdField w) (rs1Field w) (immIField w)) :=
  decodesTo_of_funct3 0b0010011#7 0b110#3 rfl rfl fun w hop hf3 => by simp only [decode, hop, decodeOpImm, hf3]

theorem decodesTo_andi :
    DecodesTo 0x00007013#32 0x0000707F#32 (fun w => .andi (rdField w) (rs1Field w) (immIField w)) :=
  decodesTo_of_funct3 0b0010011#7 0b111#3 rfl rfl fun w hop hf3 => by simp only [decode, hop, decodeOpImm, hf3]

theorem decodesTo_slli :
    DecodesTo 0x00001013#32 0xFE00707F#32 (fun w => .slli (rdField w) (rs1Field w) (shamtField w)) :=
  decodesTo_of_funct7 0b0010011#7 0b001#3 0b0000000#7 rfl rfl rfl fun w hop hf3 hf7 => by
    simp only [decode, hop, decodeOpImm, hf3, hf7]

theorem decodesTo_srli :
    DecodesTo 0x00005013#32 0xFE00707F#32 (fun w => .srli (rdField w) (rs1Field w) (shamtField w)) :=
  decodesTo_of_funct7 0b0010011#7 0b101#3 0b0000000#7 rfl rfl rfl fun w hop hf3 hf7 => by
    simp only [decode, hop, decodeOpImm, hf3, hf7]

theorem decodesTo_srai :
    DecodesTo 0x40005013#32 0xFE00707F#32 (fun w => .srai (rdField w) (rs1Field w) (shamtField w)) :=
  decodesTo_of_funct7 0b0010011#7 0b101#3 0b0100000#7 rfl rfl rfl fun w hop hf3 hf7 => by
    simp only [decode, hop, decodeOpImm, hf3, hf7]

theorem decodesTo_add : DecodesTo 0x00000033#32 0xFE00707F#32 (fun w => .add (rdField w) (rs1Field w) (rs2Field w)) :=
  decodesTo_of_funct7 0b0110011#7 0b000#3 0b0000000#7 rfl rfl rfl fun w hop hf3 hf7 => by
    simp only [decode, hop, decodeOp, hf3, hf7]

theorem decodesTo_sub : DecodesTo 0x40000033#32 0xFE00707F#32 (fun w => .sub (rdField w) (rs1Field w) (rs2Field w)) :=
  decodesTo_of_funct7 0b0110011#7 0b000#3 0b0100000#7 rfl rfl rfl fun w hop hf3 hf7 => by
    simp only [decode, hop, decodeOp, hf3, hf7]

theorem decodesTo_sll : DecodesTo 0x00001033#32 0xFE00707F#32 (fun w => .sll (rdField w) (rs1Field w) (rs2Field w)) :=
  decodesTo_of_funct7 0b0110011#7 0b001#3 0b0000000#7 rfl rfl rfl fun w hop hf3 hf7 => by
    simp only [decode, hop, decodeOp, hf3, hf7]

theorem decodesTo_slt : DecodesTo 0x00002033#32 0xFE00707F#32 (fun w => .slt (rdField w) (rs1Field w) (rs2Field w)) :=
  decodesTo_of_funct7 0b0110011#7 0b010#3 0b0000000#7 rfl rfl rfl fun w hop hf3 hf7 => by
    simp only [decode, hop, decodeOp, hf3, hf7]

theorem decodesTo_sltu :
    DecodesTo 0x00003033#32 0xFE00707F#32 (fun w => .sltu (rdField w) (rs1Field w) (rs2Field w)) :=
  decodesTo_of_funct7 0b0110011#7 0b011#3 0b0000000#7 rfl rfl rfl fun w hop hf3 hf7 => by
    simp only [decode, hop, decodeOp, hf3, hf7]

theorem decodesTo_xor : DecodesTo 0x00004033#32 0xFE00707F#32 (fun w => .xor (rdField w) (rs1Field w) (rs2Field w)) :=
  decodesTo_of_funct7 0b0110011#7 0b100#3 0b0000000#7 rfl rfl rfl fun w hop hf3 hf7 => by
    simp only [decode, hop, decodeOp, hf3, hf7]

theorem decodesTo_srl : DecodesTo 0x00005033#32 0xFE00707F#32 (fun w => .srl (rdField w) (rs1Field w) (rs2Field w)) :=
  decodesTo_of_funct7 0b0110011#7 0b101#3 0b0000000#7 rfl rfl rfl fun w hop hf3 hf7 => by
    simp only [decode, hop, decodeOp, hf3, hf7]

theorem decodesTo_sra : DecodesTo 0x40005033#32 0xFE00707F#32 (fun w => .sra (rdField w) (rs1Field w) (rs2Field w)) :=
  decodesTo_of_funct7 0b0110011#7 0b101#3 0b0100000#7 rfl rfl rfl fun w hop hf3 hf7 => by
    simp only [decode, hop, decodeOp, hf3, hf7]

theorem decodesTo_or : DecodesTo 0x00006033#32 0xFE00707F#32 (fun w => .or (rdField w) (rs1Field w) (rs2Field w)) :=
  decodesTo_of_funct7 0b0110011#7 0b110#3 0b0000000#7 rfl rfl rfl fun w hop hf3 hf7 => by
    simp only [decode, hop, decodeOp, hf3, hf7]

theorem decodesTo_and : DecodesTo 0x00007033#32 0xFE00707F#32 (fun w => .and (rdField w) (rs1Field w) (rs2Field w)) :=
  decodesTo_of_funct7 0b0110011#7 0b111#3 0b0000000#7 rfl rfl rfl fun w hop hf3 hf7 => by
    simp only [decode, hop, decodeOp, hf3, hf7]

theorem decodesTo_fence :
    DecodesTo 0x0000000F#32 0x0000707F#32 (fun w => .fence (fmField w) (predField w) (succField w) (rs1Field w) (rdField w)) :=
  decodesTo_of_funct3 0b0001111#7 0b000#3 rfl rfl fun w hop hf3 => by simp only [decode, hop, decodeMiscMem, hf3]

theorem decodesTo_ecall : DecodesTo 0x00000073#32 0xFFFFFFFF#32 (fun _ => .ecall) :=
  decodesTo_of_word (by decide)

theorem decodesTo_ebreak : DecodesTo 0x00100073#32 0xFFFFFFFF#32 (fun _ => .ebreak) :=
  decodesTo_of_word (by decide)

/-- Every word of a row is read as the instruction that the row names. -/
def OpcodeRow.DecodesByName (r : OpcodeRow) : Prop :=
  ∀ w, r.accepts w → ∃ i, decode w = .instr i ∧ i.mnemonic = r.mnemonic

theorem Machine.DecodesTo.row {pattern mask : Word} {name : String} {i : Word → Instr} (h : DecodesTo pattern mask i)
    (hname : ∀ w, (i w).mnemonic = name) : OpcodeRow.DecodesByName ⟨name, pattern, mask⟩ :=
  fun w haccepts => ⟨i w, h w haccepts, hname w⟩

theorem decodesByName_of_mem : ∀ r ∈ opcodeRows, r.DecodesByName := by
  simp only [opcodeRows, opcodeRowsA, opcodeRowsB, List.cons_append, List.nil_append, List.forall_mem_cons]
  exact ⟨
    decodesTo_lui.row fun _ => rfl, decodesTo_auipc.row fun _ => rfl, decodesTo_jal.row fun _ => rfl,
    decodesTo_jalr.row fun _ => rfl, decodesTo_beq.row fun _ => rfl, decodesTo_bne.row fun _ => rfl,
    decodesTo_blt.row fun _ => rfl, decodesTo_bge.row fun _ => rfl, decodesTo_bltu.row fun _ => rfl,
    decodesTo_bgeu.row fun _ => rfl, decodesTo_lb.row fun _ => rfl, decodesTo_lh.row fun _ => rfl,
    decodesTo_lw.row fun _ => rfl, decodesTo_lbu.row fun _ => rfl, decodesTo_lhu.row fun _ => rfl,
    decodesTo_sb.row fun _ => rfl, decodesTo_sh.row fun _ => rfl, decodesTo_sw.row fun _ => rfl,
    decodesTo_addi.row fun _ => rfl, decodesTo_slti.row fun _ => rfl, decodesTo_sltiu.row fun _ => rfl,
    decodesTo_xori.row fun _ => rfl, decodesTo_ori.row fun _ => rfl, decodesTo_andi.row fun _ => rfl,
    decodesTo_slli.row fun _ => rfl, decodesTo_srli.row fun _ => rfl, decodesTo_srai.row fun _ => rfl,
    decodesTo_add.row fun _ => rfl, decodesTo_sub.row fun _ => rfl, decodesTo_sll.row fun _ => rfl,
    decodesTo_slt.row fun _ => rfl, decodesTo_sltu.row fun _ => rfl, decodesTo_xor.row fun _ => rfl,
    decodesTo_srl.row fun _ => rfl, decodesTo_sra.row fun _ => rfl, decodesTo_or.row fun _ => rfl,
    decodesTo_and.row fun _ => rfl, decodesTo_fence.row fun _ => rfl, decodesTo_ecall.row fun _ => rfl,
    decodesTo_ebreak.row fun _ => rfl, List.forall_mem_nil _⟩

/-! ### What is read is what the word encodes -/

section
variable {w : Word} {i : Instr}

theorem encode_of_decodeJalr (hop : opcodeField w = 0b1100111#7) (h : decodeJalr w = .instr i) :
    i.wellFormed = true ∧ encode i = w := by
  unfold decodeJalr at h
  split at h <;> cases h
  next hf3 => exact ⟨rfl, by rw [encode, ← hf3, ← hop, encodeI_fields]⟩

theorem encode_of_decodeBranch (hop : opcodeField w = 0b1100011#7) (h : decodeBranch w = .instr i) :
    i.wellFormed = true ∧ encode i = w := by
  unfold decodeBranch at h
  split at h <;> cases h
  all_goals next hf3 => exact ⟨evenOffset_immBField w, by rw [encode, ← hf3, ← hop, encodeB_fields]⟩

theorem encode_of_decodeLoad (hop : opcodeField w = 0b0000011#7) (h : decodeLoad w = .instr i) :
    i.wellFormed = true ∧ encode i = w := by
  unfold decodeLoad at h
  split at h <;> cases h
  all_goals next hf3 => exact ⟨rfl, by rw [encode, ← hf3, ← hop, encodeI_fields]⟩

theorem encode_of_decodeStore (hop : opcodeField w = 0b0100011#7) (h : decodeStore w = .instr i) :
    i.wellFormed = true ∧ encode i = w := by
  unfold decodeStore at h
  split at h <;> cases h
  all_goals next hf3 => exact ⟨rfl, by rw [encode, ← hf3, ← hop, encodeS_fields]⟩

/-- OP-IMM has the I format, but for the shifts, which have fixed bits where `funct7` stands. -/
theorem encode_of_decodeOpImm (hop : opcodeField w = 0b0010011#7) (h : decodeOpImm w = .instr i) :
    i.wellFormed = true ∧ encode i = w := by
  have hshift {f3 : BitVec 3} {f7 : BitVec 7} (hf3 : funct3Field w = f3) (hf7 : funct7Field w = f7) :
      encodeR f7 (shamtField w) (rs1Field w) f3 (rdField w) 0b0010011#7 = w := by
    rw [shamtField_eq_rs2Field, ← hf3, ← hf7, ← hop, encodeR_fields]
  unfold decodeOpImm at h
  split at h
  case h_7 hf3 =>
    split at h <;> cases h
    next hf7 => exact ⟨rfl, hshift hf3 hf7⟩
  case h_8 hf3 =>
    split at h <;> cases h
    all_goals next hf7 => exact ⟨rfl, hshift hf3 hf7⟩
  case h_9 => cases h
  all_goals next hf3 =>
    cases h
    exact ⟨rfl, by rw [encode, ← hf3, ← hop, encodeI_fields]⟩

theorem encode_of_decodeOp (hop : opcodeField w = 0b0110011#7) (h : decodeOp w = .instr i) :
    i.wellFormed = true ∧ encode i = w := by
  have hfields {f3 : BitVec 3} {f7 : BitVec 7} (hf3 : funct3Field w = f3) (hf7 : funct7Field w = f7) :
      encodeR f7 (rs2Field w) (rs1Field w) f3 (rdField w) 0b0110011#7 = w := by
    rw [← hf3, ← hf7, ← hop, encodeR_fields]
  unfold decodeOp at h
  split at h
  case h_3 => cases h
  all_goals next hf7 =>
    split at h <;> cases h
    all_goals next hf3 => exact ⟨rfl, hfields hf3 hf7⟩

theorem encode_of_decodeMiscMem (hop : opcodeField w = 0b0001111#7) (h : decodeMiscMem w = .instr i) :
    i.wellFormed = true ∧ encode i = w := by
  unfold decodeMiscMem at h
  split at h <;> cases h
  next hf3 => exact ⟨rfl, by rw [encode, fenceFields_append, ← hf3, ← hop, encodeI_fields]⟩

theorem encode_of_decodeSystem (h : decodeSystem w = .instr i) : i.wellFormed = true ∧ encode i = w := by
  unfold decodeSystem at h
  split at h <;> cases h
  all_goals exact ⟨rfl, rfl⟩

/-- The decoder drops no bit of the word (R94, R98). -/
theorem encode_of_decode (h : decode w = .instr i) : i.wellFormed = true ∧ encode i = w := by
  unfold decode at h
  split at h
  case h_1 hop | h_2 hop =>
    cases h
    exact ⟨rfl, by rw [encode, ← hop, encodeU_fields]⟩
  case h_3 hop =>
    cases h
    exact ⟨evenOffset_immJField w, by rw [encode, ← hop, encodeJ_fields]⟩
  case h_4 hop => exact encode_of_decodeJalr hop h
  case h_5 hop => exact encode_of_decodeBranch hop h
  case h_6 hop => exact encode_of_decodeLoad hop h
  case h_7 hop => exact encode_of_decodeStore hop h
  case h_8 hop => exact encode_of_decodeOpImm hop h
  case h_9 hop => exact encode_of_decodeOp hop h
  case h_10 hop => exact encode_of_decodeMiscMem hop h
  case h_11 => exact encode_of_decodeSystem h
  case h_12 => cases h

end

/-! ### A word of no row -/

/-- The word of every instruction matches the row with its name: the family `RowAccepts`. -/
theorem Laws.rowAccepts : ∀ i : Instr, RowAccepts.Statement i
  | .lui _ _ => RowAccepts.lui ..
  | .auipc _ _ => RowAccepts.auipc ..
  | .jal _ _ => RowAccepts.jal ..
  | .jalr _ _ _ => RowAccepts.jalr ..
  | .beq _ _ _ => RowAccepts.beq ..
  | .bne _ _ _ => RowAccepts.bne ..
  | .blt _ _ _ => RowAccepts.blt ..
  | .bge _ _ _ => RowAccepts.bge ..
  | .bltu _ _ _ => RowAccepts.bltu ..
  | .bgeu _ _ _ => RowAccepts.bgeu ..
  | .lb _ _ _ => RowAccepts.lb ..
  | .lh _ _ _ => RowAccepts.lh ..
  | .lw _ _ _ => RowAccepts.lw ..
  | .lbu _ _ _ => RowAccepts.lbu ..
  | .lhu _ _ _ => RowAccepts.lhu ..
  | .sb _ _ _ => RowAccepts.sb ..
  | .sh _ _ _ => RowAccepts.sh ..
  | .sw _ _ _ => RowAccepts.sw ..
  | .addi _ _ _ => RowAccepts.addi ..
  | .slti _ _ _ => RowAccepts.slti ..
  | .sltiu _ _ _ => RowAccepts.sltiu ..
  | .xori _ _ _ => RowAccepts.xori ..
  | .ori _ _ _ => RowAccepts.ori ..
  | .andi _ _ _ => RowAccepts.andi ..
  | .slli _ _ _ => RowAccepts.slli ..
  | .srli _ _ _ => RowAccepts.srli ..
  | .srai _ _ _ => RowAccepts.srai ..
  | .add _ _ _ => RowAccepts.add ..
  | .sub _ _ _ => RowAccepts.sub ..
  | .sll _ _ _ => RowAccepts.sll ..
  | .slt _ _ _ => RowAccepts.slt ..
  | .sltu _ _ _ => RowAccepts.sltu ..
  | .xor _ _ _ => RowAccepts.xor ..
  | .srl _ _ _ => RowAccepts.srl ..
  | .sra _ _ _ => RowAccepts.sra ..
  | .or _ _ _ => RowAccepts.or ..
  | .and _ _ _ => RowAccepts.and ..
  | .fence _ _ _ _ _ => RowAccepts.fence ..
  | .ecall => RowAccepts.ecall
  | .ebreak => RowAccepts.ebreak

/-- What matches no row of R95 is no instruction (R97). -/
theorem decode_illegal_of_no_row {w : Word} (h : ∀ r ∈ opcodeRows, ¬r.accepts w) :
    ∃ why, decode w = .illegal why := by
  cases hdecode : decode w with
  | illegal why => exact ⟨why, rfl⟩
  | instr i =>
    obtain ⟨r, hr, -, haccepts⟩ := Laws.rowAccepts i
    rw [(encode_of_decode hdecode).2] at haccepts
    exact absurd haccepts (h r hr)

end Sys2Proof
end

section
/-!
PROOFS. Memory (20_memory.md): bytes that no store may change, bytes that a hart cannot learn, and the statements about the
fetch and about loads and stores.
-/

namespace Sys2Proof.Machine

/-! ### Bytes that may not be stored to, along a run -/

section
variable {s t u v : State} {i : Instr} {b : Nat}

/-- An instruction leaves a byte that may not be stored to as it was: a store passed the check of every byte it writes
(R55, R57). -/
theorem Completes.unstorable_unchanged (h : Completes s i t) (hb : perm s.params b .store = false) :
    Memory.readByte t.mem b = Memory.readByte s.mem b := by
  cases h with
  | stores a n v _ hallowed =>
    rw [State.advance_mem, State.afterStore_mem]
    refine readByte_storeBytes_outside _ _ _ _ _ _ fun k hk hkb => ?_
    have hstorable := hallowed.2 k hk
    rw [hkb, hb] at hstorable
    cases hstorable
  | _ => simp

/-- Since `s` the parameters are the same, the resumed traps have not become fewer, and if none was resumed, every byte
that may not be stored to is as it was. -/
def UnstorableUnchangedSince (s u : State) : Prop :=
  u.params = s.params ∧ s.resumptions ≤ u.resumptions ∧
    (u.resumptions = s.resumptions → ∀ b, perm s.params b .store = false →
      Memory.readByte u.mem b = Memory.readByte s.mem b)

theorem UnstorableUnchangedSince.after_step (h : UnstorableUnchangedSince s u) (huv : step u = .next v) :
    UnstorableUnchangedSince s v := by
  obtain ⟨hparams, hle, hbytes⟩ := h
  rcases step_next huv with ⟨c, info, hr⟩ | ⟨i, -, hc⟩
  · obtain ⟨hparams', hgrown⟩ := raise_next_resumptions hr
    exact ⟨hparams'.trans hparams, by omega, fun hsame => by omega⟩
  · obtain ⟨hparams', hsame⟩ := hc.sameEnv
    refine ⟨hparams'.trans hparams, by omega, fun hvs b hb => ?_⟩
    exact (hc.unstorable_unchanged (hparams ▸ hb)).trans (hbytes (by omega) b hb)

theorem runSteps_unstorableUnchangedSince {k : Nat} (h : runSteps k s = .next t) : UnstorableUnchangedSince s t :=
  runSteps_induct (fun _ _ hu huv => hu.after_step huv) ⟨rfl, le_rfl, fun _ _ _ => rfl⟩ h

end

/-! ### What a hart cannot learn -/

theorem SameVisible.writeByte {p : Params} {m m' : Memory} (h : SameVisible p m m') (a : Nat) (v : Byte) :
    SameVisible p (Memory.writeByte m a v) (Memory.writeByte m' a v) := by
  intro b hb
  rw [Memory.readByte_writeByte, Memory.readByte_writeByte, h b hb]

theorem SameVisible.storeBytes {p : Params} {m m' : Memory} (h : SameVisible p m m') (a : Word) (n : Nat) (v : Word) :
    SameVisible p (storeBytes p m a n v) (storeBytes p m' a n v) := by
  induction n with
  | zero => exact h
  | succ n ih =>
    rw [storeBytes_succ, storeBytes_succ]
    split
    · exact ih
    · exact ih.writeByte _ _

section
variable {s t : State}

/-- All that differs is memory: what an instruction computes from the other fields is the same. -/
theorem Indistinguishable.eq_withMem (h : Indistinguishable s t) : t = { s with mem := t.mem } := by
  cases s
  cases t
  obtain ⟨rfl, rfl, rfl, rfl, rfl, -⟩ := h
  rfl

theorem Indistinguishable.setPc (h : Indistinguishable s t) (target : Word) :
    Indistinguishable (s.setPc target) (t.setPc target) :=
  ⟨h.regs, rfl, h.dirty, h.history, h.params, h.visible⟩

theorem Indistinguishable.advance (h : Indistinguishable s t) : Indistinguishable s.advance t.advance := by
  unfold State.advance
  rw [h.pc]
  exact h.setPc _

theorem Indistinguishable.note (h : Indistinguishable s t) (e : Event) : Indistinguishable (s.note e) (t.note e) :=
  ⟨h.regs, h.pc, h.dirty, by simp [h.history], h.params, h.visible⟩

theorem Indistinguishable.writeReg (h : Indistinguishable s t) (rd : RegIdx) (v : Word) :
    Indistinguishable (s.writeReg rd v) (t.writeReg rd v) := by
  unfold State.writeReg
  split
  · exact h
  · exact ⟨by simp [h.regs], h.pc, h.dirty, h.history, h.params, h.visible⟩

theorem Indistinguishable.afterLoad (h : Indistinguishable s t) (a : Word) (n : Nat) :
    Indistinguishable (s.afterLoad a n) (t.afterLoad a n) := by
  unfold State.afterLoad
  rw [← h.params]
  split
  · exact h.note _
  · exact h

theorem Indistinguishable.afterStore (h : Indistinguishable s t) (a : Word) (n : Nat) (v : Word) :
    Indistinguishable (s.afterStore a n v) (t.afterStore a n v) where
  regs := by simp [h.regs]
  pc := by simp [h.pc]
  dirty := by simp [h.dirty]
  history := by simp [State.afterStore_history, h.history, h.params]
  params := by simp [h.params]
  visible := by simpa [h.params] using h.visible.storeBytes a n v

theorem Indistinguishable.effectiveAddress (h : Indistinguishable s t) (rs1 : RegIdx) (imm : BitVec 12) :
    effectiveAddress s rs1 imm = effectiveAddress t rs1 imm := by
  unfold Machine.effectiveAddress
  rw [State.readReg_congr h.regs]

/-- A byte that passed the check of a load is read alike (R46). -/
theorem Indistinguishable.loadedByte (h : Indistinguishable s t) {a : Word} {n k : Nat}
    (hperm : perm s.params (byteAddr a k) .load = true) : loadedByte s a n k = loadedByte t a n k := by
  unfold Machine.loadedByte
  rw [← h.params, ← h.history, h.visible _ (.inr hperm)]

/-- The word of a fetch that passed its checks is read alike (R46). -/
theorem Indistinguishable.fetchWord (h : Indistinguishable s t)
    (hperm : accessible s.params s.pc 4 .fetch = true) : fetchWord s = fetchWord t := by
  have hbyte : ∀ k < 4, Memory.readByte s.mem (byteAddr s.pc k) = Memory.readByte t.mem (byteAddr s.pc k) :=
    fun k hk => h.visible _ (.inl ((accessible_iff _ _ _ _).1 hperm k hk))
  simp only [Machine.fetchWord, ← h.pc, hbyte 0, hbyte 1, hbyte 2, hbyte 3, Nat.reduceLT]

theorem Indistinguishable.fetch (h : Indistinguishable s t) : fetch s = fetch t := by
  have hword := h.fetchWord
  unfold Machine.fetch touchesDirty
  rw [← h.pc, ← h.params, ← h.dirty]
  cases hperm : accessible s.params s.pc 4 .fetch with
  | false => rfl
  | true => rw [hword hperm]

end

theorem Indistinguishable.writeResult {s t : State} (h : Indistinguishable s t) (rd : RegIdx) (v : Word) :
    SameOutcome (writeResult rd v s) (writeResult rd v t) :=
  (h.writeReg rd v).advance

/-- Outcomes that cannot be told apart end alike. -/
theorem sameOutcome_cases {r q : Result} (h : SameOutcome r q) :
    (∃ u v, r = .next u ∧ q = .next v ∧ Indistinguishable u v) ∨ (∃ f, r = .fault f ∧ q = .fault f) ∨
      ∃ e, r = .refused e ∧ q = .refused e := by
  cases r <;> cases q <;> simp_all [SameOutcome]

/-- Answers that cannot be told apart both stop, or go on alike. -/
theorem sameAnswer_cases {p : Params} {x y : EnvAnswer} (h : SameAnswer p x y) :
    (x = .stop ∧ y = .stop) ∨ ∃ x0 regs m m' pc, x = .resume x0 regs m pc ∧ y = .resume x0 regs m' pc ∧
      SameVisible p m m' := by
  cases x <;> cases y <;> simp_all [SameAnswer]

section
variable {s t : State}

theorem Completes.memWf {i : Instr} (h : Completes s i t) (hs : Memory.wf s.mem) : Memory.wf t.mem := by
  cases h with
  | stores a n v => simpa using Memory.wf_storeBytes hs s.params a n v
  | _ => simpa using hs

/-- A step keeps the canonical form of memory, whatever `pc` and `dirty` are. -/
theorem step_keeps_memWf (h : step s = .next t) (hs : Memory.wf s.mem) : Memory.wf t.mem := by
  rcases step_next h with ⟨c, info, hr⟩ | ⟨i, -, hc⟩
  · obtain ⟨regs, mem, pc, hanswer, -, rfl⟩ := raise_next hr
    exact wf_of_eeResume hs hanswer
  · exact hc.memWf hs

end

/-! The operations, from two states that cannot be told apart, with memory in its canonical form and an environment that
does not tell of the hidden bytes. -/

section
variable {s t : State} {rd rs1 rs2 : RegIdx} (h : Indistinguishable s t) (hs : Memory.wf s.mem) (ht : Memory.wf t.mem)
  (henv : EnvHides s.params)
include h hs ht henv

/-- A trap gives the environment all of memory, and it is the premise on the environment that makes the answers alike. -/
theorem raise_sameOutcome (c : Cause) (info : Word) : SameOutcome (raise c info s) (raise c info t) := by
  unfold raise
  rw [← h.params, ← h.pc, ← h.regs]
  rcases sameAnswer_cases (henv ⟨c, s.pc, info⟩ s.regs s.mem t.mem hs ht h.visible) with
    ⟨hstop, hstop'⟩ | ⟨x0, regs, m, m', pc, hresume, hresume', hvisible⟩
  · rw [hstop, hstop']
    rfl
  · rw [hresume, hresume']
    simp only [resumeFrom]
    split
    · exact ⟨rfl, rfl, h.dirty, by simp [h.history], h.params, hvisible⟩
    · rfl

theorem jumpAndLink_sameOutcome (target : Word) :
    SameOutcome (jumpAndLink rd target s) (jumpAndLink rd target t) := by
  unfold jumpAndLink linkValue
  rw [← h.pc]
  split
  · exact raise_sameOutcome h hs ht henv _ _
  · exact (h.writeReg rd _).setPc target

theorem branch_sameOutcome (taken : Bool) (target : Word) :
    SameOutcome (branch taken target s) (branch taken target t) := by
  unfold branch
  split
  · split
    · exact raise_sameOutcome h hs ht henv _ _
    · exact h.setPc target
  · exact h.advance

/-- A load whose value depends on the bytes of its access alone; each passed the check of the load. -/
theorem loadBytes_sameOutcome {n : Nat} {value : (Nat → Byte) → Word} {imm : BitVec 12}
    (hvalue : ∀ x y : Nat → Byte, (∀ k < n, x k = y k) → value x = value y) :
    SameOutcome (loadBytes n value rd rs1 imm s) (loadBytes n value rd rs1 imm t) := by
  simp only [loadBytes, ← h.params, ← h.effectiveAddress]
  split
  · exact raise_sameOutcome h hs ht henv _ _
  · split
    · exact raise_sameOutcome h hs ht henv _ _
    · next hallowed =>
      have hperm := (accessible_iff _ _ _ _).1 (Bool.not_eq_false _ ▸ hallowed)
      rw [hvalue _ _ fun k hk => h.loadedByte (hperm k hk)]
      exact ((h.afterLoad _ n).writeReg rd _).advance

theorem storeLow_sameOutcome {n : Nat} {imm : BitVec 12} :
    SameOutcome (storeLow n rs1 rs2 imm s) (storeLow n rs1 rs2 imm t) := by
  simp only [storeLow, ← h.params, ← h.effectiveAddress, ← State.readReg_congr h.regs rs2]
  split
  · exact raise_sameOutcome h hs ht henv _ _
  · split
    · exact raise_sameOutcome h hs ht henv _ _
    · exact (h.afterStore _ n _).advance

/-- Every instruction, by the shape of its operation. With `t` written as `s` with another memory, the operands that are
no bytes of memory are the same by definition. -/
theorem exec_sameOutcome (i : Instr) : SameOutcome (exec i s) (exec i t) := by
  obtain ⟨m, rfl⟩ : ∃ m, t = { s with mem := m } := ⟨t.mem, h.eq_withMem⟩
  unfold exec
  cases i with
  | jal | jalr => exact jumpAndLink_sameOutcome h hs ht henv _
  | beq | bne | blt | bge | bltu | bgeu => exact branch_sameOutcome h hs ht henv _ _
  | lb | lbu | lh | lhu | lw =>
    refine loadBytes_sameOutcome h hs ht henv fun x y hxy => ?_
    simp [hxy]
  | sb | sh | sw => exact storeLow_sameOutcome h hs ht henv
  | fence => exact (h.note _).advance
  | ecall | ebreak => exact raise_sameOutcome h hs ht henv _ _
  | _ => exact h.writeResult _ _

theorem step_sameOutcome : SameOutcome (step s) (step t) := by
  unfold step
  rw [← h.fetch]
  cases fetch s with
  | raises c info => exact raise_sameOutcome h hs ht henv c info
  | refuses why => rfl
  | word w =>
    cases hdecode : decode w with
    | illegal why => simpa only [hdecode] using raise_sameOutcome h hs ht henv .illegalInstruction w
    | instr i => simpa only [hdecode] using exec_sameOutcome h hs ht henv i

theorem runSteps_sameOutcome (k : Nat) : SameOutcome (runSteps k s) (runSteps k t) := by
  induction k generalizing s t with
  | zero => exact h
  | succ k ih =>
    rcases sameOutcome_cases (step_sameOutcome h hs ht henv) with
      ⟨u, v, hu, hv, huv⟩ | ⟨f, hf, hf'⟩ | ⟨e, he, he'⟩
    · rw [runSteps_succ_of_next k hu, runSteps_succ_of_next k hv]
      obtain ⟨hparams, -⟩ := parametersStayAndBookkeepingGrows s u hu
      exact ih huv (step_keeps_memWf hu hs) (step_keeps_memWf hv ht) (hparams.symm ▸ henv)
    · rw [runSteps_succ_of_fault k hf, runSteps_succ_of_fault k hf']
      rfl
    · rw [runSteps_succ_of_refused k he, runSteps_succ_of_refused k he']
      rfl

end

/-! ### The statements -/

/-- Settles O56: a store writes the bytes it may, and the induction over the run carries `UnstorableUnchangedSince`. -/
theorem unstorableBytesNeverChange : Obligations.UnstorableBytesNeverChange := by
  refine ⟨fun _ _ kind h => perm_vacant h kind, fun s t k b hrun henv hb => ?_⟩
  obtain ⟨-, -, hbytes⟩ := runSteps_unstorableUnchangedSince hrun
  exact hbytes henv b hb

/-- Settles O58: the step is a simulation of one run by the other, and the induction is over its length. -/
theorem inaccessibleMemoryIsNotLearned : Obligations.InaccessibleMemoryIsNotLearned :=
  fun _ _ k hs ht henv h => runSteps_sameOutcome h hs ht henv k

/-- Settles O9: the checks of `fetch` one by one, and then the row of R95 that the word matches, or none. -/
theorem fetchChecksInOrder : Obligations.FetchChecksInOrder := by
  intro s w
  refine ⟨fun hmisaligned => ?_, fun haligned hperm => ?_, fun haligned hperm hincoherent hdirty => ?_,
    fun haligned hperm hclean => ?_⟩
  · exact step_of_fetch_raises (fetch_of_misaligned ((notFourAligned_iff _).2 hmisaligned))
  · exact step_of_fetch_raises (fetch_of_inaccessible ((notFourAligned_eq_false_iff _).2 haligned) hperm)
  · exact step_of_fetch_refuses
      (fetch_of_stored_bytes ((notFourAligned_eq_false_iff _).2 haligned) hperm hincoherent hdirty)
  · have hfetch : Fetchable s := (fetchable_iff s).2 ⟨haligned, hperm, hclean⟩
    refine ⟨fetch_of_fetchable hfetch, fun r hr haccepts => ?_, fun hnone => ?_⟩
    · obtain ⟨i, hdecode, hname⟩ := decodesByName_of_mem r hr w haccepts
      obtain ⟨hwf, hencode⟩ := encode_of_decode hdecode
      exact ⟨i, hname, hwf, hencode, step_of_nextIs ⟨hfetch, hdecode⟩⟩
    · obtain ⟨why, hdecode⟩ := decode_illegal_of_no_row hnone
      exact step_of_illegal hfetch hdecode

/-- Settles O39: each load is `loadBytes` and each store `storeLow`, at its number of bytes. -/
theorem ioAccessesAreRecorded : Obligations.IoAccessesAreRecorded := by
  intro s t rd rs1 rs2 imm n i
  simp only [List.mem_cons, Prod.mk.injEq, List.not_mem_nil, or_false]
  refine fun h henv hio => ⟨?_, ?_⟩
  · rintro (⟨rfl, rfl⟩ | ⟨rfl, rfl⟩ | ⟨rfl, rfl⟩ | ⟨rfl, rfl⟩ | ⟨rfl, rfl⟩)
    · exact loadBytes_io_history (exec_lb .. ▸ h) henv hio
    · exact loadBytes_io_history (exec_lbu .. ▸ h) henv hio
    · exact loadBytes_io_history (exec_lh .. ▸ h) henv hio
    · exact loadBytes_io_history (exec_lhu .. ▸ h) henv hio
    · exact loadBytes_io_history (exec_lw .. ▸ h) henv hio
  · rintro (⟨rfl, rfl⟩ | ⟨rfl, rfl⟩ | ⟨rfl, rfl⟩) <;>
      exact ⟨storeLow_io_history h henv hio, fun b hb => storeLow_io_bytes h henv hb⟩

/-- Settles O40: the parameter decides the first check, permission the second, and a byte access has only the second. -/
theorem misalignedAccessesFollowTheParameter : Obligations.MisalignedAccessesFollowTheParameter := by
  intro s rd rs1 rs2 imm
  simp only [exec_lb, exec_lbu, exec_lh, exec_lhu, exec_lw, exec_sb, exec_sh, exec_sw]
  refine ⟨fun hodd hraise => ?_, fun hmod hraise => ?_, fun hsupport hio => ?_, fun hsupport hio => ?_,
    loadBytes_one _ rd rs1 imm s, loadBytes_one _ rd rs1 imm s, storeLow_one rs1 rs2 imm s⟩
  · have hmisaligned : AccessMisaligned s (effectiveAddress s rs1 imm) 2 := ⟨by omega, hraise⟩
    exact ⟨loadBytes_of_misaligned hmisaligned, loadBytes_of_misaligned hmisaligned,
      storeLow_of_misaligned hmisaligned⟩
  · have hmisaligned : AccessMisaligned s (effectiveAddress s rs1 imm) 4 := ⟨hmod, hraise⟩
    exact ⟨loadBytes_of_misaligned hmisaligned, storeLow_of_misaligned hmisaligned⟩
  · have hfirst := not_accessMisaligned_of_support hsupport hio
    refine ⟨fun hperm => ?_, fun hperm => ?_, fun hperm => ?_, fun hperm => ?_⟩
    · have hallowed := accessAllowed_of_not_misaligned hfirst hperm
      exact ⟨loadBytes_runs hallowed, loadBytes_runs hallowed⟩
    · exact ⟨loadBytes_of_forbidden ⟨hfirst, hperm⟩, loadBytes_of_forbidden ⟨hfirst, hperm⟩⟩
    · exact storeLow_runs (accessAllowed_of_not_misaligned hfirst hperm)
    · exact storeLow_of_forbidden ⟨hfirst, hperm⟩
  · have hfirst := not_accessMisaligned_of_support hsupport hio
    refine ⟨fun hperm => ?_, fun hperm => ?_, fun hperm => ?_, fun hperm => ?_⟩
    · exact loadBytes_runs (accessAllowed_of_not_misaligned hfirst hperm)
    · exact loadBytes_of_forbidden ⟨hfirst, hperm⟩
    · exact storeLow_runs (accessAllowed_of_not_misaligned hfirst hperm)
    · exact storeLow_of_forbidden ⟨hfirst, hperm⟩

/-- Settles O41: each byte of the load is the stored word's byte at that place, and the bytes are put together as
numbers. -/
theorem storedWordIsSeenByEveryWidth : Obligations.StoredWordIsSeenByEveryWidth := by
  intro s t rs1 rs2 imm a v h henv hmain hperm rd r d k haddr
  have hbyte (n j : Nat) (hkj : k + j < 4) :
      loadedByte t (effectiveAddress t r d) n j = byteOf (s.readReg rs2) (k + j) := by
    rw [haddr, loadedByte_of_stored_word h henv hmain n hkj]
  have hnoIo {n : Nat} (hkn : k + n ≤ 4) : ¬AccessesIo t (effectiveAddress t r d) n := by
    rw [haddr]
    exact not_accessesIo_of_main henv hmain hkn
  have hloadable (j : Nat) (hkj : k + j < 4) : perm t.params (byteAddr (effectiveAddress t r d) j) .load = true := by
    rw [haddr, byteAddr_add, henv.1]
    exact hperm _ hkj
  refine ⟨fun hk => ?_, fun hk hallowed => ?_, fun hk => ?_⟩ <;> apply computesTo_of_writeResult
  · have hallowed : AccessAllowed t (effectiveAddress t r d) 1 .load :=
      accessAllowed_of_not_misaligned (not_accessMisaligned_one t _) fun j hj => hloadable j (by omega)
    rw [exec_lbu, loadBytes_of_main hallowed (hnoIo (by omega)), hbyte 1 0 hk]
    congr 1
    exact BitVec.eq_of_toNat_eq (by simp [byteOf_toNat, v])
  · rw [exec_lhu, loadBytes_of_main hallowed (hnoIo (by omega)), hbyte 2 0 (by omega), hbyte 2 1 (by omega)]
    congr 1
    exact BitVec.eq_of_toNat_eq (by simp [halfOfBytes_byteOf_toNat, v])
  · subst hk
    obtain ⟨hstored, -⟩ := storeLow_sameEnv h henv
    have haddr : effectiveAddress t r d = a := by simpa using haddr
    have hallowed : AccessAllowed t (effectiveAddress t r d) 4 .load := by
      refine accessAllowed_of_not_misaligned ?_ fun j hj => hloadable j (by omega)
      rw [haddr, accessMisaligned_congr henv.1]
      exact hstored.not_misaligned
    rw [exec_lw, loadBytes_of_main hallowed (hnoIo le_rfl), hbyte 4 0 (by decide), hbyte 4 1 (by decide),
      hbyte 4 2 (by decide), hbyte 4 3 (by decide)]
    congr 1
    simp [wordOfBytes_byteOf, v]

/-- Settles O42: the four bytes are stored, so they are in `dirty`, and hold the word. -/
theorem storeThenFetchOfTheWord : Obligations.StoreThenFetchOfTheWord := by
  intro s t rs1 rs2 imm a h henv haligned hperm
  have hparams := henv.1
  have hpc : notFourAligned (t.setPc a).pc = false := (notFourAligned_eq_false_iff a).2 haligned
  have hfetchable : ∀ k < 4, perm (t.setPc a).params (byteAddr (t.setPc a).pc k) .fetch = true := by
    rw [State.setPc_params, State.setPc_pc, hparams]
    exact hperm
  have hbyte (k : Nat) (hk : k < 4) :
      Memory.readByte (t.setPc a).mem (byteAddr (t.setPc a).pc k) = byteOf (s.readReg rs2) k :=
    readByte_of_stored (by decide) h henv hk (classAt_ne_io_of_fetch (hperm k hk))
  refine ⟨fun hincoherent => ?_, fun hcoherent => ?_⟩
  · have hdirty : byteAddr a 0 ∈ t.dirty := by
      obtain ⟨-, rfl⟩ := storeLow_sameEnv h henv
      rw [State.advance_dirty, State.afterStore_dirty, mem_dirtyAfterStore]
      exact .inr ⟨0, by decide, rfl⟩
    unfold step
    rw [fetch_of_stored_bytes hpc hfetchable (hparams ▸ hincoherent) ⟨0, by decide, hdirty⟩]
  · rw [fetch_of_fetchable ⟨hpc, (accessible_iff _ _ _ _).2 hfetchable, .inl (hparams ▸ hcoherent)⟩, fetchWord,
      hbyte 0 (by decide), hbyte 1 (by decide), hbyte 2 (by decide), hbyte 3 (by decide), wordOfBytes_byteOf]

/-- Settles O7. -/
theorem fetchIsLittleEndian : Obligations.FetchIsLittleEndian := by
  intro s
  rw [fetchWord, wordOfBytes_toNat]
  omega

/-- Settles O37. -/
theorem loadedBytesComeFromMemoryOrTheDevice : Obligations.LoadedBytesComeFromMemoryOrTheDevice := by
  refine fun s a n k => ⟨fun hmem => loadedByte_memory n hmem, fun hio => ?_⟩
  rw [loadedByte_device n hio, byteOf_toNat]

end Sys2Proof.Machine
end

section
/-!
PROOFS. Encoding (30_encoding.md): the two round trips, the decoder against the table of R95, and the words that are no
instruction, with the step that raises on them.
-/

namespace Sys2Proof

open Machine

/-! ### The decoder reads back what the encoder wrote -/

/-- By major opcode: the decoder's choices meet the fixed fields of the encoded word, and each operand is its own field. An
offset is read back only when it is even (R89, R91). -/
theorem decode_encode {i : Instr} (h : i.wellFormed = true) : decode (encode i) = .instr i := by
  cases i with
  | lui | auipc => simp [encode, decode]
  | jal rd offset => simp [encode, decode, immJField_encodeJ offset rd _ h]
  | jalr => simp [encode, decode, decodeJalr]
  | beq rs1 rs2 offset | bne rs1 rs2 offset | blt rs1 rs2 offset | bge rs1 rs2 offset | bltu rs1 rs2 offset
  | bgeu rs1 rs2 offset => simp [encode, decode, decodeBranch, immBField_encodeB offset rs2 rs1 _ _ h]
  | lb | lh | lw | lbu | lhu => simp [encode, decode, decodeLoad]
  | sb | sh | sw => simp [encode, decode, decodeStore]
  | addi | slti | sltiu | xori | ori | andi | slli | srli | srai => simp [encode, decode, decodeOpImm]
  | add | sub | sll | slt | sltu | xor | srl | sra | or | and => simp [encode, decode, decodeOp]
  | fence => simp [encode, decode, decodeMiscMem]
  | ecall | ebreak => decide

/-! ### The rows of R95 are told apart by their names -/

theorem nodup_mnemonics : (opcodeRows.map OpcodeRow.mnemonic).Nodup := by decide

theorem row_eq_of_mnemonic_eq {r q : OpcodeRow} (hr : r ∈ opcodeRows) (hq : q ∈ opcodeRows)
    (h : r.mnemonic = q.mnemonic) : r = q :=
  List.inj_on_of_nodup_map nodup_mnemonics hr hq h

/-! ### The holes of R99, by major opcode

Where the values that the decoder knows are excluded, `simp only` finds the exclusions in the context and is left with the
decoder's last case. -/

section
variable {w : Word}

/-- A word that is no instruction raises wherever it is fetched (R97). -/
theorem stepsIllegal_of_decode {why : Illegal} (h : decode w = .illegal why) : StepsIllegal w := by
  rintro s hfetch rfl
  exact step_of_illegal hfetch h

theorem decode_load_hole (hop : opcodeField w = 0b0000011#7) (hf3 : funct3Field w ∈ [0b011#3, 0b110#3, 0b111#3]) :
    decode w = .illegal (.reservedFunct3 (opcodeField w) (funct3Field w)) := by
  simp only [List.mem_cons, List.not_mem_nil, or_false] at hf3
  rcases hf3 with hf3 | hf3 | hf3 <;> simp [decode, hop, decodeLoad, hf3]

theorem decode_store_hole (hop : opcodeField w = 0b0100011#7)
    (hf3 : funct3Field w ∈ [0b011#3, 0b100#3, 0b101#3, 0b110#3, 0b111#3]) :
    decode w = .illegal (.reservedFunct3 (opcodeField w) (funct3Field w)) := by
  simp only [List.mem_cons, List.not_mem_nil, or_false] at hf3
  rcases hf3 with hf3 | hf3 | hf3 | hf3 | hf3 <;> simp [decode, hop, decodeStore, hf3]

theorem decode_branch_hole (hop : opcodeField w = 0b1100011#7) (hf3 : funct3Field w ∈ [0b010#3, 0b011#3]) :
    decode w = .illegal (.reservedFunct3 (opcodeField w) (funct3Field w)) := by
  simp only [List.mem_cons, List.not_mem_nil, or_false] at hf3
  rcases hf3 with hf3 | hf3 <;> simp [decode, hop, decodeBranch, hf3]

theorem decode_jalr_hole (hop : opcodeField w = 0b1100111#7) (hf3 : funct3Field w ≠ 0b000#3) :
    decode w = .illegal (.reservedFunct3 (opcodeField w) (funct3Field w)) := by
  simp only [decode, hop, decodeJalr]

theorem decode_miscMem_hole (hop : opcodeField w = 0b0001111#7) (hf3 : funct3Field w ≠ 0b000#3) :
    decode w = .illegal (.reservedFunct3 (opcodeField w) (funct3Field w)) := by
  simp only [decode, hop, decodeMiscMem]

/-- SLLI has one value of the bits above its amount. -/
theorem decode_shiftLeft_hole (hop : opcodeField w = 0b0010011#7) (hf3 : funct3Field w = 0b001#3)
    (hf7 : funct7Field w ≠ 0b0000000#7) : decode w = .illegal (.reservedFunct7 (opcodeField w) (funct7Field w)) := by
  simp only [decode, hop, decodeOpImm, hf3]

/-- SRLI has one value of the bits above its amount, SRAI the other. -/
theorem decode_shiftRight_hole (hop : opcodeField w = 0b0010011#7) (hf3 : funct3Field w = 0b101#3)
    (hf7 : funct7Field w ∉ [0b0000000#7, 0b0100000#7]) :
    decode w = .illegal (.reservedFunct7 (opcodeField w) (funct7Field w)) := by
  obtain ⟨hlogical, harithmetic⟩ : funct7Field w ≠ 0b0000000#7 ∧ funct7Field w ≠ 0b0100000#7 := by simpa using hf7
  simp only [decode, hop, decodeOpImm, hf3]

theorem decode_op_funct7_hole (hop : opcodeField w = 0b0110011#7)
    (hf7 : funct7Field w ∉ [0b0000000#7, 0b0100000#7]) :
    decode w = .illegal (.reservedFunct7 (opcodeField w) (funct7Field w)) := by
  obtain ⟨hfirst, hsecond⟩ : funct7Field w ≠ 0b0000000#7 ∧ funct7Field w ≠ 0b0100000#7 := by simpa using hf7
  simp only [decode, hop, decodeOp]

/-- Only SUB and SRA have the second value of funct7. -/
theorem decode_op_funct3_hole (hop : opcodeField w = 0b0110011#7) (hf7 : funct7Field w = 0b0100000#7)
    (hf3 : funct3Field w ∉ [0b000#3, 0b101#3]) :
    decode w = .illegal (.reservedFunct3 (opcodeField w) (funct3Field w)) := by
  obtain ⟨hsub, hsra⟩ : funct3Field w ≠ 0b000#3 ∧ funct3Field w ≠ 0b101#3 := by simpa using hf3
  simp only [decode, hop, decodeOp, hf7]

theorem decode_system_hole (hop : opcodeField w = 0b1110011#7) (hecall : w ≠ 0x00000073#32)
    (hebreak : w ≠ 0x00100073#32) : decode w = .illegal .otherSystem := by
  simp only [decode, hop, decodeSystem]

/-- LUI, AUIPC and JAL have no minor opcode, so every word of theirs is an instruction. -/
theorem decode_of_wide_immediate (hop : opcodeField w ∈ [0b0110111#7, 0b0010111#7, 0b1101111#7]) :
    ∃ i, decode w = .instr i := by
  simp only [List.mem_cons, List.not_mem_nil, or_false] at hop
  rcases hop with hop | hop | hop
  · exact ⟨.lui (rdField w) (immUField w), by simp only [decode, hop]⟩
  · exact ⟨.auipc (rdField w) (immUField w), by simp only [decode, hop]⟩
  · exact ⟨.jal (rdField w) (immJField w), by simp only [decode, hop]⟩

/-- The four custom major opcodes are none of RV32I's (R100). -/
theorem decode_custom (hop : opcodeField w ∈ [0b0001011#7, 0b0101011#7, 0b1011011#7, 0b1111011#7]) :
    decode w = .illegal (illegalOpcode w) := by
  simp only [List.mem_cons, List.not_mem_nil, or_false] at hop
  rcases hop with hop | hop | hop | hop <;> simp [decode, hop]

end

/-! ### The statements -/

/-- Settles O1. -/
theorem decodeOfEncodeIsIdentity : Obligations.DecodeOfEncodeIsIdentity :=
  fun _ h => decode_encode h

/-- Settles O2. -/
theorem encodeOfDecodeIsIdentity : Obligations.EncodeOfDecodeIsIdentity :=
  fun _ _ h => encode_of_decode h

/-- Settles O3: two rows that accept one word both bear the name of what the word decodes to. -/
theorem decoderAgreesWithOpcodeTable : Obligations.DecoderAgreesWithOpcodeTable := by
  refine ⟨rfl, fun w i hdecode => ?_, fun w r hr haccepts => decodesByName_of_mem r hr w haccepts,
    fun w r hr q hq hrw hqw => ?_⟩
  · obtain ⟨-, rfl⟩ := encode_of_decode hdecode
    exact Laws.rowAccepts i
  · obtain ⟨i, hi, hri⟩ := decodesByName_of_mem r hr w hrw
    obtain ⟨j, hj, hqj⟩ := decodesByName_of_mem q hq w hqw
    obtain rfl : i = j := by simpa [hi] using hj
    exact row_eq_of_mnemonic_eq hr hq (hri.symm.trans hqj)

/-- Settles O5: hole by hole. -/
theorem holesOfTheOpcodesAreIllegal : Obligations.HolesOfTheOpcodesAreIllegal :=
  ⟨fun _ hop hf3 => stepsIllegal_of_decode (decode_load_hole hop hf3),
    fun _ hop hf3 => stepsIllegal_of_decode (decode_store_hole hop hf3),
    fun _ hop hf3 => stepsIllegal_of_decode (decode_branch_hole hop hf3),
    fun _ hop hf3 => stepsIllegal_of_decode (decode_jalr_hole hop hf3),
    fun _ hop hf3 hf7 => stepsIllegal_of_decode (decode_shiftLeft_hole hop hf3 hf7),
    fun _ hop hf3 hf7 => stepsIllegal_of_decode (decode_shiftRight_hole hop hf3 hf7),
    fun _ hop hf7 => stepsIllegal_of_decode (decode_op_funct7_hole hop hf7),
    fun _ hop hf7 hf3 => stepsIllegal_of_decode (decode_op_funct3_hole hop hf7 hf3),
    fun _ hop hf3 => stepsIllegal_of_decode (decode_miscMem_hole hop hf3),
    fun _ hop hecall hebreak => stepsIllegal_of_decode (decode_system_hole hop hecall hebreak),
    fun _ hop => decode_of_wide_immediate hop⟩

/-- Settles O6. -/
theorem unmatchedWordsRaiseIllegalInstruction : Obligations.UnmatchedWordsRaiseIllegalInstruction :=
  ⟨fun _ hnone => (decode_illegal_of_no_row hnone).elim fun _ hdecode => stepsIllegal_of_decode hdecode,
    stepsIllegal_of_decode (show decode _ = .illegal .shortLengthCode by decide),
    stepsIllegal_of_decode (show decode _ = .illegal .longLengthCode by decide),
    fun _ hop => stepsIllegal_of_decode (decode_custom hop)⟩

/-- Settles O8. The statement asks that the instruction be well-formed; the decoder reads no other. -/
theorem stepRunsDecodedInstruction : Obligations.StepRunsDecodedInstruction :=
  fun _ _ _ hnext => step_of_nextIs hnext

end Sys2Proof
end

section
/-!
PROOFS. The integer computational instructions (40_integer_computational.md): each is a result and nothing else (R120), and
its result is said in exact integers. The statements put the two together with the rows of R95.
-/

namespace Sys2Proof.Machine

/-! ### Each instruction over the shared operation (R120) -/

section
variable (rd rs1 rs2 : RegIdx) (imm : BitVec 12) (upper : BitVec 20) (shamt : BitVec 5) (s : State)

theorem exec_lui : exec (.lui rd upper) s = writeResult rd (immUpper upper) s := rfl
theorem exec_auipc : exec (.auipc rd upper) s = writeResult rd (s.pc + immUpper upper) s := rfl
theorem exec_addi : exec (.addi rd rs1 imm) s = writeResult rd (s.readReg rs1 + imm12 imm) s := rfl
theorem exec_slti :
    exec (.slti rd rs1 imm) s = writeResult rd (boolWord (lessSigned (s.readReg rs1) (imm12 imm))) s := rfl
theorem exec_sltiu :
    exec (.sltiu rd rs1 imm) s = writeResult rd (boolWord (lessUnsigned (s.readReg rs1) (imm12 imm))) s := rfl
theorem exec_xori : exec (.xori rd rs1 imm) s = writeResult rd (s.readReg rs1 ^^^ imm12 imm) s := rfl
theorem exec_ori : exec (.ori rd rs1 imm) s = writeResult rd (s.readReg rs1 ||| imm12 imm) s := rfl
theorem exec_andi : exec (.andi rd rs1 imm) s = writeResult rd (s.readReg rs1 &&& imm12 imm) s := rfl
theorem exec_slli : exec (.slli rd rs1 shamt) s = writeResult rd (s.readReg rs1 <<< shiftImm shamt) s := rfl
theorem exec_srli : exec (.srli rd rs1 shamt) s = writeResult rd (s.readReg rs1 >>> shiftImm shamt) s := rfl
theorem exec_srai :
    exec (.srai rd rs1 shamt) s = writeResult rd ((s.readReg rs1).sshiftRight (shiftImm shamt)) s := rfl
theorem exec_add : exec (.add rd rs1 rs2) s = writeResult rd (s.readReg rs1 + s.readReg rs2) s := rfl
theorem exec_sub : exec (.sub rd rs1 rs2) s = writeResult rd (s.readReg rs1 - s.readReg rs2) s := rfl
theorem exec_sll :
    exec (.sll rd rs1 rs2) s = writeResult rd (s.readReg rs1 <<< shiftReg (s.readReg rs2)) s := rfl
theorem exec_slt :
    exec (.slt rd rs1 rs2) s = writeResult rd (boolWord (lessSigned (s.readReg rs1) (s.readReg rs2))) s := rfl
theorem exec_sltu :
    exec (.sltu rd rs1 rs2) s = writeResult rd (boolWord (lessUnsigned (s.readReg rs1) (s.readReg rs2))) s := rfl
theorem exec_xor : exec (.xor rd rs1 rs2) s = writeResult rd (s.readReg rs1 ^^^ s.readReg rs2) s := rfl
theorem exec_srl :
    exec (.srl rd rs1 rs2) s = writeResult rd (s.readReg rs1 >>> shiftReg (s.readReg rs2)) s := rfl
theorem exec_sra :
    exec (.sra rd rs1 rs2) s = writeResult rd ((s.readReg rs1).sshiftRight (shiftReg (s.readReg rs2))) s := rfl
theorem exec_or : exec (.or rd rs1 rs2) s = writeResult rd (s.readReg rs1 ||| s.readReg rs2) s := rfl
theorem exec_and : exec (.and rd rs1 rs2) s = writeResult rd (s.readReg rs1 &&& s.readReg rs2) s := rfl

end

/-- A computational instruction writes some result to its destination and is nothing else. -/
theorem exec_of_computational {i : Instr} (h : i.computational = true) (s : State) :
    ∃ rd v, i.destination = some rd ∧ exec i s = writeResult rd v s := by
  cases i with
  | lui rd => exact ⟨rd, _, rfl, exec_lui ..⟩
  | auipc rd => exact ⟨rd, _, rfl, exec_auipc ..⟩
  | addi rd => exact ⟨rd, _, rfl, exec_addi ..⟩
  | slti rd => exact ⟨rd, _, rfl, exec_slti ..⟩
  | sltiu rd => exact ⟨rd, _, rfl, exec_sltiu ..⟩
  | xori rd => exact ⟨rd, _, rfl, exec_xori ..⟩
  | ori rd => exact ⟨rd, _, rfl, exec_ori ..⟩
  | andi rd => exact ⟨rd, _, rfl, exec_andi ..⟩
  | slli rd => exact ⟨rd, _, rfl, exec_slli ..⟩
  | srli rd => exact ⟨rd, _, rfl, exec_srli ..⟩
  | srai rd => exact ⟨rd, _, rfl, exec_srai ..⟩
  | add rd => exact ⟨rd, _, rfl, exec_add ..⟩
  | sub rd => exact ⟨rd, _, rfl, exec_sub ..⟩
  | sll rd => exact ⟨rd, _, rfl, exec_sll ..⟩
  | slt rd => exact ⟨rd, _, rfl, exec_slt ..⟩
  | sltu rd => exact ⟨rd, _, rfl, exec_sltu ..⟩
  | xor rd => exact ⟨rd, _, rfl, exec_xor ..⟩
  | srl rd => exact ⟨rd, _, rfl, exec_srl ..⟩
  | sra rd => exact ⟨rd, _, rfl, exec_sra ..⟩
  | or rd => exact ⟨rd, _, rfl, exec_or ..⟩
  | and rd => exact ⟨rd, _, rfl, exec_and ..⟩
  | _ => cases h

/-- A result may be named by any value equal to it. -/
theorem computesTo_of_result_eq {i : Instr} {s : State} {rd : RegIdx} {v w : Word} (h : exec i s = writeResult rd v s)
    (hv : v = w) : ComputesTo i s rd w :=
  hv ▸ computesTo_of_writeResult h

/-! ### Results as integers -/

section
variable {w : Nat} (x y : BitVec w) (n : Nat) (a b : Word) (imm : BitVec 12) (upper : BitVec 20)

theorem add_eq_ofNat : x + y = BitVec.ofNat w (x.toNat + y.toNat) := by
  rw [BitVec.ofNat_add, BitVec.ofNat_toNat, BitVec.ofNat_toNat, BitVec.setWidth_eq, BitVec.setWidth_eq]

theorem add_eq_ofInt : x + y = BitVec.ofInt w (x.toInt + y.toInt) := by
  rw [BitVec.ofInt_add, BitVec.ofInt_toInt, BitVec.ofInt_toInt]

theorem ofInt_toNat : BitVec.ofInt w x.toNat = x := by
  rw [BitVec.ofInt_natCast, BitVec.ofNat_toNat, BitVec.setWidth_eq]

theorem ofInt_sub (p q : Int) : BitVec.ofInt w (p - q) = BitVec.ofInt w p - BitVec.ofInt w q := by
  rw [Int.sub_eq_add_neg, BitVec.ofInt_add, BitVec.ofInt_neg, BitVec.sub_eq_add_neg]

theorem sub_eq_ofInt_toNat : x - y = BitVec.ofInt w (x.toNat - y.toNat) := by
  rw [ofInt_sub, ofInt_toNat, ofInt_toNat]

theorem sub_eq_ofInt : x - y = BitVec.ofInt w (x.toInt - y.toInt) := by
  rw [ofInt_sub, BitVec.ofInt_toInt, BitVec.ofInt_toInt]

theorem shiftLeft_eq_ofNat : x <<< n = BitVec.ofNat w (x.toNat * 2 ^ n) := by
  rw [← Nat.shiftLeft_eq]
  rfl

theorem ushiftRight_eq_ofNat : x >>> n = BitVec.ofNat w (x.toNat / 2 ^ n) := by
  rw [← Nat.shiftRight_eq_div_pow, ← BitVec.toNat_ushiftRight, BitVec.ofNat_toNat, BitVec.setWidth_eq]

/-- An arithmetic shift rounds toward minus infinity, as the division of integers by a positive number does. -/
theorem sshiftRight_eq_ofInt : x.sshiftRight n = BitVec.ofInt w (x.toInt / 2 ^ n) := by
  rw [BitVec.sshiftRight, Int.shiftRight_eq_div_pow, Nat.cast_pow, Nat.cast_ofNat]

/-- The low 5 bits of a register are its value modulo 32 (R147). -/
theorem shiftReg_eq_mod : shiftReg a = a.toNat % 32 := by
  rw [shiftReg, BitVec.extractLsb'_toNat, Nat.shiftRight_zero]

/-- The sign-extended immediate is the word of its integer value (R87). -/
theorem imm12_eq_ofInt : imm12 imm = BitVec.ofInt 32 imm.toInt := rfl

theorem imm12_toInt : (imm12 imm).toInt = imm.toInt :=
  BitVec.toInt_signExtend_of_le (by decide)

theorem add_imm12 : a + imm12 imm = BitVec.ofInt 32 (a.toNat + imm.toInt) := by
  rw [BitVec.ofInt_add, ofInt_toNat, imm12_eq_ofInt]

theorem immUpper_toNat : (immUpper upper).toNat = upper.toNat * 4096 := by
  rw [immUpper, append_toNat, BitVec.toNat_zero]
  omega

theorem immUpper_eq_ofNat : immUpper upper = BitVec.ofNat 32 (upper.toNat * 4096) := by
  rw [← immUpper_toNat, BitVec.ofNat_toNat, BitVec.setWidth_eq]

theorem add_immUpper : a + immUpper upper = BitVec.ofNat 32 (a.toNat + upper.toNat * 4096) := by
  rw [add_eq_ofNat, immUpper_toNat]

theorem boolWord_lessSigned : boolWord (lessSigned a b) = if a.toInt < b.toInt then 1#32 else 0#32 := by
  simp [boolWord, lessSigned]

theorem boolWord_lessUnsigned : boolWord (lessUnsigned a b) = if a.toNat < b.toNat then 1#32 else 0#32 := by
  simp [boolWord, lessUnsigned]

theorem boolWord_lessSigned_imm12 :
    boolWord (lessSigned a (imm12 imm)) = if a.toInt < imm.toInt then 1#32 else 0#32 := by
  rw [boolWord_lessSigned, imm12_toInt]

theorem shiftLeft_shiftReg : a <<< shiftReg b = BitVec.ofNat 32 (a.toNat * 2 ^ (b.toNat % 32)) := by
  rw [shiftLeft_eq_ofNat, shiftReg_eq_mod]

theorem ushiftRight_shiftReg : a >>> shiftReg b = BitVec.ofNat 32 (a.toNat / 2 ^ (b.toNat % 32)) := by
  rw [ushiftRight_eq_ofNat, shiftReg_eq_mod]

theorem sshiftRight_shiftReg : a.sshiftRight (shiftReg b) = BitVec.ofInt 32 (a.toInt / 2 ^ (b.toNat % 32)) := by
  rw [sshiftRight_eq_ofInt, shiftReg_eq_mod]

end

/-! ### The statements -/

/-- Settles O19. -/
theorem computationalInstructionsAlwaysComplete : Obligations.ComputationalInstructionsAlwaysComplete := by
  intro i s h
  obtain ⟨rd, v, hdest, hexec⟩ := exec_of_computational h s
  exact ⟨rd, v, hdest, computesTo_of_writeResult hexec⟩

/-- Settles O20. -/
theorem addAndCompareImmediate : Obligations.AddAndCompareImmediate :=
  ⟨decodesTo_addi, decodesTo_slti, decodesTo_sltiu, fun s rd rs1 imm =>
    ⟨computesTo_of_result_eq (exec_addi rd rs1 imm s) (add_imm12 _ imm),
      computesTo_of_result_eq (exec_slti rd rs1 imm s) (boolWord_lessSigned_imm12 _ imm),
      computesTo_of_result_eq (exec_sltiu rd rs1 imm s) (boolWord_lessUnsigned _ (imm12 imm))⟩⟩

/-- Settles O21: the immediate operand is the word of its integer value. -/
theorem logicImmediate : Obligations.LogicImmediate :=
  ⟨decodesTo_xori, decodesTo_ori, decodesTo_andi, fun s rd rs1 imm =>
    ⟨computesTo_of_result_eq (exec_xori rd rs1 imm s) (by rw [imm12_eq_ofInt]),
      computesTo_of_result_eq (exec_ori rd rs1 imm s) (by rw [imm12_eq_ofInt]),
      computesTo_of_result_eq (exec_andi rd rs1 imm s) (by rw [imm12_eq_ofInt])⟩⟩

/-- Settles O22. -/
theorem constantShifts : Obligations.ConstantShifts :=
  ⟨decodesTo_slli, decodesTo_srli, decodesTo_srai, fun s rd rs1 shamt =>
    ⟨computesTo_of_result_eq (exec_slli rd rs1 shamt s) (shiftLeft_eq_ofNat _ shamt.toNat),
      computesTo_of_result_eq (exec_srli rd rs1 shamt s) (ushiftRight_eq_ofNat _ shamt.toNat),
      computesTo_of_result_eq (exec_srai rd rs1 shamt s) (sshiftRight_eq_ofInt _ shamt.toNat)⟩⟩

/-- Settles O23. -/
theorem upperImmediates : Obligations.UpperImmediates :=
  ⟨decodesTo_lui, decodesTo_auipc, fun s rd imm =>
    ⟨computesTo_of_result_eq (exec_lui rd imm s) (immUpper_eq_ofNat imm),
      computesTo_of_result_eq (exec_auipc rd imm s) (add_immUpper s.pc imm)⟩⟩

/-- Settles O24. -/
theorem addAndSubtract : Obligations.AddAndSubtract :=
  ⟨decodesTo_add, decodesTo_sub, fun s rd rs1 rs2 =>
    ⟨computesTo_of_result_eq (exec_add rd rs1 rs2 s) (add_eq_ofNat _ _),
      computesTo_of_result_eq (exec_add rd rs1 rs2 s) (add_eq_ofInt _ _),
      computesTo_of_result_eq (exec_sub rd rs1 rs2 s) (sub_eq_ofInt_toNat _ _),
      computesTo_of_result_eq (exec_sub rd rs1 rs2 s) (sub_eq_ofInt _ _)⟩⟩

/-- Settles O25. -/
theorem logicOfRegisters : Obligations.LogicOfRegisters :=
  ⟨decodesTo_xor, decodesTo_or, decodesTo_and, fun s rd rs1 rs2 =>
    ⟨computesTo_of_writeResult (exec_xor rd rs1 rs2 s), computesTo_of_writeResult (exec_or rd rs1 rs2 s),
      computesTo_of_writeResult (exec_and rd rs1 rs2 s)⟩⟩

/-- Settles O26. -/
theorem compareRegisters : Obligations.CompareRegisters :=
  ⟨decodesTo_slt, decodesTo_sltu, fun s rd rs1 rs2 =>
    ⟨computesTo_of_result_eq (exec_slt rd rs1 rs2 s) (boolWord_lessSigned _ _),
      computesTo_of_result_eq (exec_sltu rd rs1 rs2 s) (boolWord_lessUnsigned _ _)⟩⟩

/-- Settles O27. -/
theorem registerShifts : Obligations.RegisterShifts :=
  ⟨decodesTo_sll, decodesTo_srl, decodesTo_sra, fun s rd rs1 rs2 =>
    ⟨computesTo_of_result_eq (exec_sll rd rs1 rs2 s) (shiftLeft_shiftReg _ _),
      computesTo_of_result_eq (exec_srl rd rs1 rs2 s) (ushiftRight_shiftReg _ _),
      computesTo_of_result_eq (exec_sra rd rs1 rs2 s) (sshiftRight_shiftReg _ _)⟩⟩

/-- Settles O4: each word matches its row of R95, and the fields of the word are the operands. -/
theorem specWordsDecode : Obligations.SpecWordsDecode :=
  ⟨decodesTo_lui _ rfl, decodesTo_jal _ rfl, decodesTo_jalr _ rfl, decodesTo_beq _ rfl, decodesTo_lw _ rfl,
    decodesTo_sw _ rfl, decodesTo_addi _ rfl, decodesTo_srai _ rfl, decodesTo_sub _ rfl, decodesTo_fence _ rfl,
    decodesTo_ecall _ rfl, decodesTo_ebreak _ rfl⟩

end Sys2Proof.Machine
end

section
/-!
PROOFS. Control transfer (41_control_transfer.md): a jump is `jumpAndLink` to its target and a branch is `branch` under its
condition; what these two do is said once (R160, R161, R163), and the targets are said in exact integers.
-/

namespace Sys2Proof.Machine

/-! ### Conditions and targets as integers -/

theorem lessSigned_iff (a b : Word) : lessSigned a b = true ↔ a.toInt < b.toInt := decide_eq_true_iff

theorem lessUnsigned_iff (a b : Word) : lessUnsigned a b = true ↔ a.toNat < b.toNat := decide_eq_true_iff

section
variable {n : Nat} (a : Word) (offset : BitVec n) (imm : BitVec 12) (s : State) (rs1 : RegIdx)

/-- A sign-extended offset is added as its integer value (R87, R89, R91). -/
theorem add_signExtend : a + offset.signExtend 32 = BitVec.ofInt 32 (a.toNat + offset.toInt) := by
  rw [BitVec.ofInt_add, ofInt_toNat, BitVec.signExtend]

/-- The mask of R166 clears bit 0: it shifts bit 0 out and a zero in. -/
theorem and_evenMask_toNat : (a &&& 0xFFFFFFFE#32).toNat = a.toNat / 2 * 2 := by
  have hmask : 0xFFFFFFFE#32 = BitVec.allOnes 32 <<< 1 := rfl
  have ha := a.isLt
  rw [hmask, ← BitVec.shiftLeft_ushiftRight, BitVec.toNat_shiftLeft, BitVec.toNat_ushiftRight,
    Nat.shiftRight_eq_div_pow, Nat.shiftLeft_eq]
  omega

/-- Clearing bit 0 rounds down to an even integer, before or after the sum wraps. -/
theorem ofInt_and_evenMask (z : Int) : BitVec.ofInt 32 z &&& 0xFFFFFFFE#32 = BitVec.ofInt 32 (z / 2 * 2) := by
  apply BitVec.eq_of_toNat_eq
  rw [and_evenMask_toNat, BitVec.toNat_ofInt, BitVec.toNat_ofInt]
  omega

theorem jalTarget_eq_ofInt (offset : BitVec 21) :
    jalTarget s offset = BitVec.ofInt 32 (s.pc.toNat + offset.toInt) :=
  add_signExtend s.pc offset

theorem branchTarget_eq_ofInt (offset : BitVec 13) :
    branchTarget s offset = BitVec.ofInt 32 (s.pc.toNat + offset.toInt) :=
  add_signExtend s.pc offset

theorem jalrTarget_eq_ofInt :
    jalrTarget s rs1 imm = BitVec.ofInt 32 (((s.readReg rs1).toNat + imm.toInt) / 2 * 2) := by
  rw [jalrTarget, add_imm12, ofInt_and_evenMask]

end

/-! ### The shared operations, from what an instruction executes -/

section
variable {i : Instr} {s : State} {rd : RegIdx} {t : Word} {cond : Prop}

/-- A register written before the `pc` is set: nothing else changes. -/
theorem onlyRegister_writeReg_setPc (s : State) (rd : RegIdx) (v t : Word) :
    OnlyRegister s ((s.writeReg rd v).setPc t) rd v :=
  ⟨fun r => by rw [State.setPc_readReg, State.readReg_writeReg], fun b => by simp, by simp, by simp, by simp⟩

theorem jumpsTo_of_jumpAndLink (h : exec i s = jumpAndLink rd t s) : JumpsTo i s rd t := by
  rcases jumpAndLink_cases rd t s with ⟨hmisaligned, hjump⟩ | ⟨haligned, hjump⟩
  · rw [notFourAligned_iff] at hmisaligned
    exact ⟨fun haligned => absurd haligned hmisaligned, fun _ => h.trans hjump⟩
  · rw [notFourAligned_eq_false_iff] at haligned
    exact ⟨fun _ => ⟨_, h.trans hjump, onlyRegister_writeReg_setPc s rd (linkValue s) t, by simp, by simp⟩,
      fun hmisaligned => absurd haligned hmisaligned⟩

theorem branchesTo_of_branch {taken : Bool} (h : exec i s = branch taken t s) (htaken : taken = true ↔ cond) :
    BranchesTo i s cond t := by
  rcases branch_cases taken t s with ⟨hnot, hbranch⟩ | ⟨hcond, hmisaligned, hbranch⟩ | ⟨hcond, haligned, hbranch⟩
  · have hnot : ¬cond := fun hcond => by simp [htaken.2 hcond] at hnot
    exact ⟨fun hcond => absurd hcond hnot, fun hcond => absurd hcond hnot, fun _ => h.trans hbranch⟩
  · rw [notFourAligned_iff] at hmisaligned
    exact ⟨fun _ haligned => absurd haligned hmisaligned, fun _ _ => h.trans hbranch,
      fun hnot => absurd (htaken.1 hcond) hnot⟩
  · rw [notFourAligned_eq_false_iff] at haligned
    exact ⟨fun _ _ => h.trans hbranch, fun _ hmisaligned => absurd haligned hmisaligned,
      fun hnot => absurd (htaken.1 hcond) hnot⟩

/-! What a misaligned target ends in, under an environment that stops (R160). -/

theorem raise_of_envStops (henv : EnvStops s) (c : Cause) (info : Word) :
    raise c info s = .fault (.trap ⟨c, s.pc, info⟩) := by
  rw [raise, henv]

theorem JumpsTo.fault_of_misaligned (h : JumpsTo i s rd t) (henv : EnvStops s) (ht : t.toNat % 4 ≠ 0) :
    exec i s = .fault (.trap ⟨.instructionAddressMisaligned, s.pc, t⟩) :=
  (h.2 ht).trans (raise_of_envStops henv _ _)

theorem BranchesTo.exec_of_misaligned [Decidable cond] (h : BranchesTo i s cond t) (henv : EnvStops s)
    (ht : t.toNat % 4 ≠ 0) : exec i s =
      if cond then .fault (.trap ⟨.instructionAddressMisaligned, s.pc, t⟩) else .next { s with pc := s.pc + 4#32 } := by
  obtain ⟨-, hraise, hfall⟩ := h
  split
  next hcond => exact (hraise hcond ht).trans (raise_of_envStops henv _ _)
  next hnot => exact hfall hnot

end

/-! ### Each instruction over the shared operation, its target as the model names it -/

section
variable (s : State) (rd rs1 rs2 : RegIdx) (offset : BitVec 13)

theorem jumpsTo_jal (offset : BitVec 21) : JumpsTo (.jal rd offset) s rd (jalTarget s offset) :=
  jumpsTo_of_jumpAndLink rfl

theorem jumpsTo_jalr (imm : BitVec 12) : JumpsTo (.jalr rd rs1 imm) s rd (jalrTarget s rs1 imm) :=
  jumpsTo_of_jumpAndLink rfl

theorem branchesTo_beq :
    BranchesTo (.beq rs1 rs2 offset) s (s.readReg rs1 = s.readReg rs2) (branchTarget s offset) :=
  branchesTo_of_branch rfl beq_iff_eq

theorem branchesTo_bne :
    BranchesTo (.bne rs1 rs2 offset) s (s.readReg rs1 ≠ s.readReg rs2) (branchTarget s offset) :=
  branchesTo_of_branch rfl bne_iff_ne

theorem branchesTo_blt :
    BranchesTo (.blt rs1 rs2 offset) s ((s.readReg rs1).toInt < (s.readReg rs2).toInt) (branchTarget s offset) :=
  branchesTo_of_branch rfl (lessSigned_iff _ _)

theorem branchesTo_bge :
    BranchesTo (.bge rs1 rs2 offset) s (¬(s.readReg rs1).toInt < (s.readReg rs2).toInt) (branchTarget s offset) :=
  branchesTo_of_branch rfl (by rw [Bool.not_eq_true', ← lessSigned_iff, Bool.not_eq_true])

theorem branchesTo_bltu :
    BranchesTo (.bltu rs1 rs2 offset) s ((s.readReg rs1).toNat < (s.readReg rs2).toNat) (branchTarget s offset) :=
  branchesTo_of_branch rfl (lessUnsigned_iff _ _)

theorem branchesTo_bgeu :
    BranchesTo (.bgeu rs1 rs2 offset) s (¬(s.readReg rs1).toNat < (s.readReg rs2).toNat) (branchTarget s offset) :=
  branchesTo_of_branch rfl (by rw [Bool.not_eq_true', ← lessUnsigned_iff, Bool.not_eq_true])

end

/-! ### The statements -/

/-- Settles O29. -/
theorem jalLinksAndJumps : Obligations.JalLinksAndJumps :=
  ⟨decodesTo_jal, fun s rd offset => jalTarget_eq_ofInt s offset ▸ jumpsTo_jal s rd offset⟩

/-- Settles O30: the target is computed from the state before the link value is written. -/
theorem jalrLinksAndJumps : Obligations.JalrLinksAndJumps :=
  ⟨decodesTo_jalr, fun s rd rs1 imm => jalrTarget_eq_ofInt imm s rs1 ▸ jumpsTo_jalr s rd rs1 imm⟩

/-- Settles O31. -/
theorem equalityBranches : Obligations.EqualityBranches := by
  refine ⟨decodesTo_beq, decodesTo_bne, fun s rs1 rs2 offset => ?_⟩
  rw [← branchTarget_eq_ofInt]
  exact ⟨branchesTo_beq s rs1 rs2 offset, branchesTo_bne s rs1 rs2 offset⟩

/-- Settles O32: at least is the negation of less. -/
theorem orderBranches : Obligations.OrderBranches := by
  refine ⟨decodesTo_blt, decodesTo_bge, decodesTo_bltu, decodesTo_bgeu, fun s rs1 rs2 offset => ?_⟩
  rw [← branchTarget_eq_ofInt, ← Int.not_lt, ← Nat.not_lt]
  exact ⟨branchesTo_blt s rs1 rs2 offset, branchesTo_bge s rs1 rs2 offset, branchesTo_bltu s rs1 rs2 offset,
    branchesTo_bgeu s rs1 rs2 offset⟩

/-- Settles O33, from the two ways a misaligned target can end; BNE, BGE and BGEU are taken where the condition named in
the statement fails. -/
theorem misalignedTargetIsReportedOnTheJump : Obligations.MisalignedTargetIsReportedOnTheJump := by
  refine fun s henv => ⟨fun rd offset ht => (jumpsTo_jal s rd offset).fault_of_misaligned henv ht,
    fun rd rs1 imm ht => (jumpsTo_jalr s rd rs1 imm).fault_of_misaligned henv ht, fun rs1 rs2 offset ht => ?_⟩
  exact ⟨(branchesTo_beq s rs1 rs2 offset).exec_of_misaligned henv ht,
    ((branchesTo_bne s rs1 rs2 offset).exec_of_misaligned henv ht).trans (ite_not ..),
    (branchesTo_blt s rs1 rs2 offset).exec_of_misaligned henv ht,
    ((branchesTo_bge s rs1 rs2 offset).exec_of_misaligned henv ht).trans (ite_not ..),
    (branchesTo_bltu s rs1 rs2 offset).exec_of_misaligned henv ht,
    ((branchesTo_bgeu s rs1 rs2 offset).exec_of_misaligned henv ht).trans (ite_not ..)⟩

end Sys2Proof.Machine
end

section
/-!
PROOFS. Loads and stores (42_load_store.md): what an allowed access leaves in the state, the three ways of `loadBytes` and of
`storeLow` under the name of the instruction that executes them, and the loaded values as exact integers.
-/

namespace Sys2Proof.Machine

/-! ### The effective address and the loaded values, as integers -/

/-- Base plus sign-extended displacement, wrapped to 32 bits (R180). -/
theorem effectiveAddress_toNat (s : State) (rs1 : RegIdx) (imm : BitVec 12) :
    ((effectiveAddress s rs1 imm).toNat : Int) = ((s.readReg rs1).toNat + imm.toInt) % 2 ^ 32 := by
  rw [effectiveAddress, add_imm12, BitVec.toNat_ofInt, Int.toNat_of_nonneg (Int.emod_nonneg _ (by decide))]
  rfl

/-- The high byte carries the sign of a halfword, the low byte is a digit (R49). -/
theorem halfOfBytes_toInt (b0 b1 : Byte) : (halfOfBytes b0 b1).toInt = b1.toInt * 256 + b0.toNat := by
  rw [halfOfBytes, BitVec.toInt_append, if_neg (by decide), Int.mul_comm]
  rfl

theorem halfOfBytes_signExtend (b0 b1 : Byte) :
    (halfOfBytes b0 b1).signExtend 32 = BitVec.ofInt 32 (b1.toInt * 256 + b0.toNat) := by
  rw [BitVec.signExtend, halfOfBytes_toInt]

theorem halfOfBytes_setWidth (b0 b1 : Byte) :
    (halfOfBytes b0 b1).setWidth 32 = BitVec.ofNat 32 (b1.toNat * 256 + b0.toNat) := by
  rw [← halfOfBytes_toNat, BitVec.ofNat_toNat]

theorem wordOfBytes_eq_ofNat (b0 b1 b2 b3 : Byte) : wordOfBytes b0 b1 b2 b3 =
    BitVec.ofNat 32 (b3.toNat * 16777216 + b2.toNat * 65536 + b1.toNat * 256 + b0.toNat) := by
  rw [← wordOfBytes_toNat, BitVec.ofNat_toNat, BitVec.setWidth_eq]

/-! ### What an allowed access leaves -/

section
variable (s : State) (rd : RegIdx) (a v : Word) (n : Nat)

/-- A load writes its register and nothing else but the history and `pc` (R42, R181). -/
theorem onlyRegister_afterLoad : OnlyRegister s ((s.afterLoad a n).writeReg rd v).advance rd v :=
  ⟨fun r => by rw [State.advance_readReg, State.readReg_writeReg, State.afterLoad_readReg], fun b => by simp, by simp,
    by simp, by simp⟩

/-- What the history gains by an access: one event when some byte is I/O, else none (R61). -/
theorem ioEvent_ne_nil_iff (e : Event) : (if touchesIo s.params a n then [e] else []) ≠ [] ↔ AccessesIo s a n := by
  rw [AccessesIo, ← touchesIo_iff]
  split <;> simp_all

end

/-! ### The three ways of each shared operation -/

section
variable {i : Instr} {s : State} {rd rs1 rs2 : RegIdx} {imm : BitVec 12} {n : Nat}

theorem loadsTo_of_loadBytes {value : (Nat → Byte) → Word} (h : exec i s = loadBytes n value rd rs1 imm s)
    (hallowed : AccessAllowed s (effectiveAddress s rs1 imm) n .load) :
    LoadsTo i s rd (effectiveAddress s rs1 imm) n (value (loadedByte s (effectiveAddress s rs1 imm) n)) :=
  ⟨_, not_imp_comm.1 (ioEvent_ne_nil_iff s _ n (.ioLoad (effectiveAddress s rs1 imm) n)).1, _,
    h.trans (loadBytes_of_allowed hallowed), onlyRegister_afterLoad s rd _ _ n, by simp [State.afterLoad_history],
    by simp⟩

theorem storesTo_of_storeLow (hn : n ≤ 2 ^ 32) (h : exec i s = storeLow n rs1 rs2 imm s)
    (hallowed : AccessAllowed s (effectiveAddress s rs1 imm) n .store) :
    StoresTo i s (effectiveAddress s rs1 imm) n (s.readReg rs2) := by
  refine ⟨_, _, h.trans (storeLow_of_allowed hallowed), fun k hk hio => ?written, fun b hb => ?outside, fun b => ?dirty,
    State.afterStore_history .., ioEvent_ne_nil_iff .., fun r => by simp, ⟨by simp, by simp⟩, by simp⟩
  case written => rw [State.advance_mem, State.afterStore_mem, readByte_storeBytes _ _ _ _ hn hk hio]
  case outside => rw [State.advance_mem, State.afterStore_mem, readByte_storeBytes_outside _ _ _ _ _ _ hb]
  case dirty => rw [State.advance_dirty, State.afterStore_dirty, mem_dirtyAfterStore]

/-- The loaded value may be named by any word equal to it. -/
theorem loadRule_of_loadBytes {value : (Nat → Byte) → Word} {v : Word} (h : exec i s = loadBytes n value rd rs1 imm s)
    (hv : value (loadedByte s (effectiveAddress s rs1 imm) n) = v) :
    LoadRule i s rd (effectiveAddress s rs1 imm) n v :=
  ⟨fun hmisaligned => h.trans (loadBytes_of_misaligned hmisaligned),
    fun hforbidden => h.trans (loadBytes_of_forbidden hforbidden), fun hallowed => hv ▸ loadsTo_of_loadBytes h hallowed⟩

theorem storeRule_of_storeLow (hn : n ≤ 2 ^ 32) (h : exec i s = storeLow n rs1 rs2 imm s) :
    StoreRule i s (effectiveAddress s rs1 imm) n (s.readReg rs2) :=
  ⟨fun hmisaligned => h.trans (storeLow_of_misaligned hmisaligned),
    fun hforbidden => h.trans (storeLow_of_forbidden hforbidden), storesTo_of_storeLow hn h⟩

end

/-! ### The statements -/

/-- Settles O36: the five loads differ in their size and in how their bytes become a word; a byte extends by definition. -/
theorem loadsReadAndExtendOrTrap : Obligations.LoadsReadAndExtendOrTrap :=
  ⟨decodesTo_lb, decodesTo_lh, decodesTo_lw, decodesTo_lbu, decodesTo_lhu, fun s rd rs1 imm =>
    ⟨loadRule_of_loadBytes (exec_lb rd rs1 imm s) rfl,
      loadRule_of_loadBytes (exec_lbu rd rs1 imm s) (BitVec.ofNat_toNat ..).symm,
      loadRule_of_loadBytes (exec_lh rd rs1 imm s) (halfOfBytes_signExtend ..),
      loadRule_of_loadBytes (exec_lhu rd rs1 imm s) (halfOfBytes_setWidth ..),
      loadRule_of_loadBytes (exec_lw rd rs1 imm s) (wordOfBytes_eq_ofNat ..)⟩⟩

/-- Settles O38: the three stores differ in their size alone. -/
theorem storesWriteLowBytesOrTrap : Obligations.StoresWriteLowBytesOrTrap :=
  ⟨decodesTo_sb, decodesTo_sh, decodesTo_sw, fun s rs1 rs2 imm =>
    ⟨storeRule_of_storeLow (by decide) (exec_sb rs1 rs2 imm s), storeRule_of_storeLow (by decide) (exec_sh rs1 rs2 imm s),
      storeRule_of_storeLow (by decide) (exec_sw rs1 rs2 imm s)⟩⟩

/-- Settles O35. -/
theorem effectiveAddressIsBasePlusDisplacement : Obligations.EffectiveAddressIsBasePlusDisplacement :=
  effectiveAddress_toNat

end Sys2Proof.Machine
end

section
/-!
PROOFS. FENCE (43_memory_ordering.md): one next state in every state, in which the `fm` field counts only through the mode it
selects (R204).
-/

namespace Sys2Proof.Machine

/-! ### The mode of a fence (R202, R204) -/

section
variable {fm pred succ : BitVec 4}

theorem fenceMode_of_tso (h : fm = 8#4 ∧ pred = 3#4 ∧ succ = 3#4) : fenceMode fm pred succ = .tso := if_pos h

theorem fenceMode_of_not_tso (h : ¬(fm = 8#4 ∧ pred = 3#4 ∧ succ = 3#4)) : fenceMode fm pred succ = .normal := if_neg h

theorem fenceMode_zero : fenceMode 0#4 pred succ = .normal :=
  fenceMode_of_not_tso fun ⟨hfm, _⟩ => absurd hfm (by decide)

end

/-! ### The next state -/

section
variable (fm pred succ : BitVec 4) (rs1 rd : RegIdx) (s : State)

/-- The fields `rs1` and `rd` do not reach the operation (R204). -/
theorem exec_fence : exec (.fence fm pred succ rs1 rd) s = execFence fm pred succ s := rfl

/-- A fence adds its own record to the history, advances `pc`, and does nothing else (R200, R203). -/
theorem execFence_eq : execFence fm pred succ s =
    .next { s with pc := s.pc + 4#32, history := s.history ++ [.fence (fenceMode fm pred succ) pred succ] } := rfl

end

/-! ### The statements -/

/-- Settles O43: `rs1` and `rd` do not reach `execFence`, and `fm` reaches it only through its mode. -/
theorem fenceIgnoresReservedFields : Obligations.FenceIgnoresReservedFields := by
  refine ⟨decodesTo_fence, fun fm pred succ rs1 rd s => ⟨?unusedFields, fun hnot => ?reservedMode⟩⟩
  case unusedFields => rw [exec_fence, exec_fence]
  case reservedMode =>
    rw [exec_fence, exec_fence, execFence_eq, execFence_eq, fenceMode_of_not_tso hnot, fenceMode_zero]

/-- Settles O44: the next state of every fence, with its mode by case. -/
theorem fenceOnlyRecordsItself : Obligations.FenceOnlyRecordsItself := by
  refine fun fm pred succ rs1 rd s => ⟨fun htso => ?tso, fun hnot => ?normal⟩
  case tso => rw [exec_fence, execFence_eq, fenceMode_of_tso htso]
  case normal => rw [exec_fence, execFence_eq, fenceMode_of_not_tso hnot]

end Sys2Proof.Machine
end

section
/-!
PROOFS. ECALL and EBREAK (44_system.md): the one word of each, the exception that each raises, and what an environment that
stops the run makes of it (R210 to R212).
-/

namespace Sys2Proof.Machine

/-! ### The words (R210, R211) -/

/-- A well-formed instruction is read from one word alone, its encoding (R94, R98). -/
theorem decode_eq_instr_iff {w : Word} {i : Instr} (h : i.wellFormed = true) : decode w = .instr i ↔ w = encode i := by
  constructor
  case mp =>
    intro hdecode
    exact (encode_of_decode hdecode).2.symm
  case mpr =>
    rintro rfl
    exact decode_encode h

/-! ### The exceptions (R212) -/

section
variable (s : State)

theorem exec_ecall : exec .ecall s = raise .environmentCall 0#32 s := rfl

theorem exec_ebreak : exec .ebreak s = raise .breakpoint 0#32 s := rfl

end

/-! ### The statement -/

/-- Settles O45: the words are the encodings of two instructions without fields, and a stopping environment makes a fault of
what they raise. -/
theorem ecallAndEbreakTrap : Obligations.EcallAndEbreakTrap := by
  refine ⟨fun w => decode_eq_instr_iff rfl, fun w => decode_eq_instr_iff rfl,
    fun s => ⟨exec_ecall s, exec_ebreak s, fun henv => ⟨?ecallStops, ?ebreakStops⟩⟩⟩
  case ecallStops => rw [exec_ecall, raise_of_envStops henv]
  case ebreakStops => rw [exec_ebreak, raise_of_envStops henv]

end Sys2Proof.Machine
end

section
/-!
PROOFS. HINTs (45_hints.md): they run by the ordinary rule of their instruction (R222). A computational one has its result
discarded by `x0` (R22), a fence with an empty set does what every fence does.
-/

namespace Sys2Proof.Machine

/-! ### A result for x0 (R22) -/

/-- A result for `x0` is discarded, and the step to `pc + 4` is all that is left of the instruction. -/
theorem writeResult_x0 (v : Word) (s : State) : writeResult 0#5 v s = .next { s with pc := s.pc + 4#32 } := by
  rw [writeResult_eq, State.writeReg_zero, State.advance, State.setPc]

theorem exec_of_computational_x0 {i : Instr} (h : i.computational = true) (hx0 : i.destination = some 0#5) (s : State) :
    exec i s = .next { s with pc := s.pc + 4#32 } := by
  obtain ⟨rd, v, hdest, hexec⟩ := exec_of_computational h s
  obtain rfl : rd = 0#5 := Option.some.inj (hdest.symm.trans hx0)
  exact hexec.trans (writeResult_x0 v s)

/-! ### The statement -/

/-- Settles O28. The fence half needs nothing of the sets: by `execFence_eq` every fence only records itself, and the event is
that record. -/
theorem hintsChangeOnlyThePc : Obligations.HintsChangeOnlyThePc := by
  refine ⟨fun i s hcomp hx0 => ?computational, fun fm pred succ rs1 rd s _ => ?fence⟩
  case computational => exact exec_of_computational_x0 hcomp hx0 s
  case fence => exact ⟨.fence (fenceMode fm pred succ) pred succ, (exec_fence ..).trans (execFence_eq ..)⟩

end Sys2Proof.Machine
end

section
/-!
PROOFS. Exceptions (60_exceptions.md): what an instruction may raise and what a step may end in (R238, R241), what `raise`
makes of each answer of the environment (R243, R244), how the environment's table answers, and runs under an environment
that resumes.
-/

namespace Sys2Proof.Machine

/-! ### An instruction completes or raises one of its causes (R238) -/

/-- `r` is a completion from `s` that took no trap, or the raising of one of the causes. -/
def CompletesOrRaises (causes : List Cause) (s : State) (r : Result) : Prop :=
  (∃ t, r = .next t ∧ SameEnv s t) ∨ ∃ c ∈ causes, ∃ info, r = raise c info s

section
variable (s : State) (rd rs1 rs2 : RegIdx) (imm : BitVec 12) (value : (Nat → Byte) → Word)

theorem CompletesOrRaises.of_raise {causes : List Cause} {c : Cause} {r : Result} {info : Word} (hc : c ∈ causes)
    (h : r = raise c info s) : CompletesOrRaises causes s r :=
  .inr ⟨c, hc, info, h⟩

theorem writeResult_completesOrRaises (causes : List Cause) (v : Word) :
    CompletesOrRaises causes s (writeResult rd v s) :=
  .inl ⟨_, writeResult_eq rd v s, by simp, by simp⟩

theorem execFence_completesOrRaises (fm pred succ : BitVec 4) (causes : List Cause) :
    CompletesOrRaises causes s (execFence fm pred succ s) :=
  .inl ⟨(s.note _).advance, rfl, by simp, by simp⟩

theorem jumpAndLink_completesOrRaises (target : Word) :
    CompletesOrRaises [.instructionAddressMisaligned] s (jumpAndLink rd target s) := by
  rcases jumpAndLink_cases rd target s with ⟨-, h⟩ | ⟨-, h⟩
  · exact .of_raise s (by simp) h
  · exact .inl ⟨_, h, by simp, by simp⟩

theorem branch_completesOrRaises (taken : Bool) (target : Word) :
    CompletesOrRaises [.instructionAddressMisaligned] s (branch taken target s) := by
  rcases branch_cases taken target s with ⟨-, h⟩ | ⟨-, -, h⟩ | ⟨-, -, h⟩
  · exact .inl ⟨_, h, by simp, by simp⟩
  · exact .of_raise s (by simp) h
  · exact .inl ⟨_, h, by simp, by simp⟩

theorem loadBytes_completesOrRaises (n : Nat) :
    CompletesOrRaises [.loadAddressMisaligned, .loadAccessFault] s (loadBytes n value rd rs1 imm s) := by
  rcases loadBytes_cases n value rd rs1 imm s with ⟨-, h⟩ | ⟨-, h⟩ | ⟨hallowed, -⟩
  · exact .of_raise s (by simp) h
  · exact .of_raise s (by simp) h
  · exact .inl (loadBytes_runs hallowed)

/-- LB and LBU are never misaligned (R53). -/
theorem loadBytes_one_completesOrRaises :
    CompletesOrRaises [.loadAccessFault] s (loadBytes 1 value rd rs1 imm s) :=
  (loadBytes_one value rd rs1 imm s).imp_right fun h => ⟨_, by simp, _, h⟩

theorem storeLow_completesOrRaises (n : Nat) :
    CompletesOrRaises [.storeAddressMisaligned, .storeAccessFault] s (storeLow n rs1 rs2 imm s) := by
  rcases storeLow_cases n rs1 rs2 imm s with ⟨-, h⟩ | ⟨-, h⟩ | ⟨hallowed, -⟩
  · exact .of_raise s (by simp) h
  · exact .of_raise s (by simp) h
  · exact .inl (storeLow_runs hallowed)

/-- SB is never misaligned (R53). -/
theorem storeLow_one_completesOrRaises :
    CompletesOrRaises [.storeAccessFault] s (storeLow 1 rs1 rs2 imm s) :=
  (storeLow_one rs1 rs2 imm s).imp_right fun h => ⟨_, by simp, _, h⟩

/-- Every instruction, by the shape of its operation. -/
theorem exec_completesOrRaises (i : Instr) : CompletesOrRaises i.causes s (exec i s) := by
  unfold exec
  cases i with
  | jal | jalr => exact jumpAndLink_completesOrRaises s _ _
  | beq | bne | blt | bge | bltu | bgeu => exact branch_completesOrRaises s _ _
  | lb | lbu => exact loadBytes_one_completesOrRaises s _ _ _ _
  | lh | lw | lhu => exact loadBytes_completesOrRaises s _ _ _ _ _
  | sb => exact storeLow_one_completesOrRaises s _ _ _
  | sh | sw => exact storeLow_completesOrRaises s _ _ _ _
  | fence => exact execFence_completesOrRaises s _ _ _ _
  | ecall | ebreak => exact .of_raise s (List.mem_singleton_self _) rfl
  | _ => exact writeResult_completesOrRaises s _ _ _

end

/-! ### What a step may end in (R241) -/

/-- A fetch refuses only bytes that were stored to, without coherence (R66). -/
theorem fetch_refuses {s : State} {why : Refusal} (h : fetch s = .refuses why) :
    why = .fetchOfStoredBytes ∧ s.params.fetchCoherent = false ∧ ∃ k < 4, byteAddr s.pc k ∈ s.dirty := by
  rcases fetch_cases s with ⟨-, h'⟩ | ⟨-, -, h'⟩ | ⟨-, -, hincoherent, htouched, h'⟩ | ⟨-, h'⟩ <;> rw [h'] at h <;>
    cases h
  exact ⟨rfl, hincoherent, (touchesDirty_iff s s.pc 4).1 htouched⟩

/-- A step refuses the fetch of stored bytes, or completes without a trap, or is one trap of the instruction at `pc`. -/
theorem step_refuses_or_completes_or_raises (s : State) :
    (∃ why, fetch s = .refuses why ∧ step s = .refused why) ∨ (∃ t, step s = .next t ∧ SameEnv s t) ∨
      ∃ c info, step s = raise c info s := by
  rcases step_cases s with ⟨c, info, -, h⟩ | ⟨hfetch, h⟩ | ⟨-, -, -, h⟩ | ⟨i, -, -, h⟩
  · exact .inr (.inr ⟨c, info, h⟩)
  · exact .inl ⟨_, hfetch, h⟩
  · exact .inr (.inr ⟨_, _, h⟩)
  · rw [h]
    exact .inr ((exec_completesOrRaises s i).imp_right fun ⟨c, _, info, hraise⟩ => ⟨c, info, hraise⟩)

/-! ### What `raise` makes of each answer (R243, R244) -/

section
variable {c : Cause} {info x0 pc : Word} {regs : Vector Word 31} {mem : Memory} {s : State}

theorem raise_of_stop (h : eeResume s.params ⟨c, s.pc, info⟩ s.regs s.mem = .stop) :
    raise c info s = .fault (.trap ⟨c, s.pc, info⟩) := by
  rw [raise, h]

theorem raise_of_resume (h : eeResume s.params ⟨c, s.pc, info⟩ s.regs s.mem = .resume x0 regs mem pc)
    (hx0 : x0 = 0#32) (hpc : pc.toNat % 4 = 0) : raise c info s = .next { s with
      regs := regs, pc := pc, mem := mem, history := s.history ++ [.trap ⟨c, s.pc, info⟩] } := by
  rw [raise, h]
  exact if_pos ⟨hx0, (notFourAligned_eq_false_iff pc).2 hpc⟩

theorem raise_of_illegalResume (h : eeResume s.params ⟨c, s.pc, info⟩ s.regs s.mem = .resume x0 regs mem pc)
    (hbad : x0 ≠ 0#32 ∨ pc.toNat % 4 ≠ 0) : raise c info s = .refused .illegalResume := by
  rw [raise, h]
  refine if_neg fun ⟨hx0, haligned⟩ => ?_
  exact hbad.elim (absurd hx0) (absurd ((notFourAligned_eq_false_iff pc).1 haligned))

end

/-! ### How the table answers (log entry 8) -/

/-- An argument passes the test of a row that names no value for it, or names its value. -/
theorem all_beq_iff {α : Type} [BEq α] [LawfulBEq α] (o : Option α) (x : α) :
    o.all (· == x) = true ↔ o = none ∨ o = some x := by
  cases o <;> simp

/-- A row is for the traps whose arguments are the ones it names. -/
theorem EnvRule.applies_iff (r : EnvRule) (record : TrapRecord) (regs : Vector Word 31) (m : Memory) :
    EnvRule.applies r record regs m = true ↔
      (r.cause = none ∨ r.cause = some record.cause) ∧ (r.epc = none ∨ r.epc = some record.epc) ∧
      (r.info = none ∨ r.info = some record.info) ∧ (r.regs = none ∨ r.regs = some regs) ∧
      (r.mem = none ∨ r.mem = some m) := by
  simp only [EnvRule.applies, Bool.and_eq_true, all_beq_iff, and_assoc]

/-- The first row that is for the trap gives the answer. -/
theorem eeResume_of_first_row {p : Params} {before after : List EnvRule} {r : EnvRule} {record : TrapRecord}
    {regs : Vector Word 31} {m : Memory} (htable : p.eeResume = before ++ r :: after)
    (hbefore : ∀ q ∈ before, EnvRule.applies q record regs m = false)
    (happlies : EnvRule.applies r record regs m = true) :
    eeResume p record regs m = EnvReply.answer r.reply record.epc regs m := by
  have hfind : p.eeResume.find? (fun r => EnvRule.applies r record regs m) = some r :=
    List.find?_eq_some_iff_append.2 ⟨happlies, before, after, htable, fun q hq => by simp [hbefore q hq]⟩
  rw [eeResume, hfind]

theorem answer_resume (x0 : Word) (ws : List (RegIdx × Word)) (bs : List (Word × Byte)) (pc : ResumePc) (epc : Word)
    (regs : Vector Word 31) (m : Memory) :
    EnvReply.answer (.resume x0 ws bs pc) epc regs m =
      .resume x0 (writeRegs regs ws) (Memory.writeBytes m bs) (ResumePc.address pc epc) := rfl

section
variable (regs : Vector Word 31) (m : Memory)

/-- A register that no write names stays; register 0, which has no place, is named by no `i + 1`. -/
theorem getElem_writeRegs_of_unlisted {ws : List (RegIdx × Word)} {i : Nat} (hi : i < 31)
    (h : ∀ w ∈ ws, w.1.toNat ≠ i + 1) : (writeRegs regs ws)[i] = regs[i] := by
  rw [getElem_writeRegs regs ws hi (v := 0#32) fun w hw hwi => absurd hwi (h w hw), if_neg]
  rintro ⟨w, hw, hwi⟩
  exact h w hw hwi

/-- The last write of a register counts. -/
theorem getElem_writeRegs_of_last {l q : List (RegIdx × Word)} {n : RegIdx} {v : Word} {i : Nat} (hi : i < 31)
    (hn : n.toNat = i + 1) (hlast : ∀ w ∈ q, w.1 ≠ n) : (writeRegs regs (l ++ (n, v) :: q))[i] = v := by
  have hsplit : writeRegs regs (l ++ (n, v) :: q) = writeRegs (writeRegs regs l) ((n, v) :: q) := List.foldl_append
  have hagree : ∀ w ∈ (n, v) :: q, w.1.toNat = i + 1 → w.2 = v := by
    intro w hw hwi
    rcases List.mem_cons.1 hw with rfl | hw
    · rfl
    · exact absurd (BitVec.eq_of_toNat_eq (hwi.trans hn.symm)) (hlast w hw)
  rw [hsplit, getElem_writeRegs _ _ hi hagree]
  exact if_pos ⟨(n, v), List.mem_cons_self, hn⟩

/-- A byte that no write names stays. -/
theorem Memory.readByte_writeBytes_of_unlisted {bs : List (Word × Byte)} {b : Nat} (h : ∀ w ∈ bs, w.1.toNat ≠ b) :
    Memory.readByte (Memory.writeBytes m bs) b = Memory.readByte m b := by
  rw [Memory.readByte_writeBytes m bs (v := 0#8) fun w hw hwb => absurd hwb (h w hw), if_neg]
  rintro ⟨w, hw, hwb⟩
  exact h w hw hwb

/-- The last write of a byte counts. -/
theorem Memory.readByte_writeBytes_of_last {l q : List (Word × Byte)} {n : Word} {v : Byte}
    (hlast : ∀ w ∈ q, w.1 ≠ n) : Memory.readByte (Memory.writeBytes m (l ++ (n, v) :: q)) n.toNat = v := by
  have hsplit : Memory.writeBytes m (l ++ (n, v) :: q) = Memory.writeBytes (Memory.writeBytes m l) ((n, v) :: q) :=
    List.foldl_append
  have hagree : ∀ w ∈ (n, v) :: q, w.1.toNat = n.toNat → w.2 = v := by
    intro w hw hwn
    rcases List.mem_cons.1 hw with rfl | hw
    · rfl
    · exact absurd (BitVec.eq_of_toNat_eq hwn) (hlast w hw)
  rw [hsplit, Memory.readByte_writeBytes _ _ hagree]
  exact if_pos ⟨(n, v), List.mem_cons_self, rfl⟩

end

/-! ### The statements about one instruction, one step, one trap -/

/-- Settles O18. -/
theorem instructionCompletesOrRaisesItsCauses : Obligations.InstructionCompletesOrRaisesItsCauses :=
  fun i s => exec_completesOrRaises s i

/-- Settles O12: of the three ways of a step, a raised trap alone ends in a fault. -/
theorem faultsAreTrapsOfTheCurrentInstruction : Obligations.FaultsAreTrapsOfTheCurrentInstruction := by
  intro s f hfault
  rcases step_refuses_or_completes_or_raises s with ⟨_, -, h⟩ | ⟨_, h, -⟩ | ⟨c, info, h⟩ <;> rw [h] at hfault
  · cases hfault
  · cases hfault
  · obtain ⟨hstop, hf⟩ := raise_fault hfault
    exact ⟨c, info, hf, hstop⟩

/-- Settles O11: a completion refuses nothing, so it was the fetch or the environment's answer. -/
theorem stepRefusesOnlyAsSpecified : Obligations.StepRefusesOnlyAsSpecified := by
  intro s r hrefused
  rcases step_refuses_or_completes_or_raises s with ⟨_, hfetch, h⟩ | ⟨_, h, -⟩ | ⟨c, info, h⟩ <;>
    rw [h] at hrefused
  · cases hrefused
    exact .inl (fetch_refuses hfetch)
  · cases hrefused
  · obtain ⟨hr, x0, regs, mem, pc, hanswer, hbad⟩ := raise_refused hrefused
    rw [notFourAligned_eq_false_iff, not_and_or] at hbad
    exact .inr ⟨hr, c, info, x0, regs, mem, pc, h, hanswer, hbad⟩

/-- Settles O13: an empty table answers every trap with stop. -/
theorem raiseEndsTheRunByDefault : Obligations.RaiseEndsTheRunByDefault :=
  fun _ _ _ => ⟨fun hempty => raise_of_stop (envStops_of_nil hempty _), raise_of_stop⟩

/-- Settles O14: the next state is the record of `raise_of_resume`, read field by field. -/
theorem resumeContinuesFromTheGivenState : Obligations.ResumeContinuesFromTheGivenState := by
  intro c info x0 pc regs mem s hanswer
  refine ⟨fun hx0 hpc => ⟨_, raise_of_resume hanswer hx0 hpc, fun r hr => ?register, rfl, rfl, rfl, rfl, rfl, rfl⟩,
    raise_of_illegalResume hanswer⟩
  case register => exact if_neg hr

/-- Settles O46. -/
theorem ecallAndEbreakCompleteWhenServed : Obligations.EcallAndEbreakCompleteWhenServed :=
  fun s _ _ _ hpc => ⟨fun hanswer => (exec_ecall s).trans (raise_of_resume hanswer rfl hpc),
    fun hanswer => (exec_ebreak s).trans (raise_of_resume hanswer rfl hpc)⟩

/-- Settles O16: the table of `exists_table` answers as the function does, and `raise` acts on the answer. -/
theorem everyEnvironmentFunctionCanBeSupplied : Obligations.EveryEnvironmentFunctionCanBeSupplied := by
  intro f hf
  obtain ⟨table, htable⟩ := exists_table f hf
  refine ⟨table, fun c info s hs hwf => ?_⟩
  rw [← htable s.params hs ⟨c, s.pc, info⟩ s.regs s.mem hwf]
  exact ⟨raise_of_stop, fun _ _ _ _ hanswer => ⟨raise_of_resume hanswer, raise_of_illegalResume hanswer⟩⟩

/-- Settles O15: the row is the first for the trap, and its lists are read write by write. -/
theorem firstRowForTheTrapDecides : Obligations.FirstRowForTheTrapDecides := by
  intro p before after r record regs m htable hbefore hcause hepc hinfo hregs hmem
  have happlies := (EnvRule.applies_iff r record regs m).2 ⟨hcause, hepc, hinfo, hregs, hmem⟩
  have hanswer := eeResume_of_first_row htable hbefore happlies
  refine ⟨fun hstop => by rw [hanswer, hstop, EnvReply.answer], fun x0 ws bs pc hreply => ?_⟩
  rw [hreply, answer_resume] at hanswer
  refine ⟨_, _, _, hanswer, ?absolute, ?afterEpc, fun i hi => getElem_writeRegs_of_unlisted regs hi, ?lastWrite,
    fun b => Memory.readByte_writeBytes_of_unlisted m, ?lastByte⟩
  case absolute => rintro d rfl; rfl
  case afterEpc => rintro d rfl; rfl
  case lastWrite =>
    rintro i hi l n v q rfl hn hlast
    exact getElem_writeRegs_of_last regs hi hn hlast
  case lastByte =>
    rintro l n v q rfl hlast
    exact Memory.readByte_writeBytes_of_last m hlast

/-! ### Runs under an environment that resumes (R244, R245) -/

/-- No trap from a memory in canonical form is answered with stop. -/
def NeverStops (p : Params) : Prop :=
  ∀ record regs m, Memory.wf m → eeResume p record regs m ≠ .stop

/-- Every trap of an instruction at a multiple of 4 is answered with a state that the machine goes on from. -/
def AlwaysResumes (p : Params) : Prop :=
  ∀ record regs m, Memory.wf m → record.epc.toNat % 4 = 0 →
    ∃ regs' m' pc, eeResume p record regs m = .resume 0#32 regs' m' pc ∧ pc.toNat % 4 = 0

section
variable {s t : State}

theorem step_keeps_params (h : step s = .next t) : t.params = s.params := by
  obtain ⟨hparams, -⟩ := parametersStayAndBookkeepingGrows s t h
  exact hparams

theorem Completes.pcAligned {i : Instr} (h : Completes s i t) (hs : notFourAligned s.pc = false) :
    notFourAligned t.pc = false := by
  have hnext := notFourAligned_add_four hs
  cases h with
  | jumps _ _ _ _ _ haligned => exact haligned
  | branches _ _ _ haligned => exact haligned
  | _ => simpa using hnext

/-- Neither a transfer of control nor a resumption reaches a `pc` that is no multiple of 4, whatever `dirty` is. -/
theorem step_keeps_pcAligned (h : step s = .next t) (hs : notFourAligned s.pc = false) :
    notFourAligned t.pc = false := by
  rcases step_next h with ⟨c, info, hr⟩ | ⟨i, -, hc⟩
  · obtain ⟨_, _, _, -, hpc, rfl⟩ := raise_next hr
    exact hpc
  · exact hc.pcAligned hs

/-- A fault would be an answer to stop. -/
theorem step_ne_fault (hwf : Memory.wf s.mem) (henv : NeverStops s.params) (f : Fault) : step s ≠ .fault f := by
  intro h
  obtain ⟨c, info, -, hstop⟩ := faultsAreTrapsOfTheCurrentInstruction s f h
  exact henv _ _ _ hwf hstop

theorem AlwaysResumes.ne_stop {p : Params} (h : AlwaysResumes p) {record : TrapRecord} {regs : Vector Word 31}
    {m : Memory} (hm : Memory.wf m) (hepc : record.epc.toNat % 4 = 0) : eeResume p record regs m ≠ .stop := by
  obtain ⟨_, _, _, hresume, -⟩ := h record regs m hm hepc
  simp [hresume]

/-- A fault would be an answer to stop, and a refusal a fetch without coherence or an answer that is no state of the
machine. -/
theorem exists_step_next (hwf : Memory.wf s.mem) (hpc : s.pc.toNat % 4 = 0) (hcoherent : s.params.fetchCoherent = true)
    (henv : AlwaysResumes s.params) : ∃ t, step s = .next t := by
  cases h : step s with
  | next t => exact ⟨t, rfl⟩
  | fault f =>
    obtain ⟨c, info, -, hstop⟩ := faultsAreTrapsOfTheCurrentInstruction s f h
    exact absurd hstop (henv.ne_stop hwf hpc)
  | refused r =>
    rcases stepRefusesOnlyAsSpecified s r h with
      ⟨-, hincoherent, -⟩ | ⟨-, c, info, x0, regs, mem, pc, -, hanswer, hbad⟩
    · exact absurd hcoherent (by simp [hincoherent])
    · obtain ⟨_, _, _, hresume, haligned⟩ := henv ⟨c, s.pc, info⟩ s.regs s.mem hwf hpc
      rw [hanswer] at hresume
      cases hresume
      exact absurd haligned (hbad.resolve_left (absurd rfl))

theorem runSteps_ne_fault {k : Nat} (hwf : Memory.wf s.mem) (henv : NeverStops s.params) (f : Fault) :
    runSteps k s ≠ .fault f := by
  induction k generalizing s with
  | zero => rw [runSteps_zero]; nofun
  | succ k ih =>
    cases h : step s with
    | next u =>
      rw [runSteps_succ_of_next k h]
      exact ih (step_keeps_memWf h hwf) (step_keeps_params h ▸ henv)
    | fault g => exact absurd h (step_ne_fault hwf henv g)
    | refused r => rw [runSteps_succ_of_refused k h]; nofun

theorem exists_runSteps_next (k : Nat) (hwf : Memory.wf s.mem) (hpc : s.pc.toNat % 4 = 0)
    (hcoherent : s.params.fetchCoherent = true) (henv : AlwaysResumes s.params) : ∃ t, runSteps k s = .next t := by
  induction k generalizing s with
  | zero => exact ⟨s, runSteps_zero s⟩
  | succ k ih =>
    obtain ⟨u, hu⟩ := exists_step_next hwf hpc hcoherent henv
    have hparams := step_keeps_params hu
    rw [runSteps_succ_of_next k hu]
    rw [← notFourAligned_eq_false_iff] at hpc
    exact ih (step_keeps_memWf hu hwf) ((notFourAligned_eq_false_iff _).1 (step_keeps_pcAligned hu hpc))
      (hparams ▸ hcoherent) (hparams ▸ henv)

end

/-- Settles O17: both parts by induction on the length of the run, which the canonical form, the parameters and an aligned `pc`
survive step by step. -/
theorem resumingEnvironmentNeverEndsTheRun : Obligations.ResumingEnvironmentNeverEndsTheRun :=
  fun _ k hwf => ⟨fun henv => runSteps_ne_fault hwf henv, exists_runSteps_next k hwf⟩

end Sys2Proof.Machine
end

section
/-!
PROOFS. Reset and hazards (70_reset_and_hazards.md): what a launch gives (R271), and the jump to itself, a run without end
(R274).
-/

namespace Sys2Proof.Machine

/-! ### The jump to itself (R274) -/

/-- A state that a step gives back is given back by a run of any length. -/
theorem runSteps_of_step_self {s : State} (h : step s = .next s) (k : Nat) : runSteps k s = .next s := by
  induction k with
  | zero => exact runSteps_zero s
  | succ k ih => exact (runSteps_succ_of_next k h).trans ih

theorem jalTarget_zero (s : State) : jalTarget s 0#21 = s.pc := BitVec.add_zero s.pc

/-- Neither the link value, which goes to `x0`, nor the target, which is `pc` itself, changes the state. -/
theorem exec_jal_to_itself {s : State} (hpc : notFourAligned s.pc = false) : exec (.jal 0#5 0#21) s = .next s := by
  have hexec : exec (.jal 0#5 0#21) s = jumpAndLink 0#5 s.pc s := congrArg (jumpAndLink 0#5 · s) (jalTarget_zero s)
  rcases jumpAndLink_cases 0#5 s.pc s with ⟨hmisaligned, -⟩ | ⟨-, hjump⟩
  · simp [hpc] at hmisaligned
  · exact hexec.trans hjump

/-! ### The statements -/

/-- Settles O34: a word that is fetched stands at a multiple of 4, so the jump to it does not raise. -/
theorem jumpToItselfRepeatsForEver : Obligations.JumpToItselfRepeatsForEver := by
  intro s k hnext
  have ⟨⟨hpc, _, _⟩, _⟩ := hnext
  have hstep : step s = .next s := (step_of_nextIs hnext).trans (exec_jal_to_itself hpc)
  exact runSteps_of_step_self hstep k

/-- Settles O50: the two ways of `launch_cases`, the launched state read field by field; of the bytes given for one address the
last counts. -/
theorem launchGivesEveryField : Obligations.LaunchGivesEveryField := by
  intro args
  rcases launch_cases args with ⟨hmisaligned, hlaunch⟩ | ⟨haligned, hlaunch⟩
  · rw [notFourAligned_iff] at hmisaligned
    exact ⟨fun _ => hlaunch, fun haligned => absurd haligned hmisaligned⟩
  · rw [notFourAligned_eq_false_iff] at haligned
    refine ⟨absurd haligned, fun _ => ⟨_, hlaunch, State.readReg_zero _, fun r hr => ?register, rfl, ?lastByte,
      rfl, rfl, rfl⟩⟩
    case register => exact if_neg hr
    case lastByte =>
      intro l a v r hmem hlast
      rw [hmem]
      exact Memory.readByte_writeBytes_of_last [] hlast

/-- Settles O52: 0x1000 is a multiple of 4, so the launch is not refused, and no byte is written. -/
theorem resetIsALaunch : Obligations.ResetIsALaunch := by
  refine ((launch_cases _).resolve_left ?notRefused).2
  case notRefused =>
    rintro ⟨hmisaligned, -⟩
    exact absurd hmisaligned (by decide)

end Sys2Proof.Machine
end
